-- ==== Sys2Proof/Word.lean ====
section
/-! DEFINITION. The two word types of the core: the byte of the Byte Source and the 16-bit cell (R10, R14). -/

namespace Sys2Proof

/-- One byte; bit 7 is the most significant (R10). -/
abbrev Byte := BitVec 8

/-- `u16`, the width of every register, immediate, displacement and branch offset (R10, R14, R28).
The spec's `i16` is the same 16 bits read by `BitVec.toInt`; `toU16` and `toI16` are then the identity on
the bits (R10, log 12). -/
abbrev Word := BitVec 16

/-- The instruction pointer, `IPW` bits wide (R19; `IPW` is `Config.ipw`, log 3). -/
abbrev Addr := BitVec 16

end Sys2Proof
end

