-- ==== Sys2Proof/Config.lean ====
section
/-! DEFINITION. The parameters of R8 and their defaults, and the free values that stand for `Draw16()`.
The Encoding Table's default is `encTabDefault` of `Sys2Proof/Decode.lean`. -/

namespace Sys2Proof

/-- `TRUNC_POLICY`: what a short read inside an instruction does (R8, R41). -/
inductive TruncPolicy where
  | error
  | zeroPad
  deriving DecidableEq, Repr

/-- `MEM_READ_POLICY`: what reading the value of a `Memory` operand yields (R8, R123). -/
inductive MemReadPolicy where
  | draw
  | fault
  deriving DecidableEq, Repr

/-- `IPW`, the width of the instruction pointer (R8, R19). DESIGN CHOICE of the spec (D4), log 3. -/
def Config.ipw : Nat := 16

/-- The largest size `N` of a Byte Source: `2^IPW` bytes (R36). -/
def Config.addressSpace : Nat := 2 ^ Config.ipw

/-- The truncation policy the machine runs with (R8). DESIGN CHOICE of the spec (D3), log 2. -/
def Config.truncPolicy : TruncPolicy := .error

/-- The memory read policy the machine runs with (R8). DESIGN CHOICE of the spec (D6), log 5. -/
def Config.memReadPolicy : MemReadPolicy := .draw

/-- `RESET_REG` (R8, R33). DESIGN CHOICE of the spec (D5), log 4. -/
def Config.resetReg : Word := 0

/-- `RESET_FLAG` (R8, R33). DESIGN CHOICE of the spec (D5), log 4. -/
def Config.resetFlag : Bool := false

/-- `RESET_IP` (R8, R33). DESIGN CHOICE of the spec (D5), log 4. -/
def Config.resetIp : Addr := 0

/-- The free values: `freeWord n` is what the `n`-th `Draw16()` of a machine yields (R11, R123). It has no
body: nothing is known of any of its values (log 5, log 6). -/
opaque Config.freeWord : Nat → Word

end Sys2Proof
end

