-- ==== Sys2Proof/Syntax.lean ====
section
/-! DEFINITION. The records that cross the decode/execute boundary (R27 to R31) and the format of the Encoding
Table (R53 to R56). `Instr` is the spec's `Instruction` record: its constructor is the record's `kind`, its
argument the record's other three fields. -/

namespace Sys2Proof

/-- The eight general register cells (R14). -/
inductive GenReg where
  | a | b | c | d | sp | bp | si | di
  deriving DecidableEq, Repr

/-- The four segment identifiers: operand identifiers without storage (R24). -/
inductive SegReg where
  | es | cs | ss | ds
  deriving DecidableEq, Repr

/-- `RegisterId`: one of 8 general registers or 4 segment registers (R30). -/
inductive RegisterId where
  | general (cell : GenReg)
  | segment (seg : SegReg)
  deriving DecidableEq, Repr

/-- The view of a register cell that an operand takes (R14, R28). -/
inductive Portion where
  | low8 | high8 | full16
  deriving DecidableEq, Repr

/-- The nine addressing modes; `direct` has no base or index register (R31). -/
inductive AddressingMode where
  | direct | bxSi | bxDi | bpSi | bpDi | si | di | bp | bx
  deriving DecidableEq, Repr

/-- `Operand` (R28). The `i16` payloads are held as their 16 bits (log 12). -/
inductive Operand where
  | none
  | register (id : RegisterId) (portion : Portion)
  | memory (mode : AddressingMode) (displacement : Word)
  | immediate (value : Word)
  | relative (offset : Word)
  deriving DecidableEq, Repr

/-- The eleven field flags, in the order and under the short names of R56. -/
structure FieldFlags where
  d : Bool := false
  w : Bool := false
  s : Bool := false
  mod : Bool := false
  reg : Bool := false
  rm : Bool := false
  sr : Bool := false
  imm : Bool := false
  imm8u : Bool := false
  rel : Bool := false
  rmw : Bool := false
  deriving DecidableEq, Repr

/-- `Kind`, the 30 instruction kinds (R29). -/
inductive Kind where
  | mov | add | sub | cmp
  | jo | jno | jb | jnb | je | jne | jbe | ja | js | jns | jp | jnp | jl | jnl | jle | jg
  | loopnz | loopz | loop | jcxz
  | push | pop | xchg | inp | out | notUsed
  deriving DecidableEq, Repr

/-- The fields of an `Instruction` record beside its kind (R27): the descriptor's flags, the two operand slots
and the number of bytes consumed. -/
structure Fields where
  flags : FieldFlags
  op0 : Operand
  op1 : Operand
  byteLength : Nat
  deriving DecidableEq, Repr

/-- The `Instruction` record, one constructor per kind (R27, R29, log 11). -/
inductive Instr where
  | mov (f : Fields)
  | add (f : Fields)
  | sub (f : Fields)
  | cmp (f : Fields)
  | jo (f : Fields)
  | jno (f : Fields)
  | jb (f : Fields)
  | jnb (f : Fields)
  | je (f : Fields)
  | jne (f : Fields)
  | jbe (f : Fields)
  | ja (f : Fields)
  | js (f : Fields)
  | jns (f : Fields)
  | jp (f : Fields)
  | jnp (f : Fields)
  | jl (f : Fields)
  | jnl (f : Fields)
  | jle (f : Fields)
  | jg (f : Fields)
  | loopnz (f : Fields)
  | loopz (f : Fields)
  | loop (f : Fields)
  | jcxz (f : Fields)
  | push (f : Fields)
  | pop (f : Fields)
  | xchg (f : Fields)
  | inp (f : Fields)
  | out (f : Fields)
  | notUsed (f : Fields)
  deriving DecidableEq, Repr

/-- The record's `kind` field. -/
def Instr.kind : Instr → Kind
  | .mov _ => .mov
  | .add _ => .add
  | .sub _ => .sub
  | .cmp _ => .cmp
  | .jo _ => .jo
  | .jno _ => .jno
  | .jb _ => .jb
  | .jnb _ => .jnb
  | .je _ => .je
  | .jne _ => .jne
  | .jbe _ => .jbe
  | .ja _ => .ja
  | .js _ => .js
  | .jns _ => .jns
  | .jp _ => .jp
  | .jnp _ => .jnp
  | .jl _ => .jl
  | .jnl _ => .jnl
  | .jle _ => .jle
  | .jg _ => .jg
  | .loopnz _ => .loopnz
  | .loopz _ => .loopz
  | .loop _ => .loop
  | .jcxz _ => .jcxz
  | .push _ => .push
  | .pop _ => .pop
  | .xchg _ => .xchg
  | .inp _ => .inp
  | .out _ => .out
  | .notUsed _ => .notUsed

/-- The record's `flags`, `operands` and `byteLength` fields. -/
def Instr.fields : Instr → Fields
  | .mov f => f
  | .add f => f
  | .sub f => f
  | .cmp f => f
  | .jo f => f
  | .jno f => f
  | .jb f => f
  | .jnb f => f
  | .je f => f
  | .jne f => f
  | .jbe f => f
  | .ja f => f
  | .js f => f
  | .jns f => f
  | .jp f => f
  | .jnp f => f
  | .jl f => f
  | .jnl f => f
  | .jle f => f
  | .jg f => f
  | .loopnz f => f
  | .loopz f => f
  | .loop f => f
  | .jcxz f => f
  | .push f => f
  | .pop f => f
  | .xchg f => f
  | .inp f => f
  | .out f => f
  | .notUsed f => f

/-- The record of a kind and the other fields. -/
def Kind.record : Kind → Fields → Instr
  | .mov, f => .mov f
  | .add, f => .add f
  | .sub, f => .sub f
  | .cmp, f => .cmp f
  | .jo, f => .jo f
  | .jno, f => .jno f
  | .jb, f => .jb f
  | .jnb, f => .jnb f
  | .je, f => .je f
  | .jne, f => .jne f
  | .jbe, f => .jbe f
  | .ja, f => .ja f
  | .js, f => .js f
  | .jns, f => .jns f
  | .jp, f => .jp f
  | .jnp, f => .jnp f
  | .jl, f => .jl f
  | .jnl, f => .jnl f
  | .jle, f => .jle f
  | .jg, f => .jg f
  | .loopnz, f => .loopnz f
  | .loopz, f => .loopz f
  | .loop, f => .loop f
  | .jcxz, f => .jcxz f
  | .push, f => .push f
  | .pop, f => .pop f
  | .xchg, f => .xchg f
  | .inp, f => .inp f
  | .out, f => .out f
  | .notUsed, f => .notUsed f

/-- `extension` and `kind` of a descriptor (R53, R54): one kind, or eight selected by the reg field. -/
inductive Extension where
  | simple (kind : Kind)
  | groupExtended (kinds : Vector Kind 8)
  deriving DecidableEq, Repr

/-- `sizeClass` (R53, R55). -/
inductive SizeClass where
  | single | withModByte
  deriving DecidableEq, Repr

/-- The EncodingDescriptor (R53). `pattern` is `fixedFieldPattern`. -/
structure EncodingDescriptor where
  extension : Extension
  sizeClass : SizeClass
  flags : FieldFlags
  pattern : Byte
  deriving DecidableEq, Repr

/-- The Encoding Table: one descriptor per first byte (R53). A parameter of decoding, not state (R26). -/
abbrev EncodingTable := Byte → EncodingDescriptor

/-- The Byte Source read port IF-BS: `readBytes(address, count)` (R9, R35). A parameter of decoding; addresses are
unbounded naturals (R40). -/
abbrev ByteSource := Nat → Nat → List Byte

end Sys2Proof
end

