-- ==== Sys2Proof/WellFormed.lean ====
section
/-! DEFINITION. Which records are instructions of the default table, stated by the formats of R74 and the rules R75 to
R83, and which Encoding Tables are well formed (R69). Written without the table and the decoder, so that the
round trip of `Decode.lean` is checked against something else than itself. -/

namespace Sys2Proof

/-- The cells that have 8-bit halves: the first four only (R14). -/
def GenReg.hasHalves : GenReg → Bool
  | .a | .b | .c | .d => true
  | .sp | .bp | .si | .di => false

/-- The legal `(id, portion)` pairs (R30). -/
def RegisterId.allows : RegisterId → Portion → Bool
  | _, .full16 => true
  | .general cell, _ => cell.hasHalves
  | .segment _, _ => false

/-- A general register view of the word bank (`wide`) or of the byte banks (R60). -/
def Operand.isReg (wide : Bool) : Operand → Bool
  | .register (.general _) .full16 => wide
  | .register (.general cell) _ => !wide && cell.hasHalves
  | _ => false

/-- A segment register operand, always full-width (R61). -/
def Operand.isSegment : Operand → Bool
  | .register (.segment _) .full16 => true
  | _ => false

/-- The accumulator view: AX or AL. -/
def Operand.isAccumulator (wide : Bool) (o : Operand) : Bool :=
  o == .register (.general .a) (if wide then .full16 else .low8)

/-- A 16-bit value that a sign-extended byte can have. -/
def Word.isSignedByte (v : Word) : Bool :=
  v == BitVec.signExtend 16 (BitVec.setWidth 8 v)

/-- A 16-bit value that a zero-extended byte can have. -/
def Word.isUnsignedByte (v : Word) : Bool :=
  v == BitVec.setWidth 16 (BitVec.setWidth 8 v)

/-- An rm-derived operand with `dispLen` displacement bytes (R63, R64): mod = 0b00 has no byte and no mode BP, the
direct address has two. -/
def Operand.isRm (wide : Bool) (dispLen : Nat) : Operand → Bool
  | .memory .direct _ => dispLen == 2
  | .memory mode disp =>
    match dispLen with
    | 0 => mode != .bp && disp == 0
    | 1 => Word.isSignedByte disp
    | 2 => true
    | _ => false
  | o => o.isReg wide && dispLen == 0

/-- An rm-derived operand of a record of `len` bytes of which `fixed` are not displacement bytes. -/
def Operand.isRmOf (wide : Bool) (fixed len : Nat) (o : Operand) : Bool :=
  fixed ≤ len && o.isRm wide (len - fixed)

/-- An `Immediate` that `n` signed immediate bytes can give (R65, R66). -/
def Operand.isImmediate (n : Nat) : Operand → Bool
  | .immediate v => n == 2 || Word.isSignedByte v
  | _ => false

/-- A port number: an `Immediate` of 0 to 255 (R65, R174). -/
def Operand.isPort : Operand → Bool
  | .immediate v => Word.isUnsignedByte v
  | _ => false

/-- The number of signed immediate bytes (R65). -/
def FieldFlags.immediateLength (flags : FieldFlags) : Nat :=
  if flags.w && !flags.s then 2 else 1

/-- The reg-derived and the rm-derived operand of a record, by the `D` flag (R98). -/
def Fields.regOperand (f : Fields) : Operand := if f.flags.d then f.op0 else f.op1

/-- The rm-derived operand of a record, by the `D` flag (R98). -/
def Fields.rmOperand (f : Fields) : Operand := if f.flags.d then f.op1 else f.op0

/-- Format `RM_REG` (R74, R75, R82). -/
def Fields.isRmReg (f : Fields) : Bool :=
  f.flags == { d := f.flags.d, w := f.flags.w, mod := true, reg := true, rm := true } &&
  f.regOperand.isReg f.flags.w && f.rmOperand.isRmOf f.flags.w 2 f.byteLength

/-- Format `RM_SREG` (R74, R78); a register rm operand is full width (DEDUCED, log 24). -/
def Fields.isRmSreg (f : Fields) : Bool :=
  f.flags == { d := f.flags.d, w := true, mod := true, rm := true, sr := true } &&
  f.regOperand.isSegment && f.rmOperand.isRmOf true 2 f.byteLength

/-- Format `ACC_MOFFS` (R74, R78). -/
def Fields.isAccMoffs (f : Fields) : Bool :=
  f.flags == { d := f.flags.d, w := f.flags.w, mod := true, reg := true, rm := true } &&
  f.regOperand.isAccumulator f.flags.w &&
  (match f.rmOperand with | .memory .direct _ => true | _ => false) && f.byteLength == 3

/-- Format `REG_IMM` (R74, R78). -/
def Fields.isRegImm (f : Fields) : Bool :=
  f.flags == { d := true, w := f.flags.w, reg := true, imm := true } &&
  f.op0.isReg f.flags.w && f.op1.isImmediate f.flags.immediateLength &&
  f.byteLength == 1 + f.flags.immediateLength

/-- Format `ACC_IMM` (R74, R76). -/
def Fields.isAccImm (f : Fields) : Bool :=
  f.isRegImm && f.op0.isAccumulator f.flags.w

/-- Format `GRP_RM_IMM` (R74, R77, R78); `sAllowed` where the group has entries with the `S` flag. -/
def Fields.isGrpRmImm (sAllowed : Bool) (f : Fields) : Bool :=
  f.flags == { w := f.flags.w, s := f.flags.s, mod := true, rm := true, imm := true } &&
  (sAllowed || !f.flags.s) &&
  f.op0.isRmOf f.flags.w (2 + f.flags.immediateLength) f.byteLength &&
  f.op1.isImmediate f.flags.immediateLength

/-- Format `GRP_RM` (R74, R81). -/
def Fields.isGrpRm (f : Fields) : Bool :=
  f.flags == { w := true, mod := true, rm := true } &&
  f.op0.isRmOf true 2 f.byteLength && f.op1 == .none

/-- Format `REG_IN_OPCODE` (R74, R81). -/
def Fields.isRegInOpcode (f : Fields) : Bool :=
  f.flags == { d := true, w := true, reg := true } &&
  f.op0.isReg true && f.op1 == .none && f.byteLength == 1

/-- Format `SREG_IN_OPCODE` (R74, R81). -/
def Fields.isSregInOpcode (f : Fields) : Bool :=
  f.flags == { d := true, sr := true } &&
  f.op0.isSegment && f.op1 == .none && f.byteLength == 1

/-- Format `ACC_REG` (R74, R82). -/
def Fields.isAccReg (f : Fields) : Bool :=
  f.flags == { w := true, mod := true, reg := true, rm := true } &&
  f.op0.isAccumulator true && f.op1.isReg true && f.byteLength == 1

/-- Format `ACC_IMM8U` (R74, R83): the accumulator by the `D` flag, the port in the other slot. -/
def Fields.isAccImm8u (d : Bool) (f : Fields) : Bool :=
  f.flags == { d := d, w := f.flags.w, reg := true, imm8u := true } &&
  f.regOperand.isAccumulator f.flags.w && f.rmOperand.isPort && f.byteLength == 2

/-- Format `ACC_DX` (R74, R83). -/
def Fields.isAccDx (d : Bool) (f : Fields) : Bool :=
  f.flags == { d := d, w := f.flags.w, mod := true, reg := true, rm := true, rmw := true } &&
  f.regOperand.isAccumulator f.flags.w &&
  f.rmOperand == .register (.general .d) .full16 && f.byteLength == 1

/-- Format `REL8` (R74, R79, R80, R147). -/
def Fields.isRel8 (f : Fields) : Bool :=
  f.flags == { rel := true } &&
  (match f.op0 with | .relative off => Word.isSignedByte off | _ => false) &&
  f.op1 == .none && f.byteLength == 2

/-- Format `UNUSED` (R74, R86). -/
def Fields.isUnused (f : Fields) : Bool :=
  f == { flags := {}, op0 := .none, op1 := .none, byteLength := 1 }

/-- The records the default table gives (R75 to R83, R86, R87): per kind, the formats its rows have. -/
def Instr.wf : Instr → Bool
  | .mov f => f.isRmReg || f.isRmSreg || f.isAccMoffs || f.isRegImm || f.isGrpRmImm false
  | .add f | .sub f | .cmp f => f.isRmReg || f.isAccImm || f.isGrpRmImm true
  | .jo f | .jno f | .jb f | .jnb f | .je f | .jne f | .jbe f | .ja f
  | .js f | .jns f | .jp f | .jnp f | .jl f | .jnl f | .jle f | .jg f
  | .loopnz f | .loopz f | .loop f | .jcxz f => f.isRel8
  | .push f => f.isRegInOpcode || f.isSregInOpcode || f.isGrpRm
  | .pop f =>
    f.isRegInOpcode || (f.isSregInOpcode && f.op0 != .register (.segment .cs) .full16) || f.isGrpRm
  | .xchg f => (f.isRmReg && f.flags.d) || f.isAccReg
  | .inp f => f.isAccImm8u true || f.isAccDx true
  | .out f => f.isAccImm8u false || f.isAccDx false
  | .notUsed f => f.isUnused || f.isGrpRmImm true || f.isGrpRm

/-! ## Well-formed tables (R69) -/

/-- W1: a group's kind is indexed by the mod/reg/rm byte. -/
def EncodingDescriptor.w1 (d : EncodingDescriptor) : Bool :=
  match d.extension with
  | .simple _ => true
  | .groupExtended _ => d.sizeClass == .withModByte

/-- W2: at most one of `REG`, `SR`. -/
def EncodingDescriptor.w2 (d : EncodingDescriptor) : Bool := !(d.flags.reg && d.flags.sr)

/-- W3: a group has neither `REG` nor `SR`. -/
def EncodingDescriptor.w3 (d : EncodingDescriptor) : Bool :=
  match d.extension with
  | .simple _ => true
  | .groupExtended _ => !d.flags.reg && !d.flags.sr

/-- W4: at most one of `IMM`, `IMM8U`, `REL`. -/
def EncodingDescriptor.w4 (d : EncodingDescriptor) : Bool :=
  !(d.flags.imm && d.flags.imm8u) && !(d.flags.imm && d.flags.rel) && !(d.flags.imm8u && d.flags.rel)

/-- W5: with both slots taken by register and rm operands there is no immediate of any sort. -/
def EncodingDescriptor.w5 (d : EncodingDescriptor) : Bool :=
  !((d.flags.reg || d.flags.sr) && d.flags.rm && (d.flags.imm || d.flags.imm8u || d.flags.rel))

/-- W6: `S`, `RMW` and `MOD` only where they have an effect. -/
def EncodingDescriptor.w6 (d : EncodingDescriptor) : Bool :=
  (!d.flags.s || (d.flags.imm && d.flags.w)) && (!d.flags.rmw || d.flags.rm) && (!d.flags.mod || d.flags.rm)

/-- A well-formed descriptor (R69). The default table's 0x82 has `S` without `W` and so breaks W6 (log 21). -/
def EncodingDescriptor.wellFormed (d : EncodingDescriptor) : Bool :=
  d.w1 && d.w2 && d.w3 && d.w4 && d.w5 && d.w6

end Sys2Proof
end

