-- ==== Sys2Proof/Decode.lean ====
section
/-! DEFINITION. The Decode Engine: the field layout and lookup tables (R59 to R62), the default Encoding Table (R74 to
R86), the decode transaction for every table and truncation policy (R93 to R107), its lengths and reads (R40, R68),
and AFTER them the encoder of the default table. -/

namespace Sys2Proof

/-! ## Fields and values (R10, R59) -/

/-- `sext_16` (R10). -/
def sext8 (b : Byte) : Word := BitVec.signExtend 16 b

/-- `zext_16` (R10). -/
def zext8 (b : Byte) : Word := BitVec.setWidth 16 b

/-- `le16(b0, b1)`: `b0` is the byte at the lower address (R10, R38). -/
def le16 (b0 b1 : Byte) : Word := b1 ++ b0

/-- The less significant byte of a 16-bit value. -/
def loByte (v : Word) : Byte := BitVec.extractLsb' 0 8 v

/-- The more significant byte of a 16-bit value. -/
def hiByte (v : Word) : Byte := BitVec.extractLsb' 8 8 v

/-- `mod = pattern[7:6]` (R59). -/
def modField (p : Byte) : BitVec 2 := BitVec.extractLsb' 6 2 p

/-- `reg = pattern[5:3]` (R59). -/
def regField (p : Byte) : BitVec 3 := BitVec.extractLsb' 3 3 p

/-- `rm = pattern[2:0]` (R59). -/
def rmField (p : Byte) : BitVec 3 := BitVec.extractLsb' 0 3 p

/-- `sr = pattern[4:3]` (R59). -/
def srField (p : Byte) : BitVec 2 := BitVec.extractLsb' 3 2 p

/-- The mod/reg/rm byte made of its three fields (R59). -/
def modRegRm (m : BitVec 2) (r x : BitVec 3) : Byte := m ++ r ++ x

/-! ## The lookup tables (R60 to R62) -/

/-- The cell order of a register field: A, C, D, B, SP, BP, SI, DI (R60, C5). -/
def wordCell (n : BitVec 3) : GenReg :=
  match n.toNat with
  | 0 => .a | 1 => .c | 2 => .d | 3 => .b
  | 4 => .sp | 5 => .bp | 6 => .si | _ => .di

/-- `REGTAB`: entries 0..3 are the low byte views, 4..7 the high byte views, 8..15 the word views (R60). -/
def regTab (i : BitVec 4) : Operand :=
  let n : BitVec 3 := BitVec.setWidth 3 i
  if i.toNat < 4 then .register (.general (wordCell n)) .low8
  else if i.toNat < 8 then .register (.general (wordCell (n - 4))) .high8
  else .register (.general (wordCell n)) .full16

/-- `RegOperand(n, wide) = REGTAB[n + (8 if wide else 0)]` (R60). -/
def regOperand (n : BitVec 3) (wide : Bool) : Operand :=
  regTab (BitVec.setWidth 4 n + (if wide then 8 else 0))

/-- `SEGTAB` (R61). -/
def segTab (n : BitVec 2) : SegReg :=
  match n.toNat with
  | 0 => .es | 1 => .cs | 2 => .ss | _ => .ds

/-- `SegOperand(n)` (R61). -/
def segOperand (n : BitVec 2) : Operand := .register (.segment (segTab n)) .full16

/-- `EATAB` (R62). -/
def eaTab (n : BitVec 3) : AddressingMode :=
  match n.toNat with
  | 0 => .bxSi | 1 => .bxDi | 2 => .bpSi | 3 => .bpDi
  | 4 => .si | 5 => .di | 6 => .bp | _ => .bx

/-- The direct-address special case, tested before `EATAB` (R62, R101). -/
def isDirect (m : BitVec 2) (x : BitVec 3) : Bool := m == 0 && x == 6

/-! ## The default Encoding Table (R74 to R86): rows by format, `n` the first byte -/

/-- Format `RM_REG`: `W` is bit 0 and `D` bit 1 of the first byte (R75). -/
def rowRmReg (k : Kind) (n : Nat) : EncodingDescriptor :=
  ⟨.simple k, .withModByte, { d := n.testBit 1, w := n.testBit 0, mod := true, reg := true, rm := true }, 0⟩

/-- Format `ACC_IMM`: the accumulator is reg 0 of the fixed pattern (R76). -/
def rowAccImm (k : Kind) (n : Nat) : EncodingDescriptor :=
  ⟨.simple k, .single, { d := true, w := n.testBit 0, reg := true, imm := true }, 0⟩

/-- Format `REG_IMM` (R78): the register number is in bits 2-0 of the first byte, `W` is bit 3. -/
def rowRegImm (n : Nat) : EncodingDescriptor :=
  ⟨.simple .mov, .single, { d := true, w := n.testBit 3, reg := true, imm := true }, BitVec.ofNat 8 (n % 8 * 8)⟩

/-- Format `GRP_RM_IMM`: `W` is bit 0 of the first byte; `s` is the `S` flag (R77, R78). -/
def rowGrpRmImm (kinds : Vector Kind 8) (s : Bool) (n : Nat) : EncodingDescriptor :=
  ⟨.groupExtended kinds, .withModByte, { w := n.testBit 0, s := s, mod := true, rm := true, imm := true }, 0⟩

/-- Format `GRP_RM` (R81). -/
def rowGrpRm (kinds : Vector Kind 8) : EncodingDescriptor :=
  ⟨.groupExtended kinds, .withModByte, { w := true, mod := true, rm := true }, 0⟩

/-- Format `RM_SREG`: `D` is bit 1 of the first byte and `W` is set (R78), so that a register rm operand is full width, as
the segment register is (R61). DEDUCED: R113 (h) counts these moves among those with register operands of different
widths, no ruling names the conflict, and the model follows R61 and R78 (log 24). -/
def rowRmSreg (n : Nat) : EncodingDescriptor :=
  ⟨.simple .mov, .withModByte, { d := n.testBit 1, w := true, mod := true, rm := true, sr := true }, 0⟩

/-- Format `ACC_MOFFS`: pattern 0x06; `D` is the inverse of bit 1 of the first byte (R78). -/
def rowAccMoffs (n : Nat) : EncodingDescriptor :=
  ⟨.simple .mov, .single, { d := !n.testBit 1, w := n.testBit 0, mod := true, reg := true, rm := true }, 0x06⟩

/-- Format `REG_IN_OPCODE` (R81). -/
def rowRegInOpcode (k : Kind) (n : Nat) : EncodingDescriptor :=
  ⟨.simple k, .single, { d := true, w := true, reg := true }, BitVec.ofNat 8 (n % 8 * 8)⟩

/-- Format `SREG_IN_OPCODE`: the segment number is in bits 4-3 of the first byte (R81). -/
def rowSregInOpcode (k : Kind) (n : Nat) : EncodingDescriptor :=
  ⟨.simple k, .single, { d := true, sr := true }, BitVec.ofNat 8 (n / 8 % 4 * 8)⟩

/-- Format `ACC_REG`: pattern 0xC0 | (r << 3) (R82). -/
def rowAccReg (n : Nat) : EncodingDescriptor :=
  ⟨.simple .xchg, .single, { w := true, mod := true, reg := true, rm := true }, BitVec.ofNat 8 (0xC0 + n % 8 * 8)⟩

/-- Format `ACC_IMM8U`: `W` is bit 0; `D` is set for input and clear for output, the inverse of bit 1 (R83). -/
def rowAccImm8u (k : Kind) (n : Nat) : EncodingDescriptor :=
  ⟨.simple k, .single, { d := !n.testBit 1, w := n.testBit 0, reg := true, imm8u := true }, 0⟩

/-- Format `ACC_DX`: pattern 0xC2 (R83). -/
def rowAccDx (k : Kind) (n : Nat) : EncodingDescriptor :=
  ⟨.simple k, .single,
    { d := !n.testBit 1, w := n.testBit 0, mod := true, reg := true, rm := true, rmw := true }, 0xC2⟩

/-- Format `REL8` (R79, R80). -/
def rowRel8 (k : Kind) : EncodingDescriptor := ⟨.simple k, .single, { rel := true }, 0⟩

/-- An unused entry: the all-zero descriptor (R86). -/
def rowUnused : EncodingDescriptor := ⟨.simple .notUsed, .single, {}, 0⟩

/-- The kinds of the groups 0x80 to 0x83: reg = 0, 5, 7 (R77). -/
def arithGroup : Vector Kind 8 := #v[.add, .notUsed, .notUsed, .notUsed, .notUsed, .sub, .notUsed, .cmp]

/-- The kinds of the groups 0xC6 and 0xC7 (R78). -/
def movGroup : Vector Kind 8 :=
  #v[.mov, .notUsed, .notUsed, .notUsed, .notUsed, .notUsed, .notUsed, .notUsed]

/-- The kinds of the group 0x8F (R81). -/
def popGroup : Vector Kind 8 :=
  #v[.pop, .notUsed, .notUsed, .notUsed, .notUsed, .notUsed, .notUsed, .notUsed]

/-- The kinds of the group 0xFF (R81). -/
def pushGroup : Vector Kind 8 :=
  #v[.notUsed, .notUsed, .notUsed, .notUsed, .notUsed, .notUsed, .push, .notUsed]

/-- The conditional jumps 0x70 to 0x7F by the low four bits of the first byte (R79). -/
def jumpKind (n : Nat) : Kind :=
  match n with
  | 0x0 => .jo | 0x1 => .jno | 0x2 => .jb | 0x3 => .jnb
  | 0x4 => .je | 0x5 => .jne | 0x6 => .jbe | 0x7 => .ja
  | 0x8 => .js | 0x9 => .jns | 0xA => .jp | 0xB => .jnp
  | 0xC => .jl | 0xD => .jnl | 0xE => .jle | _ => .jg

/-- `ENCTAB_DEFAULT` (R74 to R86), in the order of the first bytes of R84. PRESUMED by the spec from the 8086's opcode
assignment, but for what R70 to R73 fix (log 1). -/
def encTabDefault (b : Byte) : EncodingDescriptor :=
  let n := b.toNat
  if n ≤ 0x03 then rowRmReg .add n
  else if n ≤ 0x05 then rowAccImm .add n
  else if n = 0x06 ∨ n = 0x0E ∨ n = 0x16 ∨ n = 0x1E then rowSregInOpcode .push n
  else if n = 0x07 ∨ n = 0x17 ∨ n = 0x1F then rowSregInOpcode .pop n
  else if 0x28 ≤ n ∧ n ≤ 0x2B then rowRmReg .sub n
  else if 0x2C ≤ n ∧ n ≤ 0x2D then rowAccImm .sub n
  else if 0x38 ≤ n ∧ n ≤ 0x3B then rowRmReg .cmp n
  else if 0x3C ≤ n ∧ n ≤ 0x3D then rowAccImm .cmp n
  else if 0x50 ≤ n ∧ n ≤ 0x57 then rowRegInOpcode .push n
  else if 0x58 ≤ n ∧ n ≤ 0x5F then rowRegInOpcode .pop n
  else if 0x70 ≤ n ∧ n ≤ 0x7F then rowRel8 (jumpKind (n - 0x70))
  else if 0x80 ≤ n ∧ n ≤ 0x83 then rowGrpRmImm arithGroup (n.testBit 1) n
  else if n = 0x86 ∨ n = 0x87 then rowRmReg .xchg n
  else if 0x88 ≤ n ∧ n ≤ 0x8B then rowRmReg .mov n
  else if n = 0x8C ∨ n = 0x8E then rowRmSreg n
  else if n = 0x8F then rowGrpRm popGroup
  else if 0x90 ≤ n ∧ n ≤ 0x97 then rowAccReg n
  else if 0xA0 ≤ n ∧ n ≤ 0xA3 then rowAccMoffs n
  else if 0xB0 ≤ n ∧ n ≤ 0xBF then rowRegImm n
  else if n = 0xC6 ∨ n = 0xC7 then rowGrpRmImm movGroup false n
  else if n = 0xE0 then rowRel8 .loopnz
  else if n = 0xE1 then rowRel8 .loopz
  else if n = 0xE2 then rowRel8 .loop
  else if n = 0xE3 then rowRel8 .jcxz
  else if n = 0xE4 ∨ n = 0xE5 then rowAccImm8u .inp n
  else if n = 0xE6 ∨ n = 0xE7 then rowAccImm8u .out n
  else if n = 0xEC ∨ n = 0xED then rowAccDx .inp n
  else if n = 0xEE ∨ n = 0xEF then rowAccDx .out n
  else if n = 0xFF then rowGrpRm pushGroup
  else rowUnused

/-! ## Field fetch (R41) -/

/-- `Fetch1` (R41); `none` is `TruncatedField`. -/
def fetch1 (pol : TruncPolicy) (src : ByteSource) (a : Nat) : Option Byte :=
  match src a 1 with
  | b :: _ => some b
  | [] =>
    match pol with
    | .error => none
    | .zeroPad => some 0

/-- `Fetch2` (R41): under `ZeroPad` the one byte that exists is the low byte. -/
def fetch2 (pol : TruncPolicy) (src : ByteSource) (a : Nat) : Option Word :=
  match src a 2 with
  | b0 :: b1 :: _ => some (le16 b0 b1)
  | [b0] =>
    match pol with
    | .error => none
    | .zeroPad => some (le16 b0 0)
  | [] =>
    match pol with
    | .error => none
    | .zeroPad => some 0

/-! ## The steps (R94 to R106) -/

/-- The two operand slots of a record under construction. -/
structure Slots where
  op0 : Operand := .none
  op1 : Operand := .none
  deriving DecidableEq, Repr

/-- Write slot 1 (`true`) or slot 0 (`false`). -/
def Slots.put (ops : Slots) (slot1 : Bool) (o : Operand) : Slots :=
  if slot1 then { ops with op1 := o } else { ops with op0 := o }

/-- Step 2, the pattern, with the consumed length after it (R95). -/
def patternStep (pol : TruncPolicy) (src : ByteSource) (offset : Nat) (d : EncodingDescriptor) :
    Option (Byte × Nat) :=
  match d.sizeClass with
  | .withModByte => (fetch1 pol src (offset + 1)).map fun b => (b, 2)
  | .single => some (d.pattern, 1)

/-- Step 3, the kind (R96). -/
def EncodingDescriptor.kindOf (d : EncodingDescriptor) (pattern : Byte) : Kind :=
  match d.extension with
  | .simple k => k
  | .groupExtended kinds => kinds[(regField pattern).toNat]

/-- Step 6, the reg field: `regSlot` is slot 0 when `D` is set, else slot 1 (R98, R99). -/
def regStep (F : FieldFlags) (pattern : Byte) (ops : Slots) : Slots :=
  if F.reg then ops.put (!F.d) (regOperand (regField pattern) F.w) else ops

/-- Step 7, the segment register field, in the reg slot (R100). -/
def segStep (F : FieldFlags) (pattern : Byte) (ops : Slots) : Slots :=
  if F.sr then ops.put (!F.d) (segOperand (srField pattern)) else ops

/-- The displacement of a memory rm operand, with its number of bytes (R102). -/
def displacement (pol : TruncPolicy) (src : ByteSource) (a : Nat) (m : BitVec 2) (x : BitVec 3) :
    Option (Word × Nat) :=
  if m = 1 then (fetch1 pol src a).map fun b => (sext8 b, 1)
  else if m = 2 ∨ isDirect m x then (fetch2 pol src a).map fun v => (v, 2)
  else some (0, 0)

/-- The rm-derived operand, with its number of displacement bytes (R101, R102). -/
def rmOperand (pol : TruncPolicy) (src : ByteSource) (a : Nat) (wideRm : Bool) (pattern : Byte) :
    Option (Operand × Nat) :=
  let m := modField pattern
  let x := rmField pattern
  if m = 3 then some (regOperand x wideRm, 0)
  else
    (displacement pol src a m x).map fun (disp, n) =>
      (.memory (if isDirect m x then .direct else eaTab x) disp, n)

/-- Step 8, in the rm slot (R97, R98, R101). -/
def rmStep (pol : TruncPolicy) (src : ByteSource) (offset : Nat) (F : FieldFlags) (pattern : Byte)
    (ops : Slots) (len : Nat) : Option (Slots × Nat) :=
  if F.rm then
    (rmOperand pol src (offset + len) (F.w || F.rmw) pattern).map fun (o, n) => (ops.put F.d o, len + n)
  else some (ops, len)

/-- Step 9, the immediate target slot: slot 0 if unused, else slot 1 (R103). -/
def Slots.immediateTarget (ops : Slots) : Bool := ops.op0 != .none

/-- Step 9, the immediate (R104). -/
def immediateStep (pol : TruncPolicy) (src : ByteSource) (offset : Nat) (F : FieldFlags) (t : Bool)
    (ops : Slots) (len : Nat) : Option (Slots × Nat) :=
  if F.imm && F.w && !F.s then
    (fetch2 pol src (offset + len)).map fun v => (ops.put t (.immediate v), len + 2)
  else if F.imm then
    (fetch1 pol src (offset + len)).map fun b => (ops.put t (.immediate (sext8 b)), len + 1)
  else if F.imm8u then
    (fetch1 pol src (offset + len)).map fun b => (ops.put t (.immediate (zext8 b)), len + 1)
  else some (ops, len)

/-- Step 10, the branch displacement (R105). -/
def relativeStep (pol : TruncPolicy) (src : ByteSource) (offset : Nat) (F : FieldFlags) (t : Bool)
    (ops : Slots) (len : Nat) : Option (Slots × Nat) :=
  if F.rel then
    (fetch1 pol src (offset + len)).map fun b => (ops.put t (.relative (sext8 b)), len + 1)
  else some (ops, len)

/-- Steps 2 to 11 for the descriptor `d` of the first byte (R95 to R106); `none` is `TruncatedField`. -/
def decodeRecord (pol : TruncPolicy) (src : ByteSource) (offset : Nat) (d : EncodingDescriptor) : Option Instr := do
  let (pattern, len) ← patternStep pol src offset d
  let ops := segStep d.flags pattern (regStep d.flags pattern {})
  let (ops, len) ← rmStep pol src offset d.flags pattern ops len
  let t := ops.immediateTarget
  let (ops, len) ← immediateStep pol src offset d.flags t ops len
  let (ops, len) ← relativeStep pol src offset d.flags t ops len
  return (d.kindOf pattern).record
    { flags := d.flags, op0 := ops.op0, op1 := ops.op1, byteLength := len }

/-- The response of a decode transaction (R93): a record with `bytesConsumed`, or one of the two named failures. -/
inductive Decoded where
  | instr (i : Instr) (bytesConsumed : Nat)
  | endOfStream
  | truncatedField
  deriving DecidableEq, Repr

/-- The decode transaction, complete (R94, R107). -/
def decode (tab : EncodingTable) (pol : TruncPolicy) (src : ByteSource) (offset : Nat) : Decoded :=
  match src offset 1 with
  | [] => .endOfStream
  | opcode :: _ =>
    match decodeRecord pol src offset (tab opcode) with
    | none => .truncatedField
    | some i => .instr i i.fields.byteLength

/-! ## Lengths and reads (R40, R68) -/

/-- The number of displacement bytes (R63, R64): 0 when `RM` is not in the flags. -/
def dispBytes (F : FieldFlags) (pattern : Byte) : Nat :=
  if !F.rm || modField pattern == 3 then 0
  else if modField pattern == 1 then 1
  else if modField pattern == 2 || isDirect (modField pattern) (rmField pattern) then 2
  else 0

/-- The number of immediate bytes (R65). -/
def immBytes (F : FieldFlags) : Nat :=
  if F.imm && F.w && !F.s then 2 else if F.imm || F.imm8u then 1 else 0

/-- The number of mod/reg/rm bytes (R55, R68). -/
def modBytes (d : EncodingDescriptor) : Nat := if d.sizeClass == .withModByte then 1 else 0

/-- The number of branch displacement bytes (R67). -/
def relBytes (F : FieldFlags) : Nat := if F.rel then 1 else 0

/-- `byteLength` by the descriptor and the pattern (R68). -/
def lengthOf (d : EncodingDescriptor) (pattern : Byte) : Nat :=
  1 + modBytes d + dispBytes d.flags pattern + immBytes d.flags + relBytes d.flags

/-- One read of `count` bytes, or none. -/
def readOf (a count : Nat) : List (Nat × Nat) := if count = 0 then [] else [(a, count)]

/-- The reads `(address, count)` of a decode transaction whose fields are all there, in order (R40). -/
def readPlan (d : EncodingDescriptor) (pattern : Byte) (offset : Nat) : List (Nat × Nat) :=
  let a1 := offset + 1
  let a2 := a1 + modBytes d
  let a3 := a2 + dispBytes d.flags pattern
  let a4 := a3 + immBytes d.flags
  (offset, 1) :: (readOf a1 (modBytes d) ++ readOf a2 (dispBytes d.flags pattern) ++
    readOf a3 (immBytes d.flags) ++ readOf a4 (relBytes d.flags))

/-- A Byte Source of the bytes of a list: `MEM[0..N-1]` with clamped reads (R35). -/
def listSource (bs : List Byte) : ByteSource := fun a n => (bs.drop a).take n

/-! ## The encoder of the default table (R75 to R83, read from the record to the bytes) -/

/-- The register field that names a cell in the word bank (R60). -/
def cellNumber : GenReg → BitVec 3
  | .a => 0 | .c => 1 | .d => 2 | .b => 3 | .sp => 4 | .bp => 5 | .si => 6 | .di => 7

/-- The register field of a register operand (R60). -/
def regNumber : Operand → BitVec 3
  | .register (.general cell) .high8 => cellNumber cell + 4
  | .register (.general cell) _ => cellNumber cell
  | _ => 0

/-- The segment field of a segment register operand (R61). -/
def segNumber : Operand → BitVec 2
  | .register (.segment .es) _ => 0
  | .register (.segment .cs) _ => 1
  | .register (.segment .ss) _ => 2
  | .register (.segment .ds) _ => 3
  | _ => 0

/-- The rm field of an addressing mode (R62); the direct address has rm = 0b110. -/
def modeNumber : AddressingMode → BitVec 3
  | .bxSi => 0 | .bxDi => 1 | .bpSi => 2 | .bpDi => 3
  | .si => 4 | .di => 5 | .bp => 6 | .direct => 6 | .bx => 7

/-- The bytes of a 16-bit value, the less significant first (R38). -/
def wordBytes (v : Word) : List Byte := [loByte v, hiByte v]

/-- The mod/reg/rm byte and displacement bytes of an rm-derived operand with `dispLen` displacement bytes (R63). -/
def encodeRm (r : BitVec 3) (o : Operand) (dispLen : Nat) : List Byte :=
  match o with
  | .memory .direct disp => modRegRm 0 r 6 :: wordBytes disp
  | .memory mode disp =>
    match dispLen with
    | 0 => [modRegRm 0 r (modeNumber mode)]
    | 1 => [modRegRm 1 r (modeNumber mode), loByte disp]
    | _ => modRegRm 2 r (modeNumber mode) :: wordBytes disp
  | o => [modRegRm 3 r (regNumber o)]

/-- The `n` bytes of an immediate operand (R65, R66). -/
def encodeImmediate (n : Nat) : Operand → List Byte
  | .immediate v => if n = 2 then wordBytes v else [loByte v]
  | _ => []

/-- The byte of a branch operand (R67). -/
def encodeRelative : Operand → List Byte
  | .relative off => [loByte off]
  | _ => []

/-- A first byte. -/
def opcode (n : Nat) : Byte := BitVec.ofNat 8 n

/-- `RM_REG` at `base` (R75, R82). -/
def encodeRmReg (base : Nat) (f : Fields) : List Byte :=
  opcode (base + f.flags.w.toNat + 2 * f.flags.d.toNat) ::
    encodeRm (regNumber f.regOperand) f.rmOperand (f.byteLength - 2)

/-- `RM_SREG` (R78). -/
def encodeRmSreg (f : Fields) : List Byte :=
  opcode (0x8C + 2 * f.flags.d.toNat) ::
    encodeRm (BitVec.setWidth 3 (segNumber f.regOperand)) f.rmOperand (f.byteLength - 2)

/-- `ACC_MOFFS` (R78). -/
def encodeAccMoffs (f : Fields) : List Byte :=
  opcode (0xA0 + f.flags.w.toNat + 2 * (!f.flags.d).toNat) ::
    (match f.rmOperand with | .memory _ disp => wordBytes disp | _ => [])

/-- `REG_IMM` (R78). -/
def encodeRegImm (f : Fields) : List Byte :=
  opcode (0xB0 + 8 * f.flags.w.toNat + (regNumber f.op0).toNat) :: encodeImmediate f.flags.immediateLength f.op1

/-- `ACC_IMM` at `base` (R76). -/
def encodeAccImm (base : Nat) (f : Fields) : List Byte :=
  opcode (base + f.flags.w.toNat) :: encodeImmediate f.flags.immediateLength f.op1

/-- `GRP_RM_IMM` at `base` with the group's reg value `r` (R77, R78). -/
def encodeGrpRmImm (base : Nat) (r : BitVec 3) (f : Fields) : List Byte :=
  opcode (base + f.flags.w.toNat + 2 * f.flags.s.toNat) ::
    (encodeRm r f.op0 (f.byteLength - (2 + f.flags.immediateLength)) ++
      encodeImmediate f.flags.immediateLength f.op1)

/-- `GRP_RM` at `base` with the group's reg value `r` (R81). -/
def encodeGrpRm (base : Nat) (r : BitVec 3) (f : Fields) : List Byte :=
  opcode base :: encodeRm r f.op0 (f.byteLength - 2)

/-- `REL8` at `base` (R79, R80). -/
def encodeRel8 (base : Nat) (f : Fields) : List Byte := opcode base :: encodeRelative f.op0

/-- The formats of `Mov` told apart by the record (R78, R138). -/
def encodeMov (f : Fields) : List Byte :=
  if f.flags.imm then (if f.flags.rm then encodeGrpRmImm 0xC6 0 f else encodeRegImm f)
  else if f.flags.sr then encodeRmSreg f
  else if f.isAccMoffs then encodeAccMoffs f
  else encodeRmReg 0x88 f

/-- The formats of `Add`, `Sub`, `Cmp`: `base + 0` to `base + 5` and the groups 0x80 to 0x83 `/r` (R143). -/
def encodeArith (base : Nat) (r : BitVec 3) (f : Fields) : List Byte :=
  if f.flags.imm then (if f.flags.rm then encodeGrpRmImm 0x80 r f else encodeAccImm (base + 4) f)
  else encodeRmReg base f

/-- The formats of `Push` and `Pop` (R81). -/
def encodeStack (regBase segBase rmBase : Nat) (r : BitVec 3) (f : Fields) : List Byte :=
  if f.flags.reg then [opcode (regBase + (regNumber f.op0).toNat)]
  else if f.flags.sr then [opcode (segBase + 8 * (segNumber f.op0).toNat)]
  else encodeGrpRm rmBase r f

/-- The formats of `Xchg` (R82). -/
def encodeXchg (f : Fields) : List Byte :=
  if f.flags.d then encodeRmReg 0x84 f else [opcode (0x90 + (regNumber f.op1).toNat)]

/-- The formats of `In` and `Out` (R83). -/
def encodePort (immBase dxBase : Nat) (f : Fields) : List Byte :=
  if f.flags.imm8u then opcode (immBase + f.flags.w.toNat) :: encodeImmediate 1 f.rmOperand
  else [opcode (dxBase + f.flags.w.toNat)]

/-- The formats of `NotUsed`: many words give one record; the encoder takes the byte 0x0F, the group `80..83 /1` and
`FF /0` (R176, log 17). -/
def encodeNotUsed (f : Fields) : List Byte :=
  if f.flags.imm then encodeGrpRmImm 0x80 1 f
  else if f.flags.rm then encodeGrpRm 0xFF 0 f
  else [opcode 0x0F]

/-- The bytes of a well-formed record. -/
def encode : Instr → List Byte
  | .mov f => encodeMov f
  | .add f => encodeArith 0x00 0 f
  | .sub f => encodeArith 0x28 5 f
  | .cmp f => encodeArith 0x38 7 f
  | .jo f => encodeRel8 0x70 f
  | .jno f => encodeRel8 0x71 f
  | .jb f => encodeRel8 0x72 f
  | .jnb f => encodeRel8 0x73 f
  | .je f => encodeRel8 0x74 f
  | .jne f => encodeRel8 0x75 f
  | .jbe f => encodeRel8 0x76 f
  | .ja f => encodeRel8 0x77 f
  | .js f => encodeRel8 0x78 f
  | .jns f => encodeRel8 0x79 f
  | .jp f => encodeRel8 0x7A f
  | .jnp f => encodeRel8 0x7B f
  | .jl f => encodeRel8 0x7C f
  | .jnl f => encodeRel8 0x7D f
  | .jle f => encodeRel8 0x7E f
  | .jg f => encodeRel8 0x7F f
  | .loopnz f => encodeRel8 0xE0 f
  | .loopz f => encodeRel8 0xE1 f
  | .loop f => encodeRel8 0xE2 f
  | .jcxz f => encodeRel8 0xE3 f
  | .push f => encodeStack 0x50 0x06 0xFF 6 f
  | .pop f => encodeStack 0x58 0x07 0x8F 0 f
  | .xchg f => encodeXchg f
  | .inp f => encodePort 0xE4 0xEC f
  | .out f => encodePort 0xE6 0xEE f
  | .notUsed f => encodeNotUsed f

/-! ## Words numbered as the opcode table numbers them (R85) -/

/-- The longest instruction of the default table (R111). -/
def maxInstrBytes : Nat := 6

/-- The bytes of a table word. The table's words are 16-bit values with the first byte in bits 15-8 and the second in
bits 7-0 (R85), so byte `k` lies in word `k / 2`, its high half when `k` is even; a row of one byte only has it in
bits 7-0 (log 10). Bits above `nbits` are zero. -/
def tableWordBytes (nbits w : Nat) : List Byte :=
  let v := w % 2 ^ nbits
  let byteAt (k : Nat) : Byte := BitVec.ofNat 8 (v >>> (16 * (k / 2) + (if k % 2 = 0 then 8 else 0)))
  if nbits ≤ 8 then [BitVec.ofNat 8 v, 0, 0, 0, 0, 0]
  else [byteAt 0, byteAt 1, byteAt 2, byteAt 3, byteAt 4, byteAt 5]

/-- The instruction the decoder reads from a table word. -/
def decodeTableWord (nbits w : Nat) : Option Instr :=
  match decode encTabDefault Config.truncPolicy (listSource (tableWordBytes nbits w)) 0 with
  | .instr i _ => some i
  | .endOfStream => none
  | .truncatedField => none

end Sys2Proof
end

