-- ==== Sys2Proof/Machine/State.lean ====
section
/-! DEFINITION. The CPU State (R13), the Byte Source it fetches from (R25), the reasons a step can stop (R180), and the
state after reset (R33, R201). Plain data. -/

namespace Sys2Proof.Machine

open Sys2Proof

/-- The error responses of R180. Each ends the run and leaves the state as it was before the transaction (R185, R188):
the state a run ends in is the one the stopping step started from (log 7). -/
inductive Fault where
  /-- Raised by the decode of a step whose opcode byte lies at or past the end of the Byte Source: the normal end of a
  run (R42, R181). Safe: the spec's own response. -/
  | endOfStream
  /-- Raised by the decode of a step when a later field is not wholly there, under `TRUNC_POLICY = Error` (R41, R182).
  Safe: the spec's default; a core with `ZeroPad` would go on (log 2). -/
  | truncatedField
  /-- Raised by the 25 kinds that the core decodes and does not execute, with the kind (R128, R183). Safe: the spec's own
  response. -/
  | unsupportedInstruction (kind : Kind)
  /-- Raised by an executed kind given an operand it has no meaning for (R129, R186). Safe: the spec's own response. -/
  | unsupportedOperand
  deriving DecidableEq, Repr

/-- Why the model gives no meaning. No arm and no step of the finished model raises it. -/
inductive Refusal where
  /-- Raised by an arm of `exec` whose instruction has no meaning yet. Safe. -/
  | notModelled (mnemonic : String)
  deriving DecidableEq, Repr

/-- The eight general register cells, `reg16[A]` to `reg16[DI]` (R14). One cell per register: the 8-bit views are
computed by `Registers.read` and `Registers.write` (R15). -/
structure Registers where
  a : Word
  b : Word
  c : Word
  d : Word
  sp : Word
  bp : Word
  si : Word
  di : Word
  deriving DecidableEq, Repr

/-- The Byte Source as cells `(address, byte)`: `MEM[0..N-1]` at the addresses 0 to N-1, and no value at any other
address (R25, R35, R43, log 8). -/
abbrev Memory := List Host.Cell

/-- The machine state: the CPU State of R13, the Byte Source (R25), and the model's counter of drawn values. -/
structure State where
  /-- The general registers (R14). -/
  regs : Registers
  /-- The zero flag (R21). -/
  zf : Bool
  /-- The sign flag (R21). -/
  sf : Bool
  /-- The instruction pointer (R19). -/
  ip : Addr
  /-- The Byte Source (R25). -/
  mem : Memory
  /-- The number of values `Draw16()` has given so far: the model's own field, not the spec's (log 5). -/
  draws : Nat
  deriving DecidableEq, Repr

/-- All eight cells at `RESET_REG` (R33). DESIGN CHOICE of the spec (D5), log 4. -/
def Registers.reset : Registers :=
  { a := Config.resetReg, b := Config.resetReg, c := Config.resetReg, d := Config.resetReg,
    sp := Config.resetReg, bp := Config.resetReg, si := Config.resetReg, di := Config.resetReg }

/-- The machine right after reset with nothing loaded (R33, R201). A program is loaded from outside (R203, log 9). -/
def State.reset : State :=
  { regs := Registers.reset, zf := Config.resetFlag, sf := Config.resetFlag, ip := Config.resetIp,
    mem := [], draws := 0 }

end Sys2Proof.Machine
end

