-- ==== Sys2Proof/Machine/Ops.lean ====
section
/-! DEFINITION. The named operations over registers, the Byte Source, the instruction pointer and the drawn values, and
the error response. -/

namespace Sys2Proof.Machine

open Sys2Proof

/-! ## Registers (R14 to R17) -/

/-- `reg16[r]` (R11). -/
def Registers.get (r : Registers) : GenReg → Word
  | .a => r.a
  | .b => r.b
  | .c => r.c
  | .d => r.d
  | .sp => r.sp
  | .bp => r.bp
  | .si => r.si
  | .di => r.di

/-- `reg16[r] <- v` (R11). -/
def Registers.set (r : Registers) (cell : GenReg) (v : Word) : Registers :=
  match cell with
  | .a => { r with a := v }
  | .b => { r with b := v }
  | .c => { r with c := v }
  | .d => { r with d := v }
  | .sp => { r with sp := v }
  | .bp => { r with bp := v }
  | .si => { r with si := v }
  | .di => { r with di := v }

/-- What a view of a cell reads: the 8-bit views zero-extended (R16; the spec's D8, log 13). Total on every pair of
cell and portion (R132, log 14). -/
def viewRead (portion : Portion) (v : Word) : Word :=
  match portion with
  | .full16 => v
  | .low8 => zext8 (loByte v)
  | .high8 => zext8 (hiByte v)

/-- What a cell holds after a write through a view: the low 8 bits of `v` in the half, the other half kept (R15, R17). -/
def viewWrite (portion : Portion) (old v : Word) : Word :=
  match portion with
  | .full16 => v
  | .low8 => hiByte old ++ loByte v
  | .high8 => loByte v ++ loByte old

/-- `RegRead(cell, portion)` (R16). -/
def Registers.read (r : Registers) (cell : GenReg) (portion : Portion) : Word :=
  viewRead portion (r.get cell)

/-- `RegWrite(cell, portion, v)` (R17). -/
def Registers.write (r : Registers) (cell : GenReg) (portion : Portion) (v : Word) : Registers :=
  r.set cell (viewWrite portion (r.get cell) v)

/-! ## The Byte Source (R35, R36, R43) -/

/-- `N`, the number of loaded bytes (R35). -/
def Memory.size (m : Memory) : Nat := m.length

/-- `MEM[a]`; no value at an unlisted address (R43, log 8). -/
def Memory.byte? : Memory → Nat → Option Byte
  | [], _ => none
  | (k, b) :: rest, a => if k = a then some b else Memory.byte? rest a

/-- `ReadBytes(address, count)`: clamped at the first address that holds nothing (R35). -/
def Memory.readBytes (m : Memory) (a count : Nat) : List Byte :=
  match count with
  | 0 => []
  | n + 1 =>
    match m.byte? a with
    | none => []
    | some b => b :: Memory.readBytes m (a + 1) n

/-- Cells at consecutive addresses from `a` on. -/
def Memory.cellsFrom : Nat → List Byte → Memory
  | _, [] => []
  | a, b :: rest => (a, b) :: Memory.cellsFrom (a + 1) rest

/-- The Byte Source of a loaded file: its bytes from address 0, at most `2^IPW` of them (R36, R203). -/
def Memory.ofBytes (bs : List Byte) : Memory := Memory.cellsFrom 0 (bs.take Config.addressSpace)

/-- The loaded bytes in address order. -/
def Memory.bytes (m : Memory) : List Byte := m.map Prod.snd

/-- A load of `bs` at address `a` over the present contents; a gap below `a` is filled with 0x00, since the Byte Source
has no holes, and what would lie at or above `2^IPW` is left out (R36, log 9). -/
def Memory.overlay (m : Memory) (a : Nat) (bs : List Byte) : Memory :=
  let old := m.bytes
  Memory.ofBytes (old.take a ++ List.replicate (a - old.length) 0 ++ bs ++ old.drop (a + bs.length))

/-- Consecutive addresses from `a` on. -/
def Memory.consecutiveFrom : Nat → Memory → Bool
  | _, [] => true
  | a, (k, _) :: rest => k == a && Memory.consecutiveFrom (a + 1) rest

/-- The canonical form: the listed addresses are 0, 1, ..., N-1, so strictly rising and without holes, and
`N <= 2^IPW` (R25, R36). An unlisted address has no value, so no entry equals what an unlisted address reads as. -/
def Memory.wf (m : Memory) : Bool := Memory.consecutiveFrom 0 m && m.length ≤ Config.addressSpace

/-! ## The instruction pointer and drawn values -/

/-- `ip <- ip +IPW byteLength` (R20, R127). -/
def State.advance (s : State) (byteLength : Nat) : State :=
  { s with ip := s.ip + BitVec.ofNat 16 byteLength }

/-- `ip <- ip +IPW toU16(offset)` (R20, R148). -/
def State.jumpBy (s : State) (offset : Word) : State := { s with ip := s.ip + offset }

/-- `Draw16()`: the next free value (R11, R123, log 5). -/
def State.draw (s : State) : Word × State :=
  (Config.freeWord s.draws, { s with draws := s.draws + 1 })

/-! ## Error responses (R180, R188) -/

/-- `raise E`: the response goes to the driver, which ends the run; no state is saved, no handler runs, there is no
return, and the CPU State stays as before the transaction (R11, R185, R188, R189). -/
def raise (e : Fault) : Host.Outcome State Fault Refusal := .fault e

/-- `UnsupportedInstruction(kind)`, whatever the state (R128, R183). -/
def unsupported (k : Kind) (_ : State) : Host.Outcome State Fault Refusal := raise (.unsupportedInstruction k)

/-- The decode transaction of a step: at `ip`, used directly as the Byte Source address (R37, R205). -/
def fetch (s : State) : Decoded := decode encTabDefault Config.truncPolicy s.mem.readBytes s.ip.toNat

end Sys2Proof.Machine
end

