-- ==== Sys2Proof/Machine/Flags.lean ====
section
/-! DEFINITION. The flag rule (R126). -/

namespace Sys2Proof.Machine

open Sys2Proof

/-- `ZF <- (r = 0x0000)` (R126). -/
def zeroOf (r : Word) : Bool := r == 0

/-- `SF <- (r[15] = 1)` (R126). -/
def signOf (r : Word) : Bool := r.msb

/-- Both flags from the 16-bit result, before any truncation to an 8-bit destination (R126, R130). -/
def State.setFlags (s : State) (r : Word) : State := { s with zf := zeroOf r, sf := signOf r }

end Sys2Proof.Machine
end

