-- ==== Sys2Proof/Machine/Operands.lean ====
section
/-! DEFINITION. The operand accessors `ReadOp` and `WriteOp` (R123, R124); `none` is the response
`UnsupportedOperand`. A raise discards the whole transaction, so that the checks of R121 step 2 come before every
write whatever the order they are made in (log 16). -/

namespace Sys2Proof.Machine

open Sys2Proof

/-- `ReadOp(operand)` under a memory read policy: the value and the state after the read, which differs in a drawn
value only (R123). No base or index register is read and no address is formed (R46). -/
def readOp (pol : MemReadPolicy) (o : Operand) (s : State) : Option (Word × State) :=
  match o with
  | .register (.general cell) portion => some (s.regs.read cell portion, s)
  | .register (.segment _) _ => none
  | .immediate v => some (v, s)
  | .memory _ _ =>
    match pol with
    | .draw => some s.draw
    | .fault => none
  | .relative _ => none
  | .none => none

/-- `WriteOp(operand, v)`: a memory destination is accepted and not written (R124). -/
def writeOp (o : Operand) (v : Word) (s : State) : Option State :=
  match o with
  | .register (.general cell) portion => some { s with regs := s.regs.write cell portion v }
  | .register (.segment _) _ => none
  | .memory _ _ => some s
  | .immediate _ => none
  | .relative _ => none
  | .none => none

end Sys2Proof.Machine
end

