-- ==== Sys2Proof/Machine/Arithmetic.lean ====
section
/-! DEFINITION. Add, subtract, compare (R140 to R142), on 16 bits whatever the operands' views (R125, R130). -/

namespace Sys2Proof.Machine

open Sys2Proof

/-- `+16` (R10, R125). -/
def add16 (a b : Word) : Word := a + b

/-- `-16` (R10, R125). -/
def sub16 (a b : Word) : Word := a - b

/-- The two source values, slot 0 first (R121 step 3, R133). -/
def readBoth (pol : MemReadPolicy) (f : Fields) (s : State) : Option (Word × Word × State) :=
  match readOp pol f.op0 s with
  | none => none
  | some (a, s₁) =>
    match readOp pol f.op1 s₁ with
    | none => none
    | some (b, s₂) => some (a, b, s₂)

/-- The common form of `Add` and `Sub` (R140, R141): read both, compute, write slot 0, write both flags, advance. -/
def arithUnder (alu : Word → Word → Word) (pol : MemReadPolicy) (f : Fields) (s : State) :
    Host.Outcome State Fault Refusal :=
  match readBoth pol f s with
  | none => raise .unsupportedOperand
  | some (a, b, s₁) =>
    match writeOp f.op0 (alu a b) s₁ with
    | none => raise .unsupportedOperand
    | some s₂ => .next ((s₂.setFlags (alu a b)).advance f.byteLength)

/-- `Execute(Add)` under a memory read policy (R140). -/
def addUnder : MemReadPolicy → Fields → State → Host.Outcome State Fault Refusal := arithUnder add16

/-- `Execute(Sub)` under a memory read policy (R141). -/
def subUnder : MemReadPolicy → Fields → State → Host.Outcome State Fault Refusal := arithUnder sub16

/-- `Execute(Cmp)` under a memory read policy (R142): the result is discarded, and slot 0 need not be writable. -/
def cmpUnder (pol : MemReadPolicy) (f : Fields) (s : State) : Host.Outcome State Fault Refusal :=
  match readBoth pol f s with
  | none => raise .unsupportedOperand
  | some (a, b, s₁) => .next ((s₁.setFlags (sub16 a b)).advance f.byteLength)

/-- `Add` (R140). -/
def execAdd (f : Fields) (s : State) : Host.Outcome State Fault Refusal := addUnder Config.memReadPolicy f s

/-- `Sub` (R141). -/
def execSub (f : Fields) (s : State) : Host.Outcome State Fault Refusal := subUnder Config.memReadPolicy f s

/-- `Cmp` (R142). -/
def execCmp (f : Fields) (s : State) : Host.Outcome State Fault Refusal := cmpUnder Config.memReadPolicy f s

end Sys2Proof.Machine
end

