-- ==== Sys2Proof/Machine/Branches.lean ====
section
/-! DEFINITION. Relative branches (R147 to R170): `Jne` is executed; the other 19 kinds are decoded only and raise
`UnsupportedInstruction`, whatever their 8086 meaning (R170). -/

namespace Sys2Proof.Machine

open Sys2Proof

/-- `Jne` (R154): the offset is added to the already advanced pointer when the zero flag is clear. Slot 1 is ignored. -/
def execJne (f : Fields) (s : State) : Host.Outcome State Fault Refusal :=
  match f.op0 with
  | .relative off =>
    let next := s.advance f.byteLength
    .next (if s.zf then next else next.jumpBy off)
  | .none | .register _ _ | .memory _ _ | .immediate _ => raise .unsupportedOperand

/-- `Execute(Jo): raise UnsupportedInstruction` (R149, R128). -/
def execJo (_ : Fields) (s : State) : Host.Outcome State Fault Refusal := unsupported .jo s

/-- `Execute(Jno): raise UnsupportedInstruction` (R150, R128). -/
def execJno (_ : Fields) (s : State) : Host.Outcome State Fault Refusal := unsupported .jno s

/-- `Execute(Jb): raise UnsupportedInstruction` (R151, R128). -/
def execJb (_ : Fields) (s : State) : Host.Outcome State Fault Refusal := unsupported .jb s

/-- `Execute(Jnb): raise UnsupportedInstruction` (R152, R128). -/
def execJnb (_ : Fields) (s : State) : Host.Outcome State Fault Refusal := unsupported .jnb s

/-- `Execute(Je): raise UnsupportedInstruction` (R153, R128). -/
def execJe (_ : Fields) (s : State) : Host.Outcome State Fault Refusal := unsupported .je s

/-- `Execute(Jbe): raise UnsupportedInstruction` (R155, R128). -/
def execJbe (_ : Fields) (s : State) : Host.Outcome State Fault Refusal := unsupported .jbe s

/-- `Execute(Ja): raise UnsupportedInstruction` (R156, R128). -/
def execJa (_ : Fields) (s : State) : Host.Outcome State Fault Refusal := unsupported .ja s

/-- `Execute(Js): raise UnsupportedInstruction` (R157, R128). -/
def execJs (_ : Fields) (s : State) : Host.Outcome State Fault Refusal := unsupported .js s

/-- `Execute(Jns): raise UnsupportedInstruction` (R158, R128). -/
def execJns (_ : Fields) (s : State) : Host.Outcome State Fault Refusal := unsupported .jns s

/-- `Execute(Jp): raise UnsupportedInstruction` (R159, R128). -/
def execJp (_ : Fields) (s : State) : Host.Outcome State Fault Refusal := unsupported .jp s

/-- `Execute(Jnp): raise UnsupportedInstruction` (R160, R128). -/
def execJnp (_ : Fields) (s : State) : Host.Outcome State Fault Refusal := unsupported .jnp s

/-- `Execute(Jl): raise UnsupportedInstruction` (R161, R128). -/
def execJl (_ : Fields) (s : State) : Host.Outcome State Fault Refusal := unsupported .jl s

/-- `Execute(Jnl): raise UnsupportedInstruction` (R162, R128). -/
def execJnl (_ : Fields) (s : State) : Host.Outcome State Fault Refusal := unsupported .jnl s

/-- `Execute(Jle): raise UnsupportedInstruction` (R163, R128). -/
def execJle (_ : Fields) (s : State) : Host.Outcome State Fault Refusal := unsupported .jle s

/-- `Execute(Jg): raise UnsupportedInstruction` (R164, R128). -/
def execJg (_ : Fields) (s : State) : Host.Outcome State Fault Refusal := unsupported .jg s

/-- `Execute(Loopnz): raise UnsupportedInstruction` (R165, R128). -/
def execLoopnz (_ : Fields) (s : State) : Host.Outcome State Fault Refusal := unsupported .loopnz s

/-- `Execute(Loopz): raise UnsupportedInstruction` (R166, R128). -/
def execLoopz (_ : Fields) (s : State) : Host.Outcome State Fault Refusal := unsupported .loopz s

/-- `Execute(Loop): raise UnsupportedInstruction` (R167, R128). -/
def execLoop (_ : Fields) (s : State) : Host.Outcome State Fault Refusal := unsupported .loop s

/-- `Execute(Jcxz): raise UnsupportedInstruction` (R168, R128). -/
def execJcxz (_ : Fields) (s : State) : Host.Outcome State Fault Refusal := unsupported .jcxz s

end Sys2Proof.Machine
end

