-- ==== Sys2Proof/Machine/Move.lean ====
section
/-! DEFINITION. Move (R137). -/

namespace Sys2Proof.Machine

open Sys2Proof

/-- `Execute(Mov)` under a memory read policy (R137): no flag is written. -/
def movUnder (pol : MemReadPolicy) (f : Fields) (s : State) : Host.Outcome State Fault Refusal :=
  match readOp pol f.op1 s with
  | none => raise .unsupportedOperand
  | some (v, s₁) =>
    match writeOp f.op0 v s₁ with
    | none => raise .unsupportedOperand
    | some s₂ => .next (s₂.advance f.byteLength)

/-- `Mov` (R137). -/
def execMov (f : Fields) (s : State) : Host.Outcome State Fault Refusal := movUnder Config.memReadPolicy f s

end Sys2Proof.Machine
end

