-- ==== Sys2Proof/Machine/StackExchangeIo.lean ====
section
/-! DEFINITION. Push, pop, exchange, input, output, not-used (R171 to R178): decoded, never executed. "The only
conforming behaviour of `Execute` on these kinds is the `UnsupportedInstruction` response with state unchanged" (R178). -/

namespace Sys2Proof.Machine

open Sys2Proof

/-- `Execute(Push): raise UnsupportedInstruction` (R171, R128). -/
def execPush (_ : Fields) (s : State) : Host.Outcome State Fault Refusal := unsupported .push s

/-- `Execute(Pop): raise UnsupportedInstruction` (R172, R128). -/
def execPop (_ : Fields) (s : State) : Host.Outcome State Fault Refusal := unsupported .pop s

/-- `Execute(Xchg): raise UnsupportedInstruction` (R173, R128). -/
def execXchg (_ : Fields) (s : State) : Host.Outcome State Fault Refusal := unsupported .xchg s

/-- `Execute(In): raise UnsupportedInstruction` (R174, R128). -/
def execIn (_ : Fields) (s : State) : Host.Outcome State Fault Refusal := unsupported .inp s

/-- `Execute(Out): raise UnsupportedInstruction` (R175, R128). -/
def execOut (_ : Fields) (s : State) : Host.Outcome State Fault Refusal := unsupported .out s

/-- `Execute(NotUsed): raise UnsupportedInstruction` (R176, R128). -/
def execNotUsed (_ : Fields) (s : State) : Host.Outcome State Fault Refusal := unsupported .notUsed s

end Sys2Proof.Machine
end

