-- ==== Sys2Proof/Machine/Dispatch.lean ====
section
/-! DEFINITION. Dispatch on the instruction kind, IF-EXE (R119, R120). -/

namespace Sys2Proof.Machine

open Sys2Proof

def exec (i : Instr) (s : State) : Host.Outcome State Fault Refusal :=
  match i with
  | .mov f => Sys2Proof.Machine.execMov f s
  | .add f => Sys2Proof.Machine.execAdd f s
  | .sub f => Sys2Proof.Machine.execSub f s
  | .cmp f => Sys2Proof.Machine.execCmp f s
  | .jo f => Sys2Proof.Machine.execJo f s
  | .jno f => Sys2Proof.Machine.execJno f s
  | .jb f => Sys2Proof.Machine.execJb f s
  | .jnb f => Sys2Proof.Machine.execJnb f s
  | .je f => Sys2Proof.Machine.execJe f s
  | .jne f => Sys2Proof.Machine.execJne f s
  | .jbe f => Sys2Proof.Machine.execJbe f s
  | .ja f => Sys2Proof.Machine.execJa f s
  | .js f => Sys2Proof.Machine.execJs f s
  | .jns f => Sys2Proof.Machine.execJns f s
  | .jp f => Sys2Proof.Machine.execJp f s
  | .jnp f => Sys2Proof.Machine.execJnp f s
  | .jl f => Sys2Proof.Machine.execJl f s
  | .jnl f => Sys2Proof.Machine.execJnl f s
  | .jle f => Sys2Proof.Machine.execJle f s
  | .jg f => Sys2Proof.Machine.execJg f s
  | .loopnz f => Sys2Proof.Machine.execLoopnz f s
  | .loopz f => Sys2Proof.Machine.execLoopz f s
  | .loop f => Sys2Proof.Machine.execLoop f s
  | .jcxz f => Sys2Proof.Machine.execJcxz f s
  | .push f => Sys2Proof.Machine.execPush f s
  | .pop f => Sys2Proof.Machine.execPop f s
  | .xchg f => Sys2Proof.Machine.execXchg f s
  | .inp f => Sys2Proof.Machine.execIn f s
  | .out f => Sys2Proof.Machine.execOut f s
  | .notUsed f => Sys2Proof.Machine.execNotUsed f s

end Sys2Proof.Machine
end

