-- ==== Sys2Proof/Machine/Step.lean ====
section
/-! DEFINITION. One step: one iteration of the loop of `RunExecute` (R205), and the load of one instruction where the
next step fetches. -/

namespace Sys2Proof.Machine

open Sys2Proof

/-- Decode at `ip`, then execute the record; a failed decode ends the run (R205, R206). `exec` itself advances `ip`. -/
def step (s : State) : Host.Outcome State Fault Refusal :=
  match fetch s with
  | .instr i _ => exec i s
  | .endOfStream => raise .endOfStream
  | .truncatedField => raise .truncatedField

/-- `s` with the instruction of a table word loaded into the Byte Source at `ip`, where `step` fetches next; a load from
outside the machine (R203, log 9). -/
def State.withFetchWord (s : State) (nbits w : Nat) : State :=
  { s with mem := s.mem.overlay s.ip.toNat (tableWordBytes nbits w) }

end Sys2Proof.Machine
end

