-- ==== Sys2Proof/Machine/Run.lean ====
section
/-! DEFINITION. The two run kinds (R205, R207), a loaded program's first state (R203), and the machine under every
Encoding Table and policy (R8). -/

namespace Sys2Proof.Machine

open Sys2Proof

/-- The reset state of a run on the bytes of a loaded file (R200, R203, R205). -/
def State.boot (bs : List Byte) : State := { State.reset with mem := Memory.ofBytes bs }

/-- How a bounded run ended: a response, a refusal of the model, or the model's own `OutOfFuel` (R205, R209). -/
inductive RunEnd where
  | fault (e : Fault)
  | refused (r : Refusal)
  | outOfFuel
  deriving DecidableEq, Repr

/-- `RunExecute` for a given step, bounded by fuel (R205): the state at the moment of the end, and the end. -/
def runWith (stp : State → Host.Outcome State Fault Refusal) : Nat → State → State × RunEnd
  | 0, s => (s, .outOfFuel)
  | fuel + 1, s =>
    match stp s with
    | .next t => runWith stp fuel t
    | .fault e => (s, .fault e)
    | .refused r => (s, .refused r)

/-- `RunExecute` of the machine, from a state with the program loaded (R205). -/
def runExecute (fuel : Nat) (s : State) : State × RunEnd := runWith step fuel s

/-- How a listing ended (R205). -/
inductive ListingEnd where
  | endOfStream
  | truncatedField
  | outOfFuel
  deriving DecidableEq, Repr

/-- `RunDisassemble` for every table and truncation policy (R116, R205, R207): the offset is an unbounded natural. -/
def runDisassembleUnder (tab : EncodingTable) (trunc : TruncPolicy) (m : Memory) :
    Nat → Nat → List (Nat × Instr) × ListingEnd
  | 0, _ => ([], .outOfFuel)
  | fuel + 1, off =>
    match decode tab trunc m.readBytes off with
    | .endOfStream => ([], .endOfStream)
    | .truncatedField => ([], .truncatedField)
    | .instr i _ =>
      let (rest, e) := runDisassembleUnder tab trunc m fuel (off + i.fields.byteLength)
      ((off, i) :: rest, e)

/-- `RunDisassemble` of the machine: from offset 0, with as much fuel as the run can use (R207). -/
def runDisassemble (m : Memory) : List (Nat × Instr) × ListingEnd :=
  runDisassembleUnder encTabDefault Config.truncPolicy m (m.size + 1) 0

/-- `Execute` under a memory read policy (R120, R121): the kind check first. -/
def executeUnder (pol : MemReadPolicy) (i : Instr) (s : State) : Host.Outcome State Fault Refusal :=
  match i with
  | .mov f => movUnder pol f s
  | .add f => addUnder pol f s
  | .sub f => subUnder pol f s
  | .cmp f => cmpUnder pol f s
  | .jne f => execJne f s
  | i => unsupported i.kind s

/-- One step under every Encoding Table, truncation policy and memory read policy (R8, R205). -/
def stepUnder (tab : EncodingTable) (trunc : TruncPolicy) (pol : MemReadPolicy) (s : State) :
    Host.Outcome State Fault Refusal :=
  match decode tab trunc s.mem.readBytes s.ip.toNat with
  | .instr i _ => executeUnder pol i s
  | .endOfStream => raise .endOfStream
  | .truncatedField => raise .truncatedField

end Sys2Proof.Machine
end

