-- ==== Sys2Proof/Safety.lean ====
section
/-! DEFINITION. What statements mean by a good state and a good run. -/

namespace Sys2Proof.Machine

open Sys2Proof

/-- The states of a run: the Byte Source has its canonical form, the bytes 0 to N-1 with `N <= 2^IPW` (R25, R36). -/
def State.Inv (s : State) : Prop := s.mem.wf = true

/-- A run that never stops but at the end of its Byte Source, its only normal end (R181). -/
def Safe (s : State) : Prop :=
  ∀ fuel, (runExecute fuel s).2 = .outOfFuel ∨ (runExecute fuel s).2 = .fault .endOfStream

end Sys2Proof.Machine
end

