-- ==== Sys2Proof/Certificates/Slice0/Obligations.lean ====
section
/-! DEFINITION. The statements for the provers, and the words of the spec they are written in. -/

namespace Sys2Proof.Claims

open Sys2Proof Sys2Proof.Machine

/-- The operands that `ReadOp` has a value for under `Draw` (R123). -/
def isValue : Operand → Bool
  | .register (.general _) _ | .immediate _ | .memory _ _ => true
  | .register (.segment _) _ | .relative _ | .none => false

/-- The operands that `WriteOp` accepts (R124). -/
def isDestination : Operand → Bool
  | .register (.general _) _ | .memory _ _ => true
  | .register (.segment _) _ | .immediate _ | .relative _ | .none => false

def isMemory : Operand → Bool
  | .memory _ _ => true
  | .register _ _ | .immediate _ | .relative _ | .none => false

/-- Two register operands of different widths: one full, the other a half. -/
def widthsDiffer : Operand → Operand → Bool
  | .register _ p, .register _ q => (p == .full16) != (q == .full16)
  | _, _ => false

/-- How many drawn values reading an operand takes. -/
def drawsOf (o : Operand) : Nat := if isMemory o then 1 else 0

/-- The value of an operand by the formulas of R16 and R123, a memory operand's being the drawn one. -/
def valueOf (r : Registers) (drawn : Word) : Operand → Word
  | .register (.general cell) .full16 => r.get cell
  | .register (.general cell) .low8 => r.get cell &&& 0x00FF
  | .register (.general cell) .high8 => r.get cell >>> 8
  | .immediate v => v
  | .memory _ _ => drawn
  | .register (.segment _) _ | .relative _ | .none => 0

/-- The registers after a write to an operand by the formulas of R17 and R124. -/
def stored (r : Registers) (v : Word) : Operand → Registers
  | .register (.general cell) .full16 => r.set cell v
  | .register (.general cell) .low8 => r.set cell ((r.get cell &&& 0xFF00) ||| (v &&& 0x00FF))
  | .register (.general cell) .high8 => r.set cell ((r.get cell &&& 0x00FF) ||| ((v &&& 0x00FF) <<< 8))
  | .memory _ _ | .immediate _ | .register (.segment _) _ | .relative _ | .none => r

/-- The value of slot 0 when it is read first. -/
def left (f : Fields) (s : State) : Word := valueOf s.regs (Config.freeWord s.draws) f.op0

/-- The value of slot 1 when slot 0 has been read before it. -/
def right (f : Fields) (s : State) : Word :=
  valueOf s.regs (Config.freeWord (s.draws + drawsOf f.op0)) f.op1

/-- The exact sum or difference of R125, narrowed to 16 bits at the end. -/
def wrapped (v : Int) : Word := BitVec.ofInt 16 v

/-- `ip +IPW byteLength` by exact arithmetic. -/
def ipAfter (f : Fields) (s : State) : Addr := BitVec.ofNat 16 ((s.ip.toNat + f.byteLength) % 2 ^ 16)

/-- The five executed kinds (R120). -/
def executed : Kind → Bool
  | .mov | .add | .sub | .cmp | .jne => true
  | _ => false

/-- The kinds that write the flags (R22). -/
def writesFlags : Kind → Bool
  | .add | .sub | .cmp => true
  | _ => false

/-- The kinds that write their destination operand (R137, R140, R141). -/
def writesDestination : Kind → Bool
  | .mov | .add | .sub => true
  | _ => false

/-- An operand that `ReadOp` raises on under a policy (R186). -/
def unreadable (pol : MemReadPolicy) (o : Operand) : Bool := !isValue o || (pol == .fault && isMemory o)

/-- The table of R186: the operand shapes each executed kind raises on. -/
def raisesOperand (pol : MemReadPolicy) : Instr → Bool
  | .mov f => !isDestination f.op0 || unreadable pol f.op1
  | .add f | .sub f => !isDestination f.op0 || unreadable pol f.op0 || unreadable pol f.op1
  | .cmp f => unreadable pol f.op0 || unreadable pol f.op1
  | .jne f => (match f.op0 with | .relative _ => false | _ => true)
  | _ => false

/-- An operand that an immediate or branch displacement gives. -/
def isConstant : Operand → Bool
  | .immediate _ | .relative _ => true
  | .register _ _ | .memory _ _ | .none => false

/-- A record with other fields. -/
def withFields (i : Instr) (g : Fields → Fields) : Instr := i.kind.record (g i.fields)

/-- An operand with another addressing mode and displacement, if it is a memory operand. -/
def readdressed (mode : AddressingMode) (disp : Word) : Operand → Operand
  | .memory _ _ => .memory mode disp
  | o => o

/-- An execution that reads no memory operand (R132). -/
def readsNoMemory (i : Instr) : Bool :=
  match i with
  | .mov f => !isMemory f.op1
  | .add f | .sub f | .cmp f => !isMemory f.op0 && !isMemory f.op1
  | _ => true

/-- An outcome with its next state changed. -/
def mapNext (g : State → State) : Host.Outcome State Fault Refusal → Host.Outcome State Fault Refusal
  | .next t => .next (g t)
  | .fault e => .fault e
  | .refused r => .refused r

/-- Some bytes lie at an offset of a byte source. -/
def holdsAt (src : ByteSource) (offset : Nat) (bs : List Byte) : Prop :=
  ∀ k count, k < bs.length → (src (offset + k) count).take (bs.length - k) = (bs.drop k).take count

/-- Two responses with the same outcome, fields and length, whatever the kind. -/
def sameFields : Decoded → Decoded → Prop
  | .instr i n, .instr j m => i.fields = j.fields ∧ n = m
  | .endOfStream, .endOfStream => True
  | .truncatedField, .truncatedField => True
  | _, _ => False

/-- Reads that follow each other without gap or overlap from an address on. -/
def contiguousFrom : Nat → List (Nat × Nat) → Prop
  | _, [] => True
  | a, (b, count) :: rest => a = b ∧ 1 ≤ count ∧ count ≤ 2 ∧ contiguousFrom (b + count) rest

/-- Offsets that advance by the byte length of the record before, from an offset on (R116). -/
def advancesFrom : Nat → List (Nat × Instr) → Prop
  | _, [] => True
  | off, (o, i) :: rest => o = off ∧ advancesFrom (off + i.fields.byteLength) rest

/-- The offset at which a listing that starts at an offset decodes last: past its last record (R116). -/
def offsetAfter : Nat → List (Nat × Instr) → Nat
  | off, [] => off
  | off, (_, i) :: rest => offsetAfter (off + i.fields.byteLength) rest

/-- The response that a listing ends with, as the decoder's own response (R205); `none` for the model's `OutOfFuel`. -/
def responseOf : ListingEnd → Option Decoded
  | .endOfStream => some .endOfStream
  | .truncatedField => some .truncatedField
  | .outOfFuel => none

end Sys2Proof.Claims

open Sys2Proof Sys2Proof.Machine Sys2Proof.Claims

/-! ## Reset and the Byte Source -/

/-- R33, R201: the values after reset; the spec's own decision D5 (log 4). Nothing is loaded (log 9). -/
def Obligations.ResetLeavesZeroRegistersFlagsAndPointer : Prop :=
  (∀ cell, State.reset.regs.get cell = 0x0000) ∧ State.reset.zf = false ∧ State.reset.sf = false ∧
    State.reset.ip = 0 ∧ State.reset.mem = [] ∧
    ∀ bs, (State.boot bs).regs = State.reset.regs ∧ (State.boot bs).zf = false ∧ (State.boot bs).sf = false ∧
      (State.boot bs).ip = 0

/-- R25, R36: a Byte Source is the bytes 0 to N-1, at reset and after every load (log 8, log 9). -/
def Obligations.LoadedStatesHaveCanonicalByteSource : Prop :=
  State.reset.Inv ∧ (∀ bs, (State.boot bs).Inv) ∧ ∀ s nbits w, (State.withFetchWord s nbits w).Inv

/-- Every step keeps the canonical form of the Byte Source, and every read of it (R25, R51). -/
def Obligations.StepKeepsByteSourceCanonical : Prop :=
  ∀ s t : State, s.Inv → step s = .next t →
    t.Inv ∧ ∀ a count, t.mem.readBytes a count = s.mem.readBytes a count

/-- R51: a fetch gives the loaded byte at every point of a run. -/
def Obligations.RunFetchesLoadedBytesThroughout : Prop :=
  ∀ (fuel : Nat) (s : State), let t := (runExecute fuel s).1
    (∀ a, t.mem.byte? a = s.mem.byte? a) ∧ (∀ a count, t.mem.readBytes a count = s.mem.readBytes a count) ∧
      ∀ tab pol offset, decode tab pol t.mem.readBytes offset = decode tab pol s.mem.readBytes offset

/-- R35: reads are clamped at the end and never fail. -/
def Obligations.ReadBytesClampsAtTheEnd : Prop :=
  ∀ (m : Memory) (a count : Nat), m.wf = true →
    (m.size ≤ a → m.readBytes a count = []) ∧
    (a < m.size → (m.readBytes a count).length = min count (m.size - a) ∧
      ∀ k, k < min count (m.size - a) → (m.readBytes a count)[k]? = m.byte? (a + k)) ∧
    (∀ k, (m.byte? k).isSome = true ↔ k < m.size)

/-- R36, R203: a loaded file of at most 2^16 bytes reads back byte by byte, and nothing else does. -/
def Obligations.LoadedFileReadsBack : Prop :=
  ∀ bs : List Byte, bs.length ≤ 65536 →
    (Memory.ofBytes bs).size = bs.length ∧ ∀ a, (Memory.ofBytes bs).byte? a = bs[a]?

/-! ## Registers -/

/-- R15, R16, R17: the three views of a cell are one storage location, a write touches its own view of its own cell only,
and a half reads back the low 8 bits written to it. The zero extension of a half and the low 8 bits are the spec's D8
(log 13); that SP, BP, SI and DI, which have no halves (R14), compute alike is the model's (log 14). -/
def Obligations.RegisterViewsAliasOneCell : Prop :=
  ∀ (r : Registers) (cell : GenReg) (v : Word),
    r.get cell = (r.read cell .high8 <<< 8) ||| r.read cell .low8 ∧
    r.read cell .full16 = r.get cell ∧
    (r.write cell .low8 v).read cell .high8 = r.read cell .high8 ∧
    (r.write cell .high8 v).read cell .low8 = r.read cell .low8 ∧
    (r.write cell .low8 v).read cell .low8 = v &&& 0x00FF ∧
    (r.write cell .high8 v).read cell .high8 = v &&& 0x00FF ∧
    (r.write cell .full16 v).get cell = v ∧
    ∀ p other, other ≠ cell → (r.write cell p v).get other = r.get other

/-! ## The executed kinds -/

/-- R137: a move completes for every destination and every source it accepts; no flag is written, a memory destination is
not written (R124), a memory source gives a free value (the spec's D6, log 5); byte views as the spec's D8 has them (log 13),
those of SP, BP, SI and DI too (log 14). -/
def Obligations.MovCompletes : Prop :=
  ∀ (f : Fields) (s : State), isDestination f.op0 = true → isValue f.op1 = true →
    exec (.mov f) s = .next
      { s with
        regs := stored s.regs (valueOf s.regs (Config.freeWord s.draws) f.op1) f.op0
        ip := ipAfter f s
        draws := s.draws + drawsOf f.op1 }

/-- R140: an addition completes for every destination and source it accepts, with both flags from the 16-bit sum
(R125, R126, R130; the spec's D8, log 13); a memory operand gives a free value (the spec's D6, log 5); hand-made records
with a half of SP, BP, SI or DI are covered (log 14). -/
def Obligations.AddCompletes : Prop :=
  ∀ (f : Fields) (s : State), isDestination f.op0 = true → isValue f.op1 = true →
    let r := wrapped (((left f s).toNat : Int) + (right f s).toNat)
    exec (.add f) s = .next
      { s with
        regs := stored s.regs r f.op0
        zf := decide (r.toNat = 0)
        sf := decide (2 ^ 15 ≤ r.toNat)
        ip := ipAfter f s
        draws := s.draws + drawsOf f.op0 + drawsOf f.op1 }

/-- R141: a subtraction completes for every destination and source it accepts, destination minus source, with both flags
from the 16-bit difference (R125, R126, R130; the spec's D8, log 13); a memory operand gives a free value (D6, log 5);
hand-made records with a half of SP, BP, SI or DI are covered (log 14). -/
def Obligations.SubCompletes : Prop :=
  ∀ (f : Fields) (s : State), isDestination f.op0 = true → isValue f.op1 = true →
    let r := wrapped (((left f s).toNat : Int) - (right f s).toNat)
    exec (.sub f) s = .next
      { s with
        regs := stored s.regs r f.op0
        zf := decide (r.toNat = 0)
        sf := decide (2 ^ 15 ≤ r.toNat)
        ip := ipAfter f s
        draws := s.draws + drawsOf f.op0 + drawsOf f.op1 }

/-- R142: a comparison completes for every two operands that have a value, and writes no register. A memory operand gives
a free value and advances the model's counter of them (the spec's D6, log 5); the flags of byte operands are those of
the 16-bit difference (the spec's D8, log 13); hand-made records with a half of SP, BP, SI or DI are covered (log 14). -/
def Obligations.CmpCompletes : Prop :=
  ∀ (f : Fields) (s : State), isValue f.op0 = true → isValue f.op1 = true →
    let r := wrapped (((left f s).toNat : Int) - (right f s).toNat)
    exec (.cmp f) s = .next
      { s with
        zf := decide (r.toNat = 0)
        sf := decide (2 ^ 15 ≤ r.toNat)
        ip := ipAfter f s
        draws := s.draws + drawsOf f.op0 + drawsOf f.op1 }

/-- R154, R148: jump-if-not-zero completes for every branch operand, taken when the zero flag is clear; nothing but `ip`
changes. -/
def Obligations.JneCompletes : Prop :=
  ∀ (f : Fields) (off : Word) (s : State), f.op0 = .relative off →
    exec (.jne f) s = .next
      { s with
        ip := if s.zf then ipAfter f s
          else BitVec.ofInt 16 ((s.ip.toNat : Int) + f.byteLength + off.toInt) }

/-- R128: the 25 other kinds answer the error that carries the kind, from every state and for every operand; the run
ends there with the state as it was, and a listing goes on past them. -/
def Obligations.UnsupportedKindsStopTheRun : Prop :=
  (∀ (i : Instr) (s : State), executed i.kind = false →
    exec i s = .fault (.unsupportedInstruction i.kind) ∧
    ∀ fuel n, fetch s = .instr i n → runExecute (fuel + 1) s = (s, .fault (.unsupportedInstruction i.kind))) ∧
  (∀ (i : Instr) (s : State) (k : Kind), exec i s = .fault (.unsupportedInstruction k) →
    executed i.kind = false ∧ k = i.kind) ∧
  ∀ (m : Memory) (fuel offset n : Nat) (i : Instr),
    decode encTabDefault .error m.readBytes offset = .instr i n →
      runDisassembleUnder encTabDefault .error m (fuel + 1) offset =
        ((offset, i) :: (runDisassembleUnder encTabDefault .error m fuel (offset + n)).1,
          (runDisassembleUnder encTabDefault .error m fuel (offset + n)).2)

/-- R186, R129: the operand shapes that raise, kind by kind, under both memory read policies, and no others (the spec's
D9). -/
def Obligations.OperandShapesThatRaise : Prop :=
  ∀ (pol : MemReadPolicy) (i : Instr) (s : State),
    executeUnder pol i s = .fault .unsupportedOperand ↔ raisesOperand pol i = true

/-- R127: every instruction that completes advances `ip` by the length its record gives, modulo 2^16, and only a taken
jump-if-not-zero adds its offset to the advanced pointer. -/
def Obligations.CompletedInstructionAdvancesPointer : Prop :=
  ∀ (i : Instr) (s t : State), exec i s = .next t →
    ((i.kind ≠ .jne ∨ s.zf = true) → t.ip.toNat = (s.ip.toNat + i.fields.byteLength) % 65536) ∧
    (i.kind = .jne → s.zf = false → ∃ off, i.fields.op0 = .relative off ∧
      (t.ip.toNat : Int) = ((s.ip.toNat + i.fields.byteLength : Nat) + off.toInt) % 65536)

/-- The frame of every instruction that completes: no register but the destination, and of the destination's cell not
the half the view leaves out; no flag but in an addition, subtraction or comparison; no byte of the Byte Source
(R15, R22, R124, R131, R142). Halves of SP, BP, SI and DI in hand-made records are covered (log 14). -/
def Obligations.CompletedInstructionFrame : Prop :=
  ∀ (i : Instr) (s t : State), exec i s = .next t →
    (∀ cell, (writesDestination i.kind = false ∨ ∀ p, i.fields.op0 ≠ .register (.general cell) p) →
      t.regs.get cell = s.regs.get cell) ∧
    (∀ cell, i.fields.op0 = .register (.general cell) .low8 → t.regs.get cell >>> 8 = s.regs.get cell >>> 8) ∧
    (∀ cell, i.fields.op0 = .register (.general cell) .high8 →
      t.regs.get cell &&& 0x00FF = s.regs.get cell &&& 0x00FF) ∧
    (writesFlags i.kind = false → t.zf = s.zf ∧ t.sf = s.sf) ∧
    ∀ a, t.mem.byte? a = s.mem.byte? a

/-! ## What execution does not depend on -/

/-- R22: no instruction reads the sign flag, and only jump-if-not-zero reads the zero flag: with other flags an
instruction does the same, up to flags it leaves alone. For a record that reads a memory operand the two executions agree
by the model's choice that both draw the same free value (log 6). -/
def Obligations.FlagsAreReadByJneOnly : Prop :=
  (∀ (i : Instr) (s : State) (g : Bool),
    exec i { s with sf := g } = mapNext (fun t => if writesFlags i.kind then t else { t with sf := g }) (exec i s)) ∧
  ∀ (i : Instr) (s : State) (z : Bool), i.kind ≠ .jne →
    exec i { s with zf := z } = mapNext (fun t => if writesFlags i.kind then t else { t with zf := z }) (exec i s)

/-- R131: an execution makes no memory access: over another Byte Source it does the same and leaves that one. For a record
that reads a memory operand the two executions agree by the model's choice that both draw the same free value
(log 6). -/
def Obligations.ExecutionMakesNoMemoryAccess : Prop :=
  ∀ (i : Instr) (s : State) (m : Memory),
    exec i { s with mem := m } = mapNext (fun t => { t with mem := m }) (exec i s) ∧
    ∀ t, exec i s = .next t →
      t = { s with regs := t.regs, zf := t.zf, sf := t.sf, ip := t.ip, draws := t.draws }

/-- R122: no execution reads the field flags of its record (the spec's D16, log 20). For a record that reads a memory operand
the two executions agree by the model's choice that both draw the same free value (log 6). -/
def Obligations.ExecutionIgnoresFieldFlags : Prop :=
  ∀ (i : Instr) (s : State) (F : FieldFlags),
    exec (withFields i fun f => { f with flags := F }) s = exec i s

/-- No effective address is formed (R46): the addressing mode and displacement of a memory operand do not matter. That two
reads at different modes and displacements give the same value is the model's choice, not the spec's: both draw the
same free value (log 6), where R11 and R123 let the drawn values differ. -/
def Obligations.ExecutionFormsNoAddress : Prop :=
  ∀ (i : Instr) (s : State) (mode : AddressingMode) (disp : Word),
    exec (withFields i fun f => { f with op0 := readdressed mode disp f.op0, op1 := readdressed mode disp f.op1 }) s =
      exec i s

/-- R132: an execution that reads no memory operand depends on no drawn value: at another point of the model's sequence
of drawn values it does the same. -/
def Obligations.ExecutionWithoutMemoryReadIsDeterministic : Prop :=
  ∀ (i : Instr) (s : State) (n : Nat), readsNoMemory i = true →
    exec i { s with draws := n } = mapNext (fun t => { t with draws := n }) (exec i s)

/-- R214: under `MEM_READ_POLICY = Fault` no step of any table draws a value. -/
def Obligations.FaultPolicyDrawsNothing : Prop :=
  ∀ (tab : EncodingTable) (trunc : TruncPolicy) (s t : State),
    stepUnder tab trunc .fault s = .next t → t.draws = s.draws ∧
      ∀ n, stepUnder tab trunc .fault { s with draws := n } = .next { t with draws := n }

/-! ## Steps and runs -/

/-- R8: the machine is the parametric one at the spec's default parameters (D1, D3, D6; log 1, 2, 5). -/
def Obligations.MachineRunsWithDefaultParameters : Prop :=
  (∀ i s, exec i s = executeUnder .draw i s) ∧ ∀ s, step s = stepUnder encTabDefault .error .draw s

/-- R205, R206: a step executes the record decoded at `ip`, and `exec` itself advances the pointer. -/
def Obligations.StepRunsDecodedInstruction : Prop :=
  ∀ (s : State) (i : Instr) (n : Nat),
    decode encTabDefault .error s.mem.readBytes s.ip.toNat = .instr i n → step s = exec i s

/-- R205: where the bytes at `ip` are the encoding of a well-formed record, a step executes that record. -/
def Obligations.StepRunsEncodedInstruction : Prop :=
  ∀ (s : State) (i : Instr), i.wf = true →
    s.mem.readBytes s.ip.toNat i.fields.byteLength = encode i → step s = exec i s

/-- The load of a table word where the next fetch looks makes the next step run that instruction (R85; log 9, 10). -/
def Obligations.FetchWordRunsItsInstruction : Prop :=
  ∀ (s : State) (nbits w : Nat) (i : Instr), s.ip.toNat + maxInstrBytes ≤ 65536 →
    decodeTableWord nbits w = some i →
      step (s.withFetchWord nbits w) = exec i (s.withFetchWord nbits w)

/-- R180: a step never refuses: it answers a next state or one of the four responses. -/
def Obligations.StepNeverRefuses : Prop :=
  ∀ (s : State) (r : Refusal), step s ≠ .refused r

/-- R42: `EndOfStream` is the response exactly when no byte is left for the opcode, for every table and policy. -/
def Obligations.EndOfStreamExactlyPastTheEnd : Prop :=
  ∀ (tab : EncodingTable) (pol : TruncPolicy) (m : Memory) (offset : Nat), m.wf = true →
    (decode tab pol m.readBytes offset = .endOfStream ↔ m.size ≤ offset)

/-- R207, R44: with a full Byte Source `ip` is always inside, so no run ends normally. -/
def Obligations.FullByteSourceNeverEndsNormally : Prop :=
  ∀ s : State, s.Inv → s.mem.size = 65536 →
    ∀ fuel, (runExecute fuel s).2 ≠ .fault .endOfStream

/-- R186: with the default table `UnsupportedOperand` is raised by the moves `8C /r` and `8E /r` and by nothing else (the
spec's D9). -/
def Obligations.OnlySegmentMovesRaiseUnsupportedOperand : Prop :=
  ∀ s : State, step s = .fault .unsupportedOperand ↔
    (∃ i n, fetch s = .instr i n) ∧
      (s.mem.byte? s.ip.toNat = some 0x8C ∨ s.mem.byte? s.ip.toNat = some 0x8E)

/-- R135: a run that an error ends stops in the state the failing step started from, reached by completed steps only. That an
error leaves nothing of the failing step behind is the spec's decision D15 (log 20), and in the model follows from a
fault carrying no state (log 7); fuel is the model's device (log 22). -/
def Obligations.ErrorLeavesStateOfCompletedSteps : Prop :=
  ∀ (fuel : Nat) (s t : State) (e : Fault), runExecute fuel s = (t, .fault e) →
    step t = .fault e ∧ ∃ k, k < fuel ∧ runExecute k s = (t, .outOfFuel)

/-- R189: a run that has ended is final: more fuel changes nothing. It is the spec's decision D17 (log 20); the end state is
the one before the stopping step, since a fault carries no state (log 7); fuel is the model's device (log 22). -/
def Obligations.EndedRunIsFinal : Prop :=
  ∀ (fuel more : Nat) (s t : State) (e : Fault), runExecute fuel s = (t, .fault e) →
    runExecute (fuel + more) s = (t, .fault e) ∧ runExecute (more + 1) t = (t, .fault e)

/-- R205, R207, R116: a listing ends within N + 1 decodes, each offset is the one before plus its record's length, each
record is the decode at its offset, and the decode after the last record answers the response the listing ends with.
The unwrapped offset is the spec's D18 (log 20). -/
def Obligations.ListingEndsAndAdvancesByLength : Prop :=
  ∀ m : Memory, m.wf = true →
    (runDisassemble m).1.length ≤ m.size ∧
    advancesFrom 0 (runDisassemble m).1 ∧
    (∀ off i, (off, i) ∈ (runDisassemble m).1 →
      decode encTabDefault .error m.readBytes off = .instr i i.fields.byteLength) ∧
    responseOf (runDisassemble m).2 =
      some (decode encTabDefault .error m.readBytes (offsetAfter 0 (runDisassemble m).1))

/-! ## Decoding -/

/-- Decoding the encoding of a well-formed record of any kind gives it back, at any place of any byte source that holds
those bytes and under either truncation policy (R107, R138, R143, R147, R171 to R176). -/
def Obligations.DecodeOfEncodeIsTheRecord : Prop :=
  ∀ (i : Instr), i.wf = true → ∀ (pol : TruncPolicy) (src : ByteSource) (offset : Nat),
    holdsAt src offset (encode i) → decode encTabDefault pol src offset = .instr i (encode i).length

/-- The other direction, for the records that one word has: neither `NotUsed` nor a segment move (R61, R86). -/
def Obligations.EncodeOfDecodeIsTheBytes : Prop :=
  ∀ (bs : List Byte) (i : Instr) (n : Nat),
    decode encTabDefault .error (listSource bs) 0 = .instr i n →
    i.kind ≠ .notUsed → (i.fields.flags.sr && i.fields.flags.rm) = false → encode i = bs.take n

/-- Every record that the default table gives, from any byte source and under either policy, is well formed (R113). -/
def Obligations.DecodedRecordsAreWellFormed : Prop :=
  ∀ (pol : TruncPolicy) (src : ByteSource) (offset : Nat) (i : Instr) (n : Nat),
    decode encTabDefault pol src offset = .instr i n → i.wf = true ∧ n = i.fields.byteLength

/-- R113 (a) to (d): the shapes of the operands that a well-formed table can give. -/
def Obligations.WellFormedTableOperandShapes : Prop :=
  ∀ (tab : EncodingTable) (pol : TruncPolicy) (src : ByteSource) (offset : Nat) (i : Instr) (n : Nat),
    (∀ b, (tab b).wellFormed = true) → decode tab pol src offset = .instr i n →
    (isConstant i.fields.op0 && isConstant i.fields.op1) = false ∧
    (isMemory i.fields.op0 && isMemory i.fields.op1) = false ∧
    (∀ id p, (i.fields.op0 = .register id p ∨ i.fields.op1 = .register id p) → id.allows p = true) ∧
    ∀ id p id' p', i.fields.op0 = .register id p → i.fields.op1 = .register id' p' →
      (p = .full16 ↔ p' = .full16) ∨ i.fields.flags.rmw = true ∨ i.fields.flags.sr = true

/-- R68: the length of every record, for every table: the opcode byte, the mod/reg/rm byte, displacement, immediate
and branch displacement, by the descriptor and the pattern alone; with the default table the lengths that occur are 1 to 6. -/
def Obligations.RecordLengthLaw : Prop :=
  (∀ (tab : EncodingTable) (pol : TruncPolicy) (src : ByteSource) (offset : Nat) (i : Instr) (n : Nat),
    decode tab pol src offset = .instr i n →
      ∃ b rest pattern, src offset 1 = b :: rest ∧
        ((tab b).sizeClass = .single → pattern = (tab b).pattern) ∧
        ((tab b).sizeClass = .withModByte → fetch1 pol src (offset + 1) = some pattern) ∧
        n = lengthOf (tab b) pattern) ∧
  (∀ (pol : TruncPolicy) (src : ByteSource) (offset : Nat) (i : Instr) (n : Nat),
    decode encTabDefault pol src offset = .instr i n → 1 ≤ n ∧ n ≤ 6) ∧
  ∀ n, 1 ≤ n → n ≤ 6 → ∃ bs i, decode encTabDefault .error (listSource bs) 0 = .instr i n

/-- R111: 1 to 7 bytes for any table, at most 6 for a well-formed one. -/
def Obligations.RecordLengthBounds : Prop :=
  ∀ (tab : EncodingTable) (pol : TruncPolicy) (src : ByteSource) (offset : Nat) (i : Instr) (n : Nat),
    decode tab pol src offset = .instr i n →
      1 ≤ n ∧ n ≤ 7 ∧ ((∀ b, (tab b).wellFormed = true) → n ≤ 6)

/-- R112: (a) a record with a mod/reg/rm byte has at least two bytes; (b) a memory rm operand with mod = 0b00 and
rm other than 0b110 has displacement 0 and no displacement byte. For every table. -/
def Obligations.ModByteLengthAndAbsentDisplacement : Prop :=
  ∀ (tab : EncodingTable) (pol : TruncPolicy) (src : ByteSource) (offset : Nat) (i : Instr) (n : Nat) (b : Byte)
    (rest : List Byte), src offset 1 = b :: rest → decode tab pol src offset = .instr i n →
    ((tab b).sizeClass = .withModByte → 2 ≤ n) ∧
    ∀ pattern len, patternStep pol src offset (tab b) = some (pattern, len) →
      modField pattern = 0 → rmField pattern ≠ 6 →
        (∀ mode disp, (i.fields.op0 = .memory mode disp ∨ i.fields.op1 = .memory mode disp) → disp = 0) ∧
        n = len + immBytes (tab b).flags + relBytes (tab b).flags

/-- R110: under `Error` a record lies wholly inside the source and a short read gives no record; under `ZeroPad` there
is always a record, the one that a source padded with zero bytes has, which may reach past the end. -/
def Obligations.TruncationPoliciesOnShortReads : Prop :=
  ∀ (tab : EncodingTable) (bs : List Byte) (offset : Nat), offset < bs.length →
    (∃ i n, decode tab .zeroPad (listSource bs) offset = .instr i n ∧
      decode tab .error (listSource (bs ++ List.replicate 6 0)) offset = .instr i n ∧
      (offset + n ≤ bs.length → decode tab .error (listSource bs) offset = .instr i n) ∧
      (bs.length < offset + n → decode tab .error (listSource bs) offset = .truncatedField))

/-- R40, R108: a decode depends on nothing but the reads of its plan: over another byte source that answers these
reads alike it gives the same response. -/
def Obligations.DecodeDependsOnItsReadsOnly : Prop :=
  ∀ (tab : EncodingTable) (pol : TruncPolicy) (src src' : ByteSource) (offset : Nat),
    src' offset 1 = src offset 1 →
    (∀ b rest pattern len, src offset 1 = b :: rest → patternStep pol src offset (tab b) = some (pattern, len) →
      ∀ a count, (a, count) ∈ readPlan (tab b) pattern offset → src' a count = src a count) →
    (∀ b rest, src offset 1 = b :: rest → modBytes (tab b) = 1 → src' (offset + 1) 1 = src (offset + 1) 1) →
    decode tab pol src' offset = decode tab pol src offset

/-- R40: the reads of a decode are at most five, of one or two bytes, at consecutive addresses without overlap, and
cover the record's bytes once each. -/
def Obligations.ReadPlanCoversEachByteOnce : Prop :=
  ∀ (d : EncodingDescriptor) (pattern : Byte) (offset : Nat),
    (readPlan d pattern offset).length ≤ 5 ∧ contiguousFrom offset (readPlan d pattern offset) ∧
      ((readPlan d pattern offset).map Prod.snd).sum = lengthOf d pattern

/-- R114, R54: the kind does not influence the fields: a table that differs in its kinds only gives the same response but
for the kind. -/
def Obligations.KindDoesNotInfluenceFields : Prop :=
  ∀ (tab tab' : EncodingTable) (pol : TruncPolicy) (src : ByteSource) (offset : Nat),
    (∀ b, (tab' b).sizeClass = (tab b).sizeClass ∧ (tab' b).flags = (tab b).flags ∧
      (tab' b).pattern = (tab b).pattern) →
    sameFields (decode tab' pol src offset) (decode tab pol src offset)

/-- R60, R61, R62: the register, segment and addressing-mode tables, entry by entry. -/
def Obligations.LookupTablesAsListed : Prop :=
  (List.ofFn fun i : Fin 16 => regTab (BitVec.ofFin i)) =
    ([.a, .c, .d, .b].map (fun cell => Operand.register (.general cell) .low8) ++
      [.a, .c, .d, .b].map (fun cell => Operand.register (.general cell) .high8) ++
      [.a, .c, .d, .b, .sp, .bp, .si, .di].map (fun cell => Operand.register (.general cell) .full16)) ∧
  (∀ n wide, regOperand n wide = regTab (BitVec.setWidth 4 n + if wide then 8 else 0)) ∧
  (List.ofFn fun i : Fin 4 => segOperand (BitVec.ofFin i)) =
    [.es, .cs, .ss, .ds].map (fun seg => Operand.register (.segment seg) .full16) ∧
  (List.ofFn fun i : Fin 8 => eaTab (BitVec.ofFin i)) = [.bxSi, .bxDi, .bpSi, .bpDi, .si, .di, .bp, .bx] ∧
  (∀ p : Byte, srField (p ^^^ 0x20) = srField p) ∧
  (∀ m x, isDirect m x = true ↔ m = 0b00 ∧ x = 0b110) ∧
  ∀ (pol : TruncPolicy) (src : ByteSource) (a : Nat) (wide : Bool) (p : Byte) (v : Word),
    isDirect (modField p) (rmField p) = true → fetch2 pol src a = some v →
      rmOperand pol src a wide p = some (.memory .direct v, 2)

/-- R10, R38: sign extension, zero extension and little-endian assembly, as numbers. -/
def Obligations.FieldValuesAsNumbers : Prop :=
  (∀ b : Byte, (sext8 b).toInt = if b.toNat < 128 then (b.toNat : Int) else (b.toNat : Int) - 256) ∧
  (∀ b : Byte, (zext8 b).toNat = b.toNat) ∧
  (∀ b0 b1 : Byte, (le16 b0 b1).toNat = b0.toNat + 256 * b1.toNat) ∧
  ∀ p : Byte, (modField p).toNat = p.toNat / 64 ∧ (regField p).toNat = p.toNat / 8 % 8 ∧
    (rmField p).toNat = p.toNat % 8 ∧ (srField p).toNat = p.toNat / 8 % 4

/-- R69: every entry of the default table but 0x82 is well formed; 0x82 obeys W1 to W5 and breaks W6, since R77 gives it
`S` without `W` (log 21). -/
def Obligations.DefaultTableWellFormedBut82 : Prop :=
  (∀ b : Byte, b ≠ 0x82 → (encTabDefault b).wellFormed = true) ∧
  (encTabDefault 0x82).w1 = true ∧ (encTabDefault 0x82).w2 = true ∧ (encTabDefault 0x82).w3 = true ∧
  (encTabDefault 0x82).w4 = true ∧ (encTabDefault 0x82).w5 = true ∧ (encTabDefault 0x82).w6 = false

/-- R84, R86: 143 first bytes are unused, and each decodes to `NotUsed`, no operands, length 1, whatever follows. -/
def Obligations.UnusedFirstBytesDecodeToNotUsed : Prop :=
  ((List.range 256).filter fun n => encTabDefault (BitVec.ofNat 8 n) == rowUnused).length = 143 ∧
  ∀ (b : Byte) (rest : List Byte), encTabDefault b = rowUnused →
    ∀ pol, decode encTabDefault pol (listSource (b :: rest)) 0 =
      .instr (.notUsed { flags := {}, op0 := .none, op1 := .none, byteLength := 1 }) 1

/-- R70 to R73: what the source itself fixes of the table. -/
def Obligations.SourceFixedTableRows : Prop :=
  encTabDefault 0xB8 = ⟨.simple .mov, .single, { d := true, w := true, reg := true, imm := true }, 0x00⟩ ∧
  encTabDefault 0x03 =
    ⟨.simple .add, .withModByte, { d := true, w := true, mod := true, reg := true, rm := true }, 0x00⟩ ∧
  (encTabDefault 0x83).sizeClass = .withModByte ∧
  (encTabDefault 0x83).kindOf 0b11_111_011#8 = .cmp ∧ (encTabDefault 0x83).kindOf 0b11_000_011#8 = .add ∧
  (∀ k ∈ [Kind.add, Kind.sub, Kind.cmp], ∃ p : Byte, (encTabDefault 0x80).kindOf p = k)

/-- R70, R117, R118, R139, R146, R154 and the tables of R171 to R175: words written out from the spec's encodings. -/
def Obligations.KnownWordsDecode : Prop :=
  let at0 := fun bs => decode encTabDefault .error (listSource bs) 0
  let ax := Operand.register (.general .a) .full16
  let bx := Operand.register (.general .b) .full16
  at0 [0xB8, 0x05, 0x00] = .instr (.mov
    { flags := { d := true, w := true, reg := true, imm := true }, op0 := ax, op1 := .immediate 5, byteLength := 3 }) 3 ∧
  at0 [0x03, 0x1B] = .instr (.add
    { flags := { d := true, w := true, mod := true, reg := true, rm := true }, op0 := bx, op1 := .memory .bpDi 0,
      byteLength := 2 }) 2 ∧
  at0 [0x83, 0xFB, 0x02] = .instr (.cmp
    { flags := { w := true, s := true, mod := true, rm := true, imm := true }, op0 := bx, op1 := .immediate 2,
      byteLength := 3 }) 3 ∧
  at0 [0x75, 0xFB] = .instr (.jne
    { flags := { rel := true }, op0 := .relative (-5), op1 := .none, byteLength := 2 }) 2 ∧
  at0 [0x53] = .instr (.push
    { flags := { d := true, w := true, reg := true }, op0 := bx, op1 := .none, byteLength := 1 }) 1 ∧
  at0 [0xE5, 0xFF] = .instr (.inp
    { flags := { d := true, w := true, reg := true, imm8u := true }, op0 := ax, op1 := .immediate 255,
      byteLength := 2 }) 2

/-- R113 (e) to (h): the operand shapes that the default table gives, by the first byte. For (h): register operands of
different widths occur in `in al, dx` and `out dx, al` and in no other instruction, so in none outside the list of (h);
those of the segment moves, which (h) lists as well, are both full width by R61, R78 and R138 (log 24). -/
def Obligations.DefaultTableOperandShapes : Prop :=
  ∀ (pol : TruncPolicy) (src : ByteSource) (offset : Nat) (b : Byte) (rest : List Byte) (i : Instr) (n : Nat),
    src offset 1 = b :: rest → decode encTabDefault pol src offset = .instr i n →
    (encTabDefault b ≠ rowUnused → i.fields.op0 ≠ .none) ∧
    (∀ off, (i.fields.op0 = .relative off ∨ i.fields.op1 = .relative off) →
      i.fields.op0 = .relative off ∧ i.fields.op1 = .none) ∧
    ((∃ v, i.fields.op0 = .immediate v) ↔ b = 0xE6 ∨ b = 0xE7) ∧
    (widthsDiffer i.fields.op0 i.fields.op1 = true ↔ b = 0xEC ∨ b = 0xEE) ∧
    (b = 0x8C ∨ b = 0x8E → ∀ id p,
      (i.fields.op0 = .register id p ∨ i.fields.op1 = .register id p) → p = .full16)
end

