-- ==== Sys2Proof/Laws/State.lean ====
section
/-! SUPPORT. What each update of the state does to each field, one lemma per field and update. -/

namespace Sys2Proof.Machine

open Sys2Proof

@[simp] theorem State.advance_regs (s : State) (n : Nat) : (s.advance n).regs = s.regs := rfl
@[simp] theorem State.advance_zf (s : State) (n : Nat) : (s.advance n).zf = s.zf := rfl
@[simp] theorem State.advance_sf (s : State) (n : Nat) : (s.advance n).sf = s.sf := rfl
@[simp] theorem State.advance_ip (s : State) (n : Nat) : (s.advance n).ip = s.ip + BitVec.ofNat 16 n := rfl
@[simp] theorem State.advance_mem (s : State) (n : Nat) : (s.advance n).mem = s.mem := rfl
@[simp] theorem State.advance_draws (s : State) (n : Nat) : (s.advance n).draws = s.draws := rfl

@[simp] theorem State.jumpBy_regs (s : State) (v : Word) : (s.jumpBy v).regs = s.regs := rfl
@[simp] theorem State.jumpBy_zf (s : State) (v : Word) : (s.jumpBy v).zf = s.zf := rfl
@[simp] theorem State.jumpBy_sf (s : State) (v : Word) : (s.jumpBy v).sf = s.sf := rfl
@[simp] theorem State.jumpBy_ip (s : State) (v : Word) : (s.jumpBy v).ip = s.ip + v := rfl
@[simp] theorem State.jumpBy_mem (s : State) (v : Word) : (s.jumpBy v).mem = s.mem := rfl
@[simp] theorem State.jumpBy_draws (s : State) (v : Word) : (s.jumpBy v).draws = s.draws := rfl

@[simp] theorem State.setFlags_regs (s : State) (r : Word) : (s.setFlags r).regs = s.regs := rfl
@[simp] theorem State.setFlags_zf (s : State) (r : Word) : (s.setFlags r).zf = zeroOf r := rfl
@[simp] theorem State.setFlags_sf (s : State) (r : Word) : (s.setFlags r).sf = signOf r := rfl
@[simp] theorem State.setFlags_ip (s : State) (r : Word) : (s.setFlags r).ip = s.ip := rfl
@[simp] theorem State.setFlags_mem (s : State) (r : Word) : (s.setFlags r).mem = s.mem := rfl
@[simp] theorem State.setFlags_draws (s : State) (r : Word) : (s.setFlags r).draws = s.draws := rfl

@[simp] theorem State.draw_value (s : State) : s.draw.1 = Config.freeWord s.draws := rfl
@[simp] theorem State.draw_regs (s : State) : s.draw.2.regs = s.regs := rfl
@[simp] theorem State.draw_zf (s : State) : s.draw.2.zf = s.zf := rfl
@[simp] theorem State.draw_sf (s : State) : s.draw.2.sf = s.sf := rfl
@[simp] theorem State.draw_ip (s : State) : s.draw.2.ip = s.ip := rfl
@[simp] theorem State.draw_mem (s : State) : s.draw.2.mem = s.mem := rfl
@[simp] theorem State.draw_draws (s : State) : s.draw.2.draws = s.draws + 1 := rfl

@[simp] theorem State.withFetchWord_regs (s : State) (n w : Nat) : (s.withFetchWord n w).regs = s.regs := rfl
@[simp] theorem State.withFetchWord_zf (s : State) (n w : Nat) : (s.withFetchWord n w).zf = s.zf := rfl
@[simp] theorem State.withFetchWord_sf (s : State) (n w : Nat) : (s.withFetchWord n w).sf = s.sf := rfl
@[simp] theorem State.withFetchWord_ip (s : State) (n w : Nat) : (s.withFetchWord n w).ip = s.ip := rfl
@[simp] theorem State.withFetchWord_draws (s : State) (n w : Nat) : (s.withFetchWord n w).draws = s.draws := rfl
@[simp] theorem State.withFetchWord_mem (s : State) (n w : Nat) :
    (s.withFetchWord n w).mem = s.mem.overlay s.ip.toNat (tableWordBytes n w) := rfl

@[simp] theorem State.boot_mem (bs : List Byte) : (State.boot bs).mem = Memory.ofBytes bs := rfl
@[simp] theorem State.boot_ip (bs : List Byte) : (State.boot bs).ip = Config.resetIp := rfl
@[simp] theorem State.boot_zf (bs : List Byte) : (State.boot bs).zf = Config.resetFlag := rfl
@[simp] theorem State.boot_sf (bs : List Byte) : (State.boot bs).sf = Config.resetFlag := rfl
@[simp] theorem State.boot_regs (bs : List Byte) : (State.boot bs).regs = Registers.reset := rfl
@[simp] theorem State.boot_draws (bs : List Byte) : (State.boot bs).draws = 0 := rfl

end Sys2Proof.Machine
end

