-- ==== Sys2Proof/Laws/Memory.lean ====
section
/-! SUPPORT. The Byte Source: its canonical form, what loads leave, and its reads as those of a list (R35, R36). -/

namespace Sys2Proof.Machine

open Sys2Proof

@[simp] theorem Memory.length_cellsFrom (bs : List Byte) (a : Nat) : (Memory.cellsFrom a bs).length = bs.length := by
  induction bs generalizing a with
  | nil => rfl
  | cons b rest ih => simp [Memory.cellsFrom, ih]

@[simp] theorem Memory.bytes_cellsFrom (bs : List Byte) (a : Nat) : Memory.bytes (Memory.cellsFrom a bs) = bs := by
  induction bs generalizing a with
  | nil => rfl
  | cons b rest ih => simpa [Memory.cellsFrom, Memory.bytes] using ih (a + 1)

theorem Memory.consecutiveFrom_cellsFrom (bs : List Byte) (a : Nat) :
    Memory.consecutiveFrom a (Memory.cellsFrom a bs) = true := by
  induction bs generalizing a with
  | nil => rfl
  | cons b rest ih => simp [Memory.cellsFrom, Memory.consecutiveFrom, ih]

/-- Consecutive cells are the cells of their bytes. -/
theorem Memory.eq_cellsFrom {m : Memory} {a : Nat} (h : Memory.consecutiveFrom a m = true) :
    m = Memory.cellsFrom a m.bytes := by
  induction m generalizing a with
  | nil => rfl
  | cons cell rest ih =>
    obtain ⟨k, b⟩ := cell
    simp only [Memory.consecutiveFrom, Bool.and_eq_true, beq_iff_eq] at h
    obtain ⟨rfl, h⟩ := h
    have := ih h
    simpa [Memory.bytes, Memory.cellsFrom] using this

/-- A load gives the canonical form. -/
theorem Memory.ofBytes_wf (bs : List Byte) : (Memory.ofBytes bs).wf = true := by
  simp only [Memory.wf, Memory.ofBytes, Bool.and_eq_true]
  exact ⟨Memory.consecutiveFrom_cellsFrom _ _, by simp [List.length_take]⟩

/-- A load over the present contents gives the canonical form, whatever those contents were. -/
theorem Memory.overlay_wf (m : Memory) (a : Nat) (bs : List Byte) : (m.overlay a bs).wf = true :=
  Memory.ofBytes_wf _

/-- The only operations that make a Byte Source keep its canonical form; the empty one has it. -/
theorem Memory.nil_wf : Memory.wf [] = true := rfl

@[simp] theorem Memory.size_ofBytes (bs : List Byte) : (Memory.ofBytes bs).size = min Config.addressSpace bs.length := by
  simp [Memory.size, Memory.ofBytes]

theorem Memory.byte?_cellsFrom (bs : List Byte) (k a : Nat) :
    Memory.byte? (Memory.cellsFrom k bs) a = if a < k then none else bs[a - k]? := by
  induction bs generalizing k with
  | nil => simp [Memory.cellsFrom, Memory.byte?]
  | cons b rest ih =>
    simp only [Memory.cellsFrom, Memory.byte?, ih]
    rcases Nat.lt_trichotomy a k with h | rfl | h
    · simp [h, show ¬ k = a by omega, show a < k + 1 by omega]
    · simp
    · simp [show ¬ k = a by omega, show ¬ a < k + 1 by omega, show ¬ a < k by omega,
        show a - k = (a - (k + 1)) + 1 by omega]

/-- On a canonical Byte Source `MEM[a]` is the byte at position `a` of the loaded bytes. -/
theorem Memory.byte?_of_wf {m : Memory} (h : m.wf = true) (a : Nat) : m.byte? a = m.bytes[a]? := by
  have hm := Memory.eq_cellsFrom (Bool.and_eq_true _ _ |>.mp h).1
  rw [hm]
  simp [Memory.byte?_cellsFrom]

@[simp] theorem Memory.length_bytes (m : Memory) : m.bytes.length = m.size := by
  simp [Memory.bytes, Memory.size]

theorem Memory.size_le_of_wf {m : Memory} (h : m.wf = true) : m.size ≤ 65536 := by
  have : m.length ≤ Config.addressSpace := of_decide_eq_true (Bool.and_eq_true _ _ |>.mp h).2
  simpa [Memory.size, Config.addressSpace, Config.ipw] using this

/-- On a canonical Byte Source `ReadBytes` is the clamped read of the list of loaded bytes (R35). -/
theorem Memory.readBytes_of_wf {m : Memory} (h : m.wf = true) (a count : Nat) :
    m.readBytes a count = listSource m.bytes a count := by
  induction count generalizing a with
  | zero => simp [Memory.readBytes, listSource]
  | succ n ih =>
    simp only [Memory.readBytes, Memory.byte?_of_wf h, ih, listSource]
    cases hb : m.bytes[a]? with
    | none =>
      have : m.bytes.length ≤ a := by simpa using hb
      simp [List.drop_eq_nil_of_le this]
    | some b =>
      obtain ⟨hlt, rfl⟩ := List.getElem?_eq_some_iff.mp hb
      rw [List.drop_eq_getElem_cons hlt, List.take_succ_cons]

end Sys2Proof.Machine
end

