-- ==== Sys2Proof/Laws/Registers.lean ====
section
/-! SUPPORT. Register cells and their views (R14 to R17). -/

namespace Sys2Proof.Machine

open Sys2Proof

@[simp] theorem Registers.get_set_self (r : Registers) (cell : GenReg) (v : Word) :
    (r.set cell v).get cell = v := by cases cell <;> rfl

theorem Registers.get_set_of_ne (r : Registers) {cell other : GenReg} (v : Word) (h : other ≠ cell) :
    (r.set cell v).get other = r.get other := by
  cases cell <;> cases other <;> first | rfl | exact absurd rfl h

@[simp] theorem Registers.set_get_self (r : Registers) (cell : GenReg) : r.set cell (r.get cell) = r := by
  cases cell <;> rfl

@[simp] theorem Registers.get_write_self (r : Registers) (cell : GenReg) (p : Portion) (v : Word) :
    (r.write cell p v).get cell = viewWrite p (r.get cell) v := by simp [Registers.write]

theorem Registers.get_write_of_ne (r : Registers) {cell other : GenReg} (p : Portion) (v : Word)
    (h : other ≠ cell) : (r.write cell p v).get other = r.get other := by
  simp [Registers.write, Registers.get_set_of_ne r _ h]

/-- Two register files are equal when every cell is. -/
theorem Registers.ext_get {r r' : Registers} (h : ∀ cell, r.get cell = r'.get cell) : r = r' := by
  have ha := h .a
  have hb := h .b
  have hc := h .c
  have hd := h .d
  have hsp := h .sp
  have hbp := h .bp
  have hsi := h .si
  have hdi := h .di
  cases r
  cases r'
  simp_all [Registers.get]

/-! ## The bytes of a word -/

@[simp] theorem loByte_append (hi lo : Byte) : loByte (hi ++ lo) = lo := by
  apply BitVec.eq_of_getElem_eq
  intro i h
  have := BitVec.getLsbD_append (x := hi) (y := lo) (i := i)
  simp only [loByte, BitVec.getElem_extractLsb', Nat.zero_add]
  exact this.trans (by simp [h, BitVec.getLsbD_eq_getElem])

@[simp] theorem hiByte_append (hi lo : Byte) : hiByte (hi ++ lo) = hi := by
  apply BitVec.eq_of_getElem_eq
  intro i h
  have := BitVec.getLsbD_append (x := hi) (y := lo) (i := 8 + i)
  simp only [hiByte, BitVec.getElem_extractLsb']
  exact this.trans (by simp [h, BitVec.getLsbD_eq_getElem])

@[simp] theorem hiByte_append_loByte (v : Word) : hiByte v ++ loByte v = v := by
  apply BitVec.eq_of_getElem_eq
  intro i h
  have h16 : i < 16 := h
  simp only [hiByte, loByte, BitVec.getElem_append, BitVec.getElem_extractLsb']
  split
  · simp [BitVec.getLsbD_eq_getElem h16]
  · simp [show 8 + (i - 8) = i by omega, BitVec.getLsbD_eq_getElem h16]

@[simp] theorem le16_loByte_hiByte (v : Word) : le16 (loByte v) (hiByte v) = v := by
  simp [le16]

@[simp] theorem loByte_le16 (b0 b1 : Byte) : loByte (le16 b0 b1) = b0 := by simp [le16]

@[simp] theorem hiByte_le16 (b0 b1 : Byte) : hiByte (le16 b0 b1) = b1 := by simp [le16]

@[simp] theorem loByte_sext8 (b : Byte) : loByte (sext8 b) = b := by
  revert b
  decide

@[simp] theorem loByte_zext8 (b : Byte) : loByte (zext8 b) = b := by
  revert b
  decide

theorem hiByte_zext8 (b : Byte) : hiByte (zext8 b) = 0 := by
  revert b
  decide

/-- A view reads back what was written through it: all 16 bits, or the low 8 bits of the value (R16, R17). -/
theorem viewRead_viewWrite_self (p : Portion) (old v : Word) :
    viewRead p (viewWrite p old v) = match p with
      | .full16 => v
      | .low8 | .high8 => zext8 (loByte v) := by
  cases p <;> simp [viewRead, viewWrite]

end Sys2Proof.Machine
end

