-- ==== Sys2Proof/Laws/Decode.lean ====
section
/-! SUPPORT. The fields of the mod/reg/rm byte, the lookup tables against the numbers the encoder uses, the field
fetches, and the inversion of a decode. -/

namespace Sys2Proof

/-! ## Fields -/

@[simp] theorem modField_modRegRm (m : BitVec 2) (r x : BitVec 3) : modField (modRegRm m r x) = m := by
  revert m r x
  decide

@[simp] theorem regField_modRegRm (m : BitVec 2) (r x : BitVec 3) : regField (modRegRm m r x) = r := by
  revert m r x
  decide

@[simp] theorem rmField_modRegRm (m : BitVec 2) (r x : BitVec 3) : rmField (modRegRm m r x) = x := by
  revert m r x
  decide

@[simp] theorem srField_modRegRm (m : BitVec 2) (r x : BitVec 3) :
    srField (modRegRm m r x) = BitVec.extractLsb' 0 2 r := by
  revert m r x
  decide

/-- A byte is its three fields (R59). -/
theorem modRegRm_fields (p : Byte) : modRegRm (modField p) (regField p) (rmField p) = p := by
  revert p
  decide

/-! ## Tables -/

/-- The register field of a view of the selected bank names that view (R60). -/
theorem regOperand_regNumber {wide : Bool} {o : Operand} (h : o.isReg wide = true) :
    regOperand (regNumber o) wide = o := by
  cases o with
  | register id p =>
    cases id with
    | segment seg => simp [Operand.isReg] at h
    | general cell => revert h; revert wide; cases cell <;> cases p <;> decide
  | _ => simp [Operand.isReg] at h

/-- Every register field names a view of the selected bank (R60). -/
theorem isReg_regOperand (n : BitVec 3) (wide : Bool) : (regOperand n wide).isReg wide = true := by
  revert n wide
  decide

/-- The segment field of a segment register operand names it (R61). -/
theorem segOperand_segNumber {o : Operand} (h : o.isSegment = true) : segOperand (segNumber o) = o := by
  cases o with
  | register id p =>
    cases id with
    | general cell => simp [Operand.isSegment] at h
    | segment seg => revert h; cases seg <;> cases p <;> decide
  | _ => simp [Operand.isSegment] at h

theorem isSegment_segOperand (n : BitVec 2) : (segOperand n).isSegment = true := rfl

/-- The rm field of a mode with a base or index register names it (R62). -/
theorem eaTab_modeNumber {mode : AddressingMode} (h : mode ≠ .direct) : eaTab (modeNumber mode) = mode := by
  cases mode <;> first | rfl | exact absurd rfl h

/-! ## Fetches from a list of bytes (R41) -/

theorem fetch1_listSource (pol : TruncPolicy) (bs : List Byte) (a : Nat) :
    fetch1 pol (listSource bs) a = match bs[a]? with
      | some b => some b
      | none => match pol with
        | .error => none
        | .zeroPad => some 0 := by
  cases h : bs[a]? with
  | none =>
    have : bs.length ≤ a := by simpa using h
    cases pol <;> simp [fetch1, listSource, List.drop_eq_nil_of_le this]
  | some b =>
    obtain ⟨hlt, rfl⟩ := List.getElem?_eq_some_iff.mp h
    simp only [fetch1, listSource]
    rw [List.drop_eq_getElem_cons hlt]
    rfl

theorem fetch2_listSource (pol : TruncPolicy) (bs : List Byte) (a : Nat) :
    fetch2 pol (listSource bs) a = match bs[a]?, bs[a + 1]? with
      | some b0, some b1 => some (le16 b0 b1)
      | some b0, none => (match pol with | .error => none | .zeroPad => some (le16 b0 0))
      | none, _ => (match pol with | .error => none | .zeroPad => some 0) := by
  cases h0 : bs[a]? with
  | none =>
    have : bs.length ≤ a := by simpa using h0
    cases pol <;> simp [fetch2, listSource, List.drop_eq_nil_of_le this]
  | some b0 =>
    obtain ⟨hlt, rfl⟩ := List.getElem?_eq_some_iff.mp h0
    cases h1 : bs[a + 1]? with
    | none =>
      have : bs.length ≤ a + 1 := by simpa using h1
      simp only [fetch2, listSource]
      rw [List.drop_eq_getElem_cons hlt, List.drop_eq_nil_of_le this]
      rfl
    | some b1 =>
      obtain ⟨hlt', rfl⟩ := List.getElem?_eq_some_iff.mp h1
      simp only [fetch2, listSource]
      rw [List.drop_eq_getElem_cons hlt, List.drop_eq_getElem_cons hlt']
      rfl

/-! ## Records -/

@[simp] theorem Kind.record_kind (k : Kind) (f : Fields) : (k.record f).kind = k := by cases k <;> rfl

@[simp] theorem Kind.record_fields (k : Kind) (f : Fields) : (k.record f).fields = f := by cases k <;> rfl

/-- A record given by a decode reports its own length (R27, R106). -/
theorem decode_instr {tab : EncodingTable} {pol : TruncPolicy} {src : ByteSource} {offset n : Nat} {i : Instr}
    (h : decode tab pol src offset = .instr i n) :
    n = i.fields.byteLength ∧
      ∃ b rest, src offset 1 = b :: rest ∧ decodeRecord pol src offset (tab b) = some i := by
  unfold decode at h
  split at h
  · simp at h
  · rename_i b rest hs
    split at h
    · simp at h
    · rename_i j hj
      cases h
      exact ⟨rfl, b, rest, hs, hj⟩

/-- A record is built from a pattern, the register and segment steps, and the three fetching steps in order, and these
fix its kind, flags, operands and length (R94 to R106). -/
theorem decodeRecord_some {pol : TruncPolicy} {src : ByteSource} {offset : Nat} {d : EncodingDescriptor} {i : Instr}
    (h : decodeRecord pol src offset d = some i) :
    ∃ pattern len ops₁ len₁ ops₂ len₂ ops₃ len₃,
      patternStep pol src offset d = some (pattern, len) ∧
      rmStep pol src offset d.flags pattern (segStep d.flags pattern (regStep d.flags pattern {})) len =
        some (ops₁, len₁) ∧
      immediateStep pol src offset d.flags ops₁.immediateTarget ops₁ len₁ = some (ops₂, len₂) ∧
      relativeStep pol src offset d.flags ops₁.immediateTarget ops₂ len₂ = some (ops₃, len₃) ∧
      i = (d.kindOf pattern).record
        { flags := d.flags, op0 := ops₃.op0, op1 := ops₃.op1, byteLength := len₃ } := by
  simp only [decodeRecord, Option.bind_eq_bind, Option.bind_eq_some_iff, Option.pure_def, Option.some.injEq,
    Prod.exists] at h
  obtain ⟨pattern, len, hp, ops₁, len₁, h1, ops₂, len₂, h2, ops₃, len₃, h3, rfl⟩ := h
  exact ⟨pattern, len, ops₁, len₁, ops₂, len₂, ops₃, len₃, hp, h1, h2, h3, rfl⟩

/-- The flags of a record are the descriptor's (R27, R106). -/
theorem decodeRecord_flags {pol : TruncPolicy} {src : ByteSource} {offset : Nat} {d : EncodingDescriptor} {i : Instr}
    (h : decodeRecord pol src offset d = some i) : i.fields.flags = d.flags := by
  obtain ⟨_, _, _, _, _, _, _, _, _, _, _, _, rfl⟩ := decodeRecord_some h
  simp

/-! ## Lengths of the steps (R63 to R68) -/

theorem patternStep_len {pol : TruncPolicy} {src : ByteSource} {offset len : Nat} {d : EncodingDescriptor}
    {pattern : Byte} (h : patternStep pol src offset d = some (pattern, len)) : len = 1 + modBytes d := by
  unfold patternStep at h
  cases hs : d.sizeClass <;> simp_all [modBytes]

theorem rmStep_len {pol : TruncPolicy} {src : ByteSource} {offset len len' : Nat} {F : FieldFlags} {pattern : Byte}
    {ops ops' : Slots} (h : rmStep pol src offset F pattern ops len = some (ops', len')) :
    len' = len + dispBytes F pattern := by
  unfold rmStep rmOperand displacement at h
  unfold dispBytes
  generalize modField pattern = m at h ⊢
  generalize rmField pattern = x at h ⊢
  cases hF : F.rm
  · simp_all
  · by_cases h3 : m = 3
    · simp_all
    · by_cases h1 : m = 1
      · simp_all
        omega
      · by_cases h2 : m = 2 ∨ isDirect m x = true <;> simp_all
        omega

theorem immediateStep_len {pol : TruncPolicy} {src : ByteSource} {offset len len' : Nat} {F : FieldFlags} {t : Bool}
    {ops ops' : Slots} (h : immediateStep pol src offset F t ops len = some (ops', len')) :
    len' = len + immBytes F := by
  unfold immediateStep at h
  unfold immBytes
  split at h
  · rename_i hc
    simp only [hc, if_true, Option.map_eq_some_iff, Prod.mk.injEq] at h ⊢
    obtain ⟨_, -, -, rfl⟩ := h
    rfl
  · rename_i hc
    split at h
    · rename_i hi
      simp only [Option.map_eq_some_iff, Prod.mk.injEq] at h
      obtain ⟨_, -, -, rfl⟩ := h
      rw [if_neg hc, hi]
      rfl
    · rename_i hi
      split at h
      · rename_i h8
        simp only [Option.map_eq_some_iff, Prod.mk.injEq] at h
        obtain ⟨_, -, -, rfl⟩ := h
        simp [hi, h8]
      · rename_i h8
        cases h
        simp [hi, h8]

theorem relativeStep_len {pol : TruncPolicy} {src : ByteSource} {offset len len' : Nat} {F : FieldFlags} {t : Bool}
    {ops ops' : Slots} (h : relativeStep pol src offset F t ops len = some (ops', len')) :
    len' = len + relBytes F := by
  unfold relativeStep at h
  unfold relBytes
  cases hF : F.rel <;> simp_all
  omega

end Sys2Proof
end

