-- ==== Sys2Proof/Laws/Operands.lean ====
section
/-! SUPPORT. Everything that reading and writing an operand can do (R123, R124), once per operation. -/

namespace Sys2Proof.Machine

open Sys2Proof

variable {pol : MemReadPolicy} {o : Operand} {s t : State} {v : Word}

/-- A read that gives a value: a register view, an immediate, or a drawn value under `Draw` (R123). -/
theorem readOp_some (h : readOp pol o s = some (v, t)) :
    (∃ cell p, o = .register (.general cell) p ∧ v = s.regs.read cell p ∧ t = s) ∨
    (o = .immediate v ∧ t = s) ∨
    (∃ mode disp, o = .memory mode disp ∧ pol = .draw ∧ v = Config.freeWord s.draws ∧
      t = { s with draws := s.draws + 1 }) := by
  cases o with
  | none => simp [readOp] at h
  | relative off => simp [readOp] at h
  | immediate w =>
    simp only [readOp, Option.some.injEq, Prod.mk.injEq] at h
    exact .inr (.inl ⟨by rw [h.1], h.2.symm⟩)
  | register id p =>
    cases id with
    | segment seg => simp [readOp] at h
    | general cell =>
      simp only [readOp, Option.some.injEq, Prod.mk.injEq] at h
      exact .inl ⟨cell, p, rfl, h.1.symm, h.2.symm⟩
  | memory mode disp =>
    cases pol with
    | fault => simp [readOp] at h
    | draw =>
      simp only [readOp, State.draw, Option.some.injEq, Prod.mk.injEq] at h
      exact .inr (.inr ⟨mode, disp, rfl, rfl, h.1.symm, h.2.symm⟩)

/-- The frame of a read: nothing but the model's draw counter can change. -/
theorem readOp_frame (h : readOp pol o s = some (v, t)) : t = { s with draws := t.draws } := by
  obtain ⟨_, _, -, -, rfl⟩ | ⟨-, rfl⟩ | ⟨_, _, -, -, -, rfl⟩ := readOp_some h <;> rfl

/-- A read raises on exactly these operands (R123, R129). -/
theorem readOp_none :
    readOp pol o s = none ↔ o = .none ∨ (∃ seg p, o = .register (.segment seg) p) ∨ (∃ off, o = .relative off) ∨
      (pol = .fault ∧ ∃ mode disp, o = .memory mode disp) := by
  cases o with
  | register id p => cases id <;> simp [readOp]
  | memory mode disp => cases pol <;> simp [readOp]
  | _ => simp [readOp]

/-- A write that is accepted: to a register view, or to a memory operand, which changes nothing (R124). -/
theorem writeOp_some (h : writeOp o v s = some t) :
    (∃ cell p, o = .register (.general cell) p ∧ t = { s with regs := s.regs.write cell p v }) ∨
    (∃ mode disp, o = .memory mode disp ∧ t = s) := by
  cases o with
  | none => simp [writeOp] at h
  | relative off => simp [writeOp] at h
  | immediate w => simp [writeOp] at h
  | register id p =>
    cases id with
    | segment seg => simp [writeOp] at h
    | general cell => exact .inl ⟨cell, p, rfl, by simpa [writeOp] using h.symm⟩
  | memory mode disp => exact .inr ⟨mode, disp, rfl, by simpa [writeOp] using h.symm⟩

/-- The frame of a write: nothing but the registers can change. -/
theorem writeOp_frame (h : writeOp o v s = some t) : t = { s with regs := t.regs } := by
  obtain ⟨_, _, -, rfl⟩ | ⟨_, _, -, rfl⟩ := writeOp_some h <;> rfl

/-- A cell other than the destination's keeps its value. -/
theorem writeOp_get_of_ne (h : writeOp o v s = some t) {cell : GenReg}
    (hne : ∀ p, o ≠ .register (.general cell) p) : t.regs.get cell = s.regs.get cell := by
  obtain ⟨dest, p, rfl, rfl⟩ | ⟨_, _, -, rfl⟩ := writeOp_some h
  · exact Registers.get_write_of_ne _ p v (by rintro rfl; exact hne p rfl)
  · rfl

/-- A write raises on exactly these operands (R124, R129). -/
theorem writeOp_none :
    writeOp o v s = none ↔ o = .none ∨ (∃ seg p, o = .register (.segment seg) p) ∨ (∃ off, o = .relative off) ∨
      (∃ w, o = .immediate w) := by
  cases o with
  | register id p => cases id <;> simp [writeOp]
  | _ => simp [writeOp]

end Sys2Proof.Machine
end

