-- ==== Sys2Proof/Laws/Exec.lean ====
section
/-! SUPPORT. What each meaning can do: one inversion lemma per shared form, and one for `exec` as a whole. -/

namespace Sys2Proof.Machine

open Sys2Proof

variable {pol : MemReadPolicy} {f : Fields} {s t : State} {i : Instr}

@[simp] theorem raise_ne_next (e : Fault) (t : State) : raise e ≠ .next t := nofun

@[simp] theorem raise_ne_refused (e : Fault) (r : Refusal) : raise e ≠ .refused r := nofun

@[simp] theorem unsupported_ne_next (k : Kind) (s t : State) : unsupported k s ≠ .next t := nofun

@[simp] theorem unsupported_ne_refused (k : Kind) (s : State) (r : Refusal) : unsupported k s ≠ .refused r := nofun

/-- A move that completes reads slot 1, writes slot 0 and advances (R137). -/
theorem movUnder_next (h : movUnder pol f s = .next t) :
    ∃ v s₁ s₂, readOp pol f.op1 s = some (v, s₁) ∧ writeOp f.op0 v s₁ = some s₂ ∧ t = s₂.advance f.byteLength := by
  unfold movUnder at h
  split at h
  · simp at h
  · rename_i v s₁ hr
    split at h
    · simp at h
    · rename_i s₂ hw
      cases h
      exact ⟨v, s₁, s₂, hr, hw, rfl⟩

/-- Both source reads, slot 0 first. -/
theorem readBoth_some {a b : Word} (h : readBoth pol f s = some (a, b, t)) :
    ∃ s₁, readOp pol f.op0 s = some (a, s₁) ∧ readOp pol f.op1 s₁ = some (b, t) := by
  unfold readBoth at h
  split at h
  · simp at h
  · rename_i a' s₁ h0
    split at h
    · simp at h
    · rename_i b' s₂ h1
      simp only [Option.some.injEq, Prod.mk.injEq] at h
      obtain ⟨rfl, rfl, rfl⟩ := h
      exact ⟨s₁, h0, h1⟩

/-- The frame of both reads. -/
theorem readBoth_frame {a b : Word} (h : readBoth pol f s = some (a, b, t)) : t = { s with draws := t.draws } := by
  obtain ⟨s₁, h0, h1⟩ := readBoth_some h
  have e0 := readOp_frame h0
  have e1 := readOp_frame h1
  rw [e1, e0]

/-- An addition or subtraction that completes (R140, R141). -/
theorem arithUnder_next {alu : Word → Word → Word} (h : arithUnder alu pol f s = .next t) :
    ∃ a b s₁ s₂, readBoth pol f s = some (a, b, s₁) ∧ writeOp f.op0 (alu a b) s₁ = some s₂ ∧
      t = (s₂.setFlags (alu a b)).advance f.byteLength := by
  unfold arithUnder at h
  split at h
  · simp at h
  · rename_i a b s₁ hr
    split at h
    · simp at h
    · rename_i s₂ hw
      cases h
      exact ⟨a, b, s₁, s₂, hr, hw, rfl⟩

/-- A comparison that completes (R142). -/
theorem cmpUnder_next (h : cmpUnder pol f s = .next t) :
    ∃ a b s₁, readBoth pol f s = some (a, b, s₁) ∧ t = (s₁.setFlags (sub16 a b)).advance f.byteLength := by
  unfold cmpUnder at h
  split at h
  · simp at h
  · rename_i a b s₁ hr
    cases h
    exact ⟨a, b, s₁, hr, rfl⟩

/-- A jump-if-not-zero that completes (R154). -/
theorem execJne_next (h : execJne f s = .next t) :
    ∃ off, f.op0 = .relative off ∧
      t = if s.zf then s.advance f.byteLength else (s.advance f.byteLength).jumpBy off := by
  unfold execJne at h
  split at h
  · rename_i off ho
    cases h
    exact ⟨off, ho, rfl⟩
  all_goals simp at h

/-- Every way in which `exec` can answer a next state: the five executed kinds (R120). -/
theorem exec_next (h : exec i s = .next t) :
    (∃ f, i = .mov f ∧ movUnder .draw f s = .next t) ∨
    (∃ f, i = .add f ∧ arithUnder add16 .draw f s = .next t) ∨
    (∃ f, i = .sub f ∧ arithUnder sub16 .draw f s = .next t) ∨
    (∃ f, i = .cmp f ∧ cmpUnder .draw f s = .next t) ∨
    (∃ f, i = .jne f ∧ execJne f s = .next t) := by
  cases i with
  | mov f => exact .inl ⟨f, rfl, h⟩
  | add f => exact .inr (.inl ⟨f, rfl, h⟩)
  | sub f => exact .inr (.inr (.inl ⟨f, rfl, h⟩))
  | cmp f => exact .inr (.inr (.inr (.inl ⟨f, rfl, h⟩)))
  | jne f => exact .inr (.inr (.inr (.inr ⟨f, rfl, h⟩)))
  | jo f | jno f | jb f | jnb f | je f | jbe f | ja f | js f | jns f | jp f | jnp f | jl f | jnl f | jle f | jg f
  | loopnz f | loopz f | loop f | jcxz f | push f | pop f | xchg f | inp f | out f | notUsed f =>
    exact absurd h (unsupported_ne_next _ s t)

/-- A step that answers a next state executed the record that the decode at `ip` gave (R205). -/
theorem step_next (h : step s = .next t) : ∃ i n, fetch s = .instr i n ∧ exec i s = .next t := by
  unfold step at h
  split at h
  · rename_i i n hf
    exact ⟨i, n, hf, h⟩
  all_goals simp at h

end Sys2Proof.Machine
end

