-- ==== Sys2Proof/Laws/PerInstr.lean ====
section
/-! SUPPORT. Statements about every instruction as syntax, one lemma per constructor. -/

namespace Sys2Proof.Laws

open Sys2Proof

/-- A record is its kind and its other fields, nothing else (R27). -/
def RecordRebuilt.Statement (i : Instr) : Prop := i.kind.record i.fields = i

theorem RecordRebuilt.mov (f : Fields) : RecordRebuilt.Statement (.mov f) := rfl
theorem RecordRebuilt.add (f : Fields) : RecordRebuilt.Statement (.add f) := rfl
theorem RecordRebuilt.sub (f : Fields) : RecordRebuilt.Statement (.sub f) := rfl
theorem RecordRebuilt.cmp (f : Fields) : RecordRebuilt.Statement (.cmp f) := rfl
theorem RecordRebuilt.jo (f : Fields) : RecordRebuilt.Statement (.jo f) := rfl
theorem RecordRebuilt.jno (f : Fields) : RecordRebuilt.Statement (.jno f) := rfl
theorem RecordRebuilt.jb (f : Fields) : RecordRebuilt.Statement (.jb f) := rfl
theorem RecordRebuilt.jnb (f : Fields) : RecordRebuilt.Statement (.jnb f) := rfl
theorem RecordRebuilt.je (f : Fields) : RecordRebuilt.Statement (.je f) := rfl
theorem RecordRebuilt.jne (f : Fields) : RecordRebuilt.Statement (.jne f) := rfl
theorem RecordRebuilt.jbe (f : Fields) : RecordRebuilt.Statement (.jbe f) := rfl
theorem RecordRebuilt.ja (f : Fields) : RecordRebuilt.Statement (.ja f) := rfl
theorem RecordRebuilt.js (f : Fields) : RecordRebuilt.Statement (.js f) := rfl
theorem RecordRebuilt.jns (f : Fields) : RecordRebuilt.Statement (.jns f) := rfl
theorem RecordRebuilt.jp (f : Fields) : RecordRebuilt.Statement (.jp f) := rfl
theorem RecordRebuilt.jnp (f : Fields) : RecordRebuilt.Statement (.jnp f) := rfl
theorem RecordRebuilt.jl (f : Fields) : RecordRebuilt.Statement (.jl f) := rfl
theorem RecordRebuilt.jnl (f : Fields) : RecordRebuilt.Statement (.jnl f) := rfl
theorem RecordRebuilt.jle (f : Fields) : RecordRebuilt.Statement (.jle f) := rfl
theorem RecordRebuilt.jg (f : Fields) : RecordRebuilt.Statement (.jg f) := rfl
theorem RecordRebuilt.loopnz (f : Fields) : RecordRebuilt.Statement (.loopnz f) := rfl
theorem RecordRebuilt.loopz (f : Fields) : RecordRebuilt.Statement (.loopz f) := rfl
theorem RecordRebuilt.loop (f : Fields) : RecordRebuilt.Statement (.loop f) := rfl
theorem RecordRebuilt.jcxz (f : Fields) : RecordRebuilt.Statement (.jcxz f) := rfl
theorem RecordRebuilt.push (f : Fields) : RecordRebuilt.Statement (.push f) := rfl
theorem RecordRebuilt.pop (f : Fields) : RecordRebuilt.Statement (.pop f) := rfl
theorem RecordRebuilt.xchg (f : Fields) : RecordRebuilt.Statement (.xchg f) := rfl
theorem RecordRebuilt.inp (f : Fields) : RecordRebuilt.Statement (.inp f) := rfl
theorem RecordRebuilt.out (f : Fields) : RecordRebuilt.Statement (.out f) := rfl
theorem RecordRebuilt.notUsed (f : Fields) : RecordRebuilt.Statement (.notUsed f) := rfl

end Sys2Proof.Laws
end

