-- ==== Sys2Proof/Machine/Render.lean ====
section
/-! DEFINITION. The input contract of the text renderer (R88 to R92). The renderer is an external collaborator (R5): nothing
of decoding or execution uses this file. Spellings are those of R88 to R92; the text of a zero direct address is a
DESIGN CHOICE (log 22). -/

namespace Sys2Proof.Machine

open Sys2Proof

/-- The mnemonic of a kind (R88); the spec gives no text for `NotUsed` (R176). -/
def mnemonicText : Kind → Option String
  | .mov => some "mov" | .add => some "add" | .sub => some "sub" | .cmp => some "cmp"
  | .jo => some "jo" | .jno => some "jno" | .jb => some "jb" | .jnb => some "jnb"
  | .je => some "je" | .jne => some "jne" | .jbe => some "jbe" | .ja => some "ja"
  | .js => some "js" | .jns => some "jns" | .jp => some "jp" | .jnp => some "jnp"
  | .jl => some "jl" | .jnl => some "jnl" | .jle => some "jle" | .jg => some "jg"
  | .loopnz => some "loopnz" | .loopz => some "loopz" | .loop => some "loop" | .jcxz => some "jcxz"
  | .push => some "push" | .pop => some "pop" | .xchg => some "xchg"
  | .inp => some "in" | .out => some "out" | .notUsed => none

/-- The letter of a cell with halves, or the name of a cell without. -/
def cellText : GenReg → String
  | .a => "a" | .b => "b" | .c => "c" | .d => "d"
  | .sp => "sp" | .bp => "bp" | .si => "si" | .di => "di"

/-- The register name, respecting the portion (R89). -/
def registerText : RegisterId → Portion → String
  | .segment .es, _ => "es"
  | .segment .cs, _ => "cs"
  | .segment .ss, _ => "ss"
  | .segment .ds, _ => "ds"
  | .general cell, .low8 => cellText cell ++ "l"
  | .general cell, .high8 => cellText cell ++ "h"
  | .general .a, .full16 => "ax"
  | .general .b, .full16 => "bx"
  | .general .c, .full16 => "cx"
  | .general .d, .full16 => "dx"
  | .general cell, .full16 => cellText cell

/-- The addressing mode; the direct address has none (R90). -/
def modeText : AddressingMode → String
  | .direct => ""
  | .bxSi => "bx+si" | .bxDi => "bx+di" | .bpSi => "bp+si" | .bpDi => "bp+di"
  | .si => "si" | .di => "di" | .bp => "bp" | .bx => "bx"

/-- A signed decimal with its sign always shown. -/
def signedText (v : Int) : String := if v < 0 then toString v else "+" ++ toString v

/-- The displayed branch offset: the stored value + 2, a presentation convention only (R91, R136). -/
def displayedOffset (off : Word) : Int := off.toInt + 2

/-- One operand; `none` for an unused slot (R89 to R91). -/
def operandText : Operand → Option String
  | .none => none
  | .register id portion => some (registerText id portion)
  | .immediate v => some (toString v.toInt)
  | .relative off => some ("$" ++ signedText (displayedOffset off))
  | .memory .direct disp => some ("[" ++ toString disp.toInt ++ "]")
  | .memory mode disp =>
    some ("[" ++ modeText mode ++ (if disp = 0 then "" else signedText disp.toInt) ++ "]")

/-- An operand that settles the operation's width in the text (R92). -/
def Operand.showsWidth : Operand → Bool
  | .register _ _ | .relative _ => true
  | .none | .memory _ _ | .immediate _ => false

/-- The size prefix, present when neither operand is a register or a relative immediate (R92); nothing precedes an empty
operand list. -/
def sizePrefix (f : Fields) : Option String :=
  if Operand.showsWidth f.op0 || Operand.showsWidth f.op1 || (f.op0 == .none && f.op1 == .none) then none
  else some (if f.flags.w then "word" else "byte")

/-- The statement of a record: mnemonic, size prefix, operands in slot order (R88, R92). -/
def instrText (i : Instr) : Option String :=
  (mnemonicText i.kind).map fun m =>
    let ops := [operandText i.fields.op0, operandText i.fields.op1].filterMap id
    m ++ (match sizePrefix i.fields with | some p => " " ++ p | none => "") ++
      (if ops.isEmpty then "" else " " ++ ", ".intercalate ops)

end Sys2Proof.Machine
end

