-- ==== Sys2Proof/Tests/Slice0.lean ====
section
/-! SUPPORT. The model's own tests. Expected results are those of the spec's vectors (95_test_vectors.md: S1 to S11, V1 to
V150, P1 to P6) and of the encoding tables of 30_encoding.md, written out by hand; the last part holds, for each
statement with hypotheses, states and operands that meet them. -/

namespace Sys2Proof.Tests

open Sys2Proof Sys2Proof.Machine Sys2Proof.Claims

/-! ## Helpers -/

/-- A decode of these bytes alone, at offset 0. -/
def at0 (bs : List Byte) : Decoded := decode encTabDefault .error (listSource bs) 0

/-- The same under `ZeroPad`. -/
def padded (bs : List Byte) : Decoded := decode encTabDefault .zeroPad (listSource bs) 0

/-- A record without its field flags. -/
structure Shown where
  kind : Kind
  op0 : Operand
  op1 : Operand
  length : Nat
  deriving DecidableEq, Repr

/-- What a step leaves in AX, BX, CX, both flags and `ip`. -/
structure Seen where
  a : Word
  b : Word
  c : Word
  zf : Bool
  sf : Bool
  ip : Addr
  deriving DecidableEq, Repr

/-- A response without the field flags. -/
def shown : Decoded → Option Shown
  | .instr i n => some ⟨i.kind, i.fields.op0, i.fields.op1, n⟩
  | .endOfStream | .truncatedField => none

def al : Operand := .register (.general .a) .low8
def ah : Operand := .register (.general .a) .high8
def bl : Operand := .register (.general .b) .low8
def cl : Operand := .register (.general .c) .low8
def ax : Operand := .register (.general .a) .full16
def bx : Operand := .register (.general .b) .full16
def cx : Operand := .register (.general .c) .full16
def dx : Operand := .register (.general .d) .full16
def es : Operand := .register (.segment .es) .full16
def ds : Operand := .register (.segment .ds) .full16

/-- A start state: AX, BX, CX, both flags and `ip` as given, these bytes loaded from address 0 on. -/
def start (bs : List Byte) (a b c : Word) (zf sf : Bool) (ip : Addr) : State :=
  { regs := { Registers.reset with a := a, b := b, c := c }, zf := zf, sf := sf, ip := ip,
    mem := Memory.ofBytes bs, draws := 0 }

/-- AX, BX, CX, both flags and `ip` of a next state. -/
def seen : Host.Outcome State Fault Refusal → Option Seen
  | .next t => some ⟨t.regs.a, t.regs.b, t.regs.c, t.zf, t.sf, t.ip⟩
  | .fault _ | .refused _ => none

/-- The reason of a stop. -/
def stopOf : Host.Outcome State Fault Refusal → Option Fault
  | .fault e => some e
  | .next _ | .refused _ => none

/-- A record with no field flags. -/
def bare (op0 op1 : Operand) (n : Nat) : Fields := { flags := {}, op0 := op0, op1 := op1, byteLength := n }

/-- Some bytes between others lie at their offset. -/
theorem holdsAt_between (before bs after : List Byte) :
    holdsAt (listSource (before ++ bs ++ after)) before.length bs := by
  intro k count hk
  simp only [listSource, List.append_assoc, ← List.drop_drop, List.drop_left]
  rw [List.drop_append_of_le_length hk.le, List.take_take,
    List.take_append_of_le_length (by simp)]
  rcases Nat.le_total count (bs.length - k) with h | h
  · rw [Nat.min_eq_right h]
  · rw [Nat.min_eq_left h, List.take_of_length_le (by simp), List.take_of_length_le (by simpa using h)]

/-! ## Decoding: a word of every kind, from its encoding table -/

/-- V5, R75: 10001011 00_011_110: reg 3 is BX, mod 0 rm 6 is the direct address, low byte first. -/
theorem test_decode_mov_direct : at0 [0x8B, 0x1E, 0x34, 0x12] =
    .instr (.mov { flags := { d := true, w := true, mod := true, reg := true, rm := true }, op0 := bx, op1 := .memory .direct 4660, byteLength := 4 }) 4 := by decide

/-- V12, R78: the displacement before the immediate. -/
theorem test_decode_mov_longest : at0 [0xC7, 0x06, 0x00, 0x10, 0x34, 0x12] =
    .instr (.mov { flags := { w := true, mod := true, rm := true, imm := true }, op0 := .memory .direct 4096, op1 := .immediate 4660, byteLength := 6 }) 6 := by decide

/-- V26, R75: 00000010 00_000_111. -/
theorem test_decode_add : at0 [0x02, 0x07] =
    .instr (.add { flags := { d := true, mod := true, reg := true, rm := true }, op0 := al, op1 := .memory .bx 0, byteLength := 2 }) 2 := by decide

/-- V41, R77: `S` clear and `W` set takes two immediate bytes. -/
theorem test_decode_add_group : at0 [0x81, 0xC3, 0xE8, 0x03] =
    .instr (.add { flags := { w := true, mod := true, rm := true, imm := true }, op0 := bx, op1 := .immediate 1000, byteLength := 4 }) 4 := by decide

/-- V30, R75: 00101000 11_100_001: rm 1 is CL, reg 4 is AH. -/
theorem test_decode_sub : at0 [0x28, 0xE1] =
    .instr (.sub { flags := { mod := true, reg := true, rm := true }, op0 := cl, op1 := ah, byteLength := 2 }) 2 := by decide

/-- V46, R77: reg 5 of the group. -/
theorem test_decode_sub_group : at0 [0x83, 0xE9, 0x01] =
    .instr (.sub { flags := { w := true, s := true, mod := true, rm := true, imm := true }, op0 := cx, op1 := .immediate 1, byteLength := 3 }) 3 := by decide

/-- V35, R76. -/
theorem test_decode_cmp : at0 [0x3C, 0xFF] =
    .instr (.cmp { flags := { d := true, reg := true, imm := true }, op0 := al, op1 := .immediate (-1), byteLength := 2 }) 2 := by decide

/-- S6, R72: reg 7 of the group. -/
theorem test_decode_cmp_group : at0 [0x83, 0xFB, 0x02] =
    .instr (.cmp { flags := { w := true, s := true, mod := true, rm := true, imm := true }, op0 := bx, op1 := .immediate 2, byteLength := 3 }) 3 := by decide

/-- V52, R79. -/
theorem test_decode_jo : at0 [0x70, 0xFB] =
    .instr (.jo { flags := { rel := true }, op0 := .relative (-5), op1 := .none, byteLength := 2 }) 2 := by decide

/-- V52, R79. -/
theorem test_decode_jno : at0 [0x71, 0xFB] =
    .instr (.jno { flags := { rel := true }, op0 := .relative (-5), op1 := .none, byteLength := 2 }) 2 := by decide

/-- V52, R79. -/
theorem test_decode_jb : at0 [0x72, 0xFB] =
    .instr (.jb { flags := { rel := true }, op0 := .relative (-5), op1 := .none, byteLength := 2 }) 2 := by decide

/-- V52, R79. -/
theorem test_decode_jnb : at0 [0x73, 0xFB] =
    .instr (.jnb { flags := { rel := true }, op0 := .relative (-5), op1 := .none, byteLength := 2 }) 2 := by decide

/-- V52, R79. -/
theorem test_decode_je : at0 [0x74, 0xFB] =
    .instr (.je { flags := { rel := true }, op0 := .relative (-5), op1 := .none, byteLength := 2 }) 2 := by decide

/-- V52, R79. -/
theorem test_decode_jne : at0 [0x75, 0xFB] =
    .instr (.jne { flags := { rel := true }, op0 := .relative (-5), op1 := .none, byteLength := 2 }) 2 := by decide

/-- V52, R79. -/
theorem test_decode_jbe : at0 [0x76, 0xFB] =
    .instr (.jbe { flags := { rel := true }, op0 := .relative (-5), op1 := .none, byteLength := 2 }) 2 := by decide

/-- V52, R79. -/
theorem test_decode_ja : at0 [0x77, 0xFB] =
    .instr (.ja { flags := { rel := true }, op0 := .relative (-5), op1 := .none, byteLength := 2 }) 2 := by decide

/-- V52, R79. -/
theorem test_decode_js : at0 [0x78, 0xFB] =
    .instr (.js { flags := { rel := true }, op0 := .relative (-5), op1 := .none, byteLength := 2 }) 2 := by decide

/-- V52, R79. -/
theorem test_decode_jns : at0 [0x79, 0xFB] =
    .instr (.jns { flags := { rel := true }, op0 := .relative (-5), op1 := .none, byteLength := 2 }) 2 := by decide

/-- V52, R79. -/
theorem test_decode_jp : at0 [0x7A, 0xFB] =
    .instr (.jp { flags := { rel := true }, op0 := .relative (-5), op1 := .none, byteLength := 2 }) 2 := by decide

/-- V52, R79. -/
theorem test_decode_jnp : at0 [0x7B, 0xFB] =
    .instr (.jnp { flags := { rel := true }, op0 := .relative (-5), op1 := .none, byteLength := 2 }) 2 := by decide

/-- V52, R79. -/
theorem test_decode_jl : at0 [0x7C, 0xFB] =
    .instr (.jl { flags := { rel := true }, op0 := .relative (-5), op1 := .none, byteLength := 2 }) 2 := by decide

/-- V52, R79. -/
theorem test_decode_jnl : at0 [0x7D, 0xFB] =
    .instr (.jnl { flags := { rel := true }, op0 := .relative (-5), op1 := .none, byteLength := 2 }) 2 := by decide

/-- V52, R79. -/
theorem test_decode_jle : at0 [0x7E, 0xFB] =
    .instr (.jle { flags := { rel := true }, op0 := .relative (-5), op1 := .none, byteLength := 2 }) 2 := by decide

/-- V52, R79. -/
theorem test_decode_jg : at0 [0x7F, 0xFB] =
    .instr (.jg { flags := { rel := true }, op0 := .relative (-5), op1 := .none, byteLength := 2 }) 2 := by decide

/-- V52, R80. -/
theorem test_decode_loopnz : at0 [0xE0, 0xFB] =
    .instr (.loopnz { flags := { rel := true }, op0 := .relative (-5), op1 := .none, byteLength := 2 }) 2 := by decide

/-- V52, R80. -/
theorem test_decode_loopz : at0 [0xE1, 0xFB] =
    .instr (.loopz { flags := { rel := true }, op0 := .relative (-5), op1 := .none, byteLength := 2 }) 2 := by decide

/-- V52, R80. -/
theorem test_decode_loop : at0 [0xE2, 0xFB] =
    .instr (.loop { flags := { rel := true }, op0 := .relative (-5), op1 := .none, byteLength := 2 }) 2 := by decide

/-- V52, R80. -/
theorem test_decode_jcxz : at0 [0xE3, 0xFB] =
    .instr (.jcxz { flags := { rel := true }, op0 := .relative (-5), op1 := .none, byteLength := 2 }) 2 := by decide

/-- V57, R81. -/
theorem test_decode_push : at0 [0x50] =
    .instr (.push { flags := { d := true, w := true, reg := true }, op0 := ax, op1 := .none, byteLength := 1 }) 1 := by decide

/-- V63, R81: reg 6 of the group. -/
theorem test_decode_push_memory : at0 [0xFF, 0x77, 0x02] =
    .instr (.push { flags := { w := true, mod := true, rm := true }, op0 := .memory .bx 2, op1 := .none, byteLength := 3 }) 3 := by decide

/-- V60, R81. -/
theorem test_decode_pop : at0 [0x1F] =
    .instr (.pop { flags := { d := true, sr := true }, op0 := ds, op1 := .none, byteLength := 1 }) 1 := by decide

/-- V67, R81. -/
theorem test_decode_pop_memory : at0 [0x8F, 0x47, 0xFE] =
    .instr (.pop { flags := { w := true, mod := true, rm := true }, op0 := .memory .bx (-2), op1 := .none, byteLength := 3 }) 3 := by decide

/-- V71, R82. -/
theorem test_decode_xchg : at0 [0x87, 0xD9] =
    .instr (.xchg { flags := { d := true, w := true, mod := true, reg := true, rm := true }, op0 := bx, op1 := cx, byteLength := 2 }) 2 := by decide

/-- V74, R82: the fixed pattern has the register in its reg field. -/
theorem test_decode_xchg_accumulator : at0 [0x91] =
    .instr (.xchg { flags := { w := true, mod := true, reg := true, rm := true }, op0 := ax, op1 := cx, byteLength := 1 }) 1 := by decide

/-- V76, R83: the port is unsigned. -/
theorem test_decode_in : at0 [0xE5, 0xFF] =
    .instr (.inp { flags := { d := true, w := true, reg := true, imm8u := true }, op0 := ax, op1 := .immediate 255, byteLength := 2 }) 2 := by decide

/-- V77, R83: `RMW` makes the port register wide. -/
theorem test_decode_in_dx : at0 [0xEC] =
    .instr (.inp { flags := { d := true, mod := true, reg := true, rm := true, rmw := true }, op0 := al, op1 := dx, byteLength := 1 }) 1 := by decide

/-- V78, R83. -/
theorem test_decode_out : at0 [0xE6, 0x10] =
    .instr (.out { flags := { reg := true, imm8u := true }, op0 := .immediate 16, op1 := al, byteLength := 2 }) 2 := by decide

/-- V80, R83. -/
theorem test_decode_out_dx : at0 [0xEF] =
    .instr (.out { flags := { w := true, mod := true, reg := true, rm := true, rmw := true }, op0 := dx, op1 := ax, byteLength := 1 }) 1 := by decide

/-- V61, R86. -/
theorem test_decode_notUsed : at0 [0x0F] =
    .instr (.notUsed { flags := {}, op0 := .none, op1 := .none, byteLength := 1 }) 1 := by decide

/-- V51, R87: reg 6 of the group has no kind, the operands and the length stay. -/
theorem test_decode_notUsed_group : at0 [0x81, 0xF0, 0x01, 0x00] =
    .instr (.notUsed { flags := { w := true, mod := true, rm := true, imm := true }, op0 := ax, op1 := .immediate 1, byteLength := 4 }) 4 := by decide

/-! ## Decoding: the corners of the field rules -/

/-- S5, V7: an 8-bit displacement is signed. -/
theorem test_displacement_signed :
    shown (at0 [0x8B, 0x46, 0xFE]) = some ⟨.mov, ax, .memory .bp (-2), 3⟩ ∧
    shown (at0 [0x8B, 0x40, 0x80]) = some ⟨.mov, ax, .memory .bxSi (-128), 3⟩ := by decide

/-- V4: mod 1 with rm 6 is BP with a byte, here 0; V6: mod 2 takes two bytes. -/
theorem test_displacement_present :
    shown (at0 [0x8B, 0x5E, 0x00]) = some ⟨.mov, bx, .memory .bp 0, 3⟩ ∧
    shown (at0 [0x8B, 0x80, 0x00, 0x80]) = some ⟨.mov, ax, .memory .bxSi 0x8000, 4⟩ := by decide

/-- V14, V16: the accumulator's direct address, `D` set and clear. -/
theorem test_accumulator_moves :
    shown (at0 [0xA0, 0x34, 0x12]) = some ⟨.mov, al, .memory .direct 4660, 3⟩ ∧
    shown (at0 [0xA2, 0x34, 0x12]) = some ⟨.mov, .memory .direct 4660, al, 3⟩ := by decide

/-- V18, V19, V21: segment moves; bit 5 of the second byte is ignored. -/
theorem test_segment_moves :
    shown (at0 [0x8C, 0xD8]) = some ⟨.mov, ax, ds, 2⟩ ∧ shown (at0 [0x8E, 0xC3]) = some ⟨.mov, es, bx, 2⟩ ∧
    at0 [0x8C, 0xF8] = at0 [0x8C, 0xD8] := by decide

/-- V9: the register of 0xB7 comes from the fixed pattern; a byte immediate is signed. -/
theorem test_register_in_opcode :
    shown (at0 [0xB7, 0x80]) = some ⟨.mov, .register (.general .b) .high8, .immediate (-128), 2⟩ := by decide

/-- V44: 0x82 decodes as 0x80 does, but for the flag `S`. -/
theorem test_0x82 : shown (at0 [0x82, 0xC3, 0xFF]) = shown (at0 [0x80, 0xC3, 0xFF]) := by decide

/-- R62: the eight addressing modes, mod 2. -/
theorem test_addressing_modes :
    (List.range 8).map (fun k => (shown (at0 [0x8B, BitVec.ofNat 8 (0x80 + k), 1, 0])).map fun r => r.op1) =
      [AddressingMode.bxSi, .bxDi, .bpSi, .bpDi, .si, .di, .bp, .bx].map fun m => some (Operand.memory m 1) := by decide

/-- V82 to V84: the opcode byte at or past the end. -/
theorem test_endOfStream :
    at0 [] = .endOfStream ∧ decode encTabDefault .error (listSource [0xB8, 5, 0]) 3 = .endOfStream ∧
    decode encTabDefault .zeroPad (listSource [0xB8, 5, 0]) 4 = .endOfStream := by decide

/-- V23, V64, V86, V87, V91 to V95: short reads under `Error`. -/
theorem test_truncated :
    at0 [0xC7, 0x08] = .truncatedField ∧ at0 [0x8B, 0x46] = .truncatedField ∧ at0 [0x00] = .truncatedField ∧
    at0 [0xB8] = .truncatedField ∧ at0 [0x83, 0xFB] = .truncatedField ∧
    at0 [0xC7, 6, 0, 0x10, 0x34] = .truncatedField ∧ at0 [0xC7, 6, 0] = .truncatedField ∧
    at0 [0x75] = .truncatedField ∧ at0 [0xE4] = .truncatedField := by decide

/-- V64, V85, V88, V90, V93, V96: the same under `ZeroPad`; the one byte that exists is the low byte. -/
theorem test_zeroPad :
    shown (padded [0x8B, 0x46]) = some ⟨.mov, ax, .memory .bp 0, 3⟩ ∧
    shown (decode encTabDefault .zeroPad (listSource [0xB8, 5, 0]) 1) = some ⟨.add, ax, .immediate 0, 3⟩ ∧
    shown (padded [0xB8, 0x05]) = some ⟨.mov, ax, .immediate 5, 3⟩ ∧
    shown (padded [0x8B, 0x1E, 0x34]) = some ⟨.mov, bx, .memory .direct 52, 4⟩ ∧
    shown (padded [0xC7, 6, 0]) = some ⟨.mov, .memory .direct 0, .immediate 0, 6⟩ ∧
    shown (padded [0x81, 0xC3, 0xE8]) = some ⟨.add, bx, .immediate 232, 4⟩ := by decide

/-- V81: an unused byte has length 1 whatever follows. -/
theorem test_unused_bytes :
    [0xF4, 0xCC, 0xF0, 0xD0].map (fun b => shown (at0 [b, 0xC0])) =
      List.replicate 4 (some ⟨.notUsed, .none, .none, 1⟩) := by decide

/-! ## The opcode map (R84), sixteen first bytes a theorem; a group's kind is that of reg 0 -/

/-- The kind of a first byte, its second byte 0. -/
def kindAt (b : Nat) : Kind := (encTabDefault (BitVec.ofNat 8 b)).kindOf 0

def mapRow (hi : Nat) : List Kind := (List.range 16).map fun lo => kindAt (16 * hi + lo)

theorem test_map_0x : mapRow 0x0 =
    [.add, .add, .add, .add, .add, .add, .push, .pop,
      .notUsed, .notUsed, .notUsed, .notUsed, .notUsed, .notUsed, .push, .notUsed] := by decide

theorem test_map_1x : mapRow 0x1 =
    [.notUsed, .notUsed, .notUsed, .notUsed, .notUsed, .notUsed, .push, .pop,
      .notUsed, .notUsed, .notUsed, .notUsed, .notUsed, .notUsed, .push, .pop] := by decide

theorem test_map_2x : mapRow 0x2 =
    [.notUsed, .notUsed, .notUsed, .notUsed, .notUsed, .notUsed, .notUsed, .notUsed,
      .sub, .sub, .sub, .sub, .sub, .sub, .notUsed, .notUsed] := by decide

theorem test_map_3x : mapRow 0x3 =
    [.notUsed, .notUsed, .notUsed, .notUsed, .notUsed, .notUsed, .notUsed, .notUsed,
      .cmp, .cmp, .cmp, .cmp, .cmp, .cmp, .notUsed, .notUsed] := by decide

theorem test_map_5x : mapRow 0x5 =
    [.push, .push, .push, .push, .push, .push, .push, .push,
      .pop, .pop, .pop, .pop, .pop, .pop, .pop, .pop] := by decide

theorem test_map_7x : mapRow 0x7 =
    [.jo, .jno, .jb, .jnb, .je, .jne, .jbe, .ja,
      .js, .jns, .jp, .jnp, .jl, .jnl, .jle, .jg] := by decide

theorem test_map_8x : mapRow 0x8 =
    [.add, .add, .add, .add, .notUsed, .notUsed, .xchg, .xchg,
      .mov, .mov, .mov, .mov, .mov, .notUsed, .mov, .pop] := by decide

theorem test_map_9x : mapRow 0x9 =
    [.xchg, .xchg, .xchg, .xchg, .xchg, .xchg, .xchg, .xchg,
      .notUsed, .notUsed, .notUsed, .notUsed, .notUsed, .notUsed, .notUsed, .notUsed] := by decide

theorem test_map_Ax : mapRow 0xA =
    [.mov, .mov, .mov, .mov, .notUsed, .notUsed, .notUsed, .notUsed,
      .notUsed, .notUsed, .notUsed, .notUsed, .notUsed, .notUsed, .notUsed, .notUsed] := by decide

theorem test_map_Bx : mapRow 0xB =
    [.mov, .mov, .mov, .mov, .mov, .mov, .mov, .mov,
      .mov, .mov, .mov, .mov, .mov, .mov, .mov, .mov] := by decide

theorem test_map_Cx : mapRow 0xC =
    [.notUsed, .notUsed, .notUsed, .notUsed, .notUsed, .notUsed, .mov, .mov,
      .notUsed, .notUsed, .notUsed, .notUsed, .notUsed, .notUsed, .notUsed, .notUsed] := by decide

theorem test_map_Ex : mapRow 0xE =
    [.loopnz, .loopz, .loop, .jcxz, .inp, .inp, .out, .out,
      .notUsed, .notUsed, .notUsed, .notUsed, .inp, .inp, .out, .out] := by decide

theorem test_map_unused : ∀ hi ∈ [0x4, 0x6, 0xD, 0xF], mapRow hi = List.replicate 16 .notUsed := by decide

/-- R77, R78, R81: the kinds of the groups, reg 0 to 7. -/
theorem test_groups :
    arithGroup.toList = [.add, .notUsed, .notUsed, .notUsed, .notUsed, .sub, .notUsed, .cmp] ∧
    movGroup.toList = .mov :: List.replicate 7 .notUsed ∧ popGroup.toList = .pop :: List.replicate 7 .notUsed ∧
    pushGroup.toList = [.notUsed, .notUsed, .notUsed, .notUsed, .notUsed, .notUsed, .push, .notUsed] ∧
    (encTabDefault 0x83).extension = .groupExtended arithGroup ∧ (encTabDefault 0xC6).extension = .groupExtended movGroup ∧
    (encTabDefault 0x8F).extension = .groupExtended popGroup ∧ (encTabDefault 0xFF).extension = .groupExtended pushGroup := by
  decide

/-! ## Encoding -/

/-- The words of the spec's examples, from the records. -/
theorem test_encode :
    encode (.mov { flags := { w := true, mod := true, rm := true, imm := true }, op0 := .memory .direct 4096, op1 := .immediate 4660, byteLength := 6 }) = [0xC7, 6, 0, 0x10, 0x34, 0x12] ∧
    encode (.sub { flags := { mod := true, reg := true, rm := true }, op0 := cl, op1 := ah, byteLength := 2 }) =
      [0x28, 0xE1] ∧
    encode (.jne { flags := { rel := true }, op0 := .relative (-5), op1 := .none, byteLength := 2 }) = [0x75, 0xFB] ∧
    encode (.out { flags := { reg := true, imm8u := true }, op0 := .immediate 16, op1 := al, byteLength := 2 }) =
      [0xE6, 0x10] := by decide

/-- Table words as 30_encoding.md R85 numbers them: a 16-bit word has its first byte on top, a one-byte row its byte
alone, a longer row its next two bytes in the next word. -/
theorem test_decodeTableWord :
    (decodeTableWord 16 0x83FB).map Instr.kind = some .cmp ∧ (decodeTableWord 8 0x50).map Instr.kind = some .push ∧
    (decodeTableWord 16 0xFF30).map Instr.kind = some .push ∧
    (decodeTableWord 32 0x0002_83FB).map (fun i => i.fields.op1) = some (.immediate 0) ∧
    (decodeTableWord 32 0x0200_83FB).map (fun i => i.fields.op1) = some (.immediate 2) := by decide

/-! ## WellFormed: one ill-formed term for each check, refused -/

/-- `isRmReg`: the flag `REL` does not belong to the format. -/
theorem test_wf_flags : Instr.wf (.add { flags := { w := true, mod := true, reg := true, rm := true, rel := true }, op0 := ax, op1 := bx, byteLength := 2 }) = false := by decide

/-- `isReg`: a byte register in the word bank. -/
theorem test_wf_bank : Instr.wf (.add { flags := { w := true, mod := true, reg := true, rm := true }, op0 := ax, op1 := bl, byteLength := 2 }) = false := by decide

/-- `hasHalves`: SP has no low half. -/
theorem test_wf_halves : Instr.wf (.add { flags := { mod := true, reg := true, rm := true }, op0 := .register (.general .sp) .low8, op1 := al, byteLength := 2 }) = false := by decide

/-- `isRmOf`: no three-byte record has a register rm operand. -/
theorem test_wf_rm_length : Instr.wf (.add { flags := { w := true, mod := true, reg := true, rm := true }, op0 := ax, op1 := bx, byteLength := 3 }) = false := by decide

/-- `isRmOf`: a record of one byte has no mod/reg/rm byte. -/
theorem test_wf_rm_short : Instr.wf (.add { flags := { w := true, mod := true, reg := true, rm := true }, op0 := ax, op1 := bx, byteLength := 1 }) = false := by decide

/-- `isRm`: BP without a displacement byte. -/
theorem test_wf_bp_mod0 : Instr.wf (.add { flags := { w := true, mod := true, reg := true, rm := true }, op0 := .memory .bp 0, op1 := bx, byteLength := 2 }) = false := by decide

/-- `isRm`: a displacement without a byte. -/
theorem test_wf_disp_absent : Instr.wf (.add { flags := { w := true, mod := true, reg := true, rm := true }, op0 := .memory .bx 4, op1 := bx, byteLength := 2 }) = false := by decide

/-- `isRm`: 128 is no signed byte. -/
theorem test_wf_disp_byte : Instr.wf (.add { flags := { w := true, mod := true, reg := true, rm := true }, op0 := .memory .bx 128, op1 := bx, byteLength := 3 }) = false := by decide

/-- `isRm`: three displacement bytes. -/
theorem test_wf_disp_long : Instr.wf (.add { flags := { w := true, mod := true, reg := true, rm := true }, op0 := .memory .bx 4, op1 := bx, byteLength := 5 }) = false := by decide

/-- `isRm`: the direct address has two bytes. -/
theorem test_wf_direct : Instr.wf (.add { flags := { w := true, mod := true, reg := true, rm := true }, op0 := .memory .direct 4, op1 := bx, byteLength := 3 }) = false := by decide

/-- `isRmSreg`, `isSegment`: a general register in the segment slot. -/
theorem test_wf_segment : Instr.wf (.mov { flags := { w := true, mod := true, rm := true, sr := true }, op0 := ax, op1 := bx, byteLength := 2 }) = false := by decide

/-- `isAccMoffs`: BX is not the accumulator. -/
theorem test_wf_moffs : Instr.wf (.mov { flags := { d := true, w := true, mod := true, reg := true, rm := true }, op0 := bx, op1 := .memory .direct 4, byteLength := 3 }) = false := by decide

/-- `isAccMoffs`: an addressing mode that is not direct. -/
theorem test_wf_moffs_mode : Instr.wf (.mov { flags := { d := true, w := true, mod := true, reg := true, rm := true }, op0 := ax, op1 := .memory .bx 200, byteLength := 3 }) = false := by decide

/-- `isRegImm`: a 16-bit move of three bytes, not two. -/
theorem test_wf_reg_imm : Instr.wf (.mov { flags := { d := true, w := true, reg := true, imm := true }, op0 := ax, op1 := .immediate 5, byteLength := 2 }) = false := by decide

/-- `isImmediate`: 128 is no signed byte. -/
theorem test_wf_imm_byte : Instr.wf (.mov { flags := { d := true, reg := true, imm := true }, op0 := al, op1 := .immediate 128, byteLength := 2 }) = false := by decide

/-- `isAccImm`: BX is not the accumulator. -/
theorem test_wf_acc_imm : Instr.wf (.add { flags := { d := true, w := true, reg := true, imm := true }, op0 := bx, op1 := .immediate 5, byteLength := 3 }) = false := by decide

/-- `isGrpRmImm`: the move group has no entry with `S`. -/
theorem test_wf_group_s : Instr.wf (.mov { flags := { w := true, s := true, mod := true, rm := true, imm := true }, op0 := ax, op1 := .immediate 5, byteLength := 3 }) = false := by decide

/-- `isGrpRmImm`: a register where the immediate stands. -/
theorem test_wf_group_imm : Instr.wf (.add { flags := { w := true, mod := true, rm := true, imm := true }, op0 := ax, op1 := bx, byteLength := 4 }) = false := by decide

/-- `isGrpRm`: a second operand. -/
theorem test_wf_group_rm : Instr.wf (.push { flags := { w := true, mod := true, rm := true }, op0 := .memory .bx 0, op1 := ax, byteLength := 2 }) = false := by decide

/-- `isRegInOpcode`: a byte register. -/
theorem test_wf_push : Instr.wf (.push { flags := { d := true, w := true, reg := true }, op0 := al, op1 := .none, byteLength := 1 }) = false := by decide

/-- `isSregInOpcode`: no byte pops CS. -/
theorem test_wf_pop_cs : Instr.wf (.pop { flags := { d := true, sr := true }, op0 := .register (.segment .cs) .full16, op1 := .none, byteLength := 1 }) = false := by decide

/-- `isRmReg` of an exchange: `D` clear. -/
theorem test_wf_xchg_d : Instr.wf (.xchg { flags := { w := true, mod := true, reg := true, rm := true }, op0 := bx, op1 := cx, byteLength := 2 }) = false := by decide

/-- `isAccReg`: CX is not the accumulator. -/
theorem test_wf_xchg_acc : Instr.wf (.xchg { flags := { w := true, mod := true, reg := true, rm := true }, op0 := cx, op1 := bx, byteLength := 1 }) = false := by decide

/-- `isPort`: 256 is no unsigned byte. -/
theorem test_wf_in_port : Instr.wf (.inp { flags := { d := true, reg := true, imm8u := true }, op0 := al, op1 := .immediate 256, byteLength := 2 }) = false := by decide

/-- `isAccImm8u`: an input with `D` clear. -/
theorem test_wf_in_d : Instr.wf (.inp { flags := { reg := true, imm8u := true }, op0 := .immediate 16, op1 := al, byteLength := 2 }) = false := by decide

/-- `isAccDx`: CX is no port register. -/
theorem test_wf_out_dx : Instr.wf (.out { flags := { mod := true, reg := true, rm := true, rmw := true }, op0 := cx, op1 := al, byteLength := 1 }) = false := by decide

/-- `isRel8`: 128 is no signed byte. -/
theorem test_wf_rel : Instr.wf (.jne { flags := { rel := true }, op0 := .relative 128, op1 := .none, byteLength := 2 }) = false := by decide

/-- `isRel8`: the offset in slot 1. -/
theorem test_wf_rel_slot : Instr.wf (.loop { flags := { rel := true }, op0 := .none, op1 := .relative 2, byteLength := 2 }) = false := by decide

/-- `isUnused`: two bytes. -/
theorem test_wf_unused : Instr.wf (.notUsed { flags := {}, op0 := .none, op1 := .none, byteLength := 2 }) = false := by decide

/-- R69: a table entry that breaks W1, W2, W3, W4, W5 or W6 is not well formed. -/
theorem test_wf_tables :
    EncodingDescriptor.w1 ⟨.groupExtended arithGroup, .single, {}, 0⟩ = false ∧
    EncodingDescriptor.w2 ⟨.simple .mov, .single, { reg := true, sr := true }, 0⟩ = false ∧
    EncodingDescriptor.w3 ⟨.groupExtended arithGroup, .withModByte, { sr := true }, 0⟩ = false ∧
    EncodingDescriptor.w4 ⟨.simple .mov, .single, { imm := true, rel := true }, 0⟩ = false ∧
    EncodingDescriptor.w5 ⟨.simple .mov, .withModByte, { reg := true, rm := true, imm := true }, 0⟩ = false ∧
    EncodingDescriptor.w6 ⟨.simple .mov, .single, { mod := true }, 0⟩ = false ∧
    EncodingDescriptor.wellFormed ⟨.simple .mov, .single, { rmw := true }, 0⟩ = false := by decide

/-! ## Single steps -/

/-- V98: a move writes no flag. -/
theorem test_mov_flags :
    seen (step (start [0xB8, 0x05, 0x00] 0x1234 0x0000 0x0000 true true 0x0000)) =
      some ⟨0x0005, 0x0000, 0x0000, true, true, 0x0003⟩ := by decide

/-- V100: a write of the high half keeps the low half. -/
theorem test_mov_high :
    seen (step (start [0xB4, 0x80] 0x1234 0x0000 0x0000 false false 0x0000)) =
      some ⟨0x8034, 0x0000, 0x0000, false, false, 0x0002⟩ := by decide

/-- V110, S7: 0x8000 + 0x8000. -/
theorem test_add_wrap :
    seen (step (start [0x01, 0xD8] 0x8000 0x8000 0x0000 false true 0x0000)) =
      some ⟨0x0000, 0x8000, 0x0000, true, false, 0x0002⟩ := by decide

/-- V125: AL becomes 0, the zero flag is clear: the flags are those of 16 bits. -/
theorem test_add_byte :
    seen (step (start [0x00, 0xD8] 0x0080 0x0080 0x0000 true true 0x0000)) =
      some ⟨0x0000, 0x0080, 0x0000, false, false, 0x0002⟩ := by decide

/-- V115: destination minus source. -/
theorem test_sub_borrow :
    seen (step (start [0x29, 0xD8] 0x0000 0x0001 0x0000 false false 0x0000)) =
      some ⟨0xFFFF, 0x0001, 0x0000, false, true, 0x0002⟩ := by decide

/-- V131: CL minus AH. -/
theorem test_sub_halves :
    seen (step (start [0x28, 0xE1] 0x0300 0x0000 0x0002 false false 0x0000)) =
      some ⟨0x0300, 0x0000, 0x00FF, false, true, 0x0002⟩ := by decide

/-- V118: the result is discarded. -/
theorem test_cmp_less :
    seen (step (start [0x39, 0xD8] 0x0003 0x0005 0x0000 false false 0x0000)) =
      some ⟨0x0003, 0x0005, 0x0000, false, true, 0x0002⟩ := by decide

/-- V128: equal as bytes, the zero flag is clear. -/
theorem test_cmp_byte :
    seen (step (start [0x3C, 0xFF] 0x00FF 0x0000 0x0000 true true 0x0000)) =
      some ⟨0x00FF, 0x0000, 0x0000, false, false, 0x0002⟩ := by decide

/-- V134, V135: taken from the advanced pointer when the zero flag is clear. -/
theorem test_jne :
    seen (exec (.jne (bare (.relative (-5)) .none 2)) (start [] 1 2 3 false true 0x0010)) = some ⟨1, 2, 3, false, true, 0x000D⟩ ∧
    seen (exec (.jne (bare (.relative (-5)) .none 2)) (start [] 1 2 3 true false 0x0010)) = some ⟨1, 2, 3, true, false, 0x0012⟩ := by
  decide

/-- V142, V143, V139: the pointer wraps. -/
theorem test_jne_wrap :
    seen (exec (.jne (bare (.relative 16) .none 2)) (start [] 0 0 0 false false 0xFFFE)) = some ⟨0, 0, 0, false, false, 0x0010⟩ ∧
    seen (exec (.jne (bare (.relative 16) .none 2)) (start [] 0 0 0 true false 0xFFFE)) = some ⟨0, 0, 0, true, false, 0x0000⟩ ∧
    seen (exec (.jne (bare (.relative (-128)) .none 2)) (start [] 0 0 0 false false 0)) = some ⟨0, 0, 0, false, false, 0xFF82⟩ := by
  decide

/-- V105: a memory destination is accepted and not written. -/
theorem test_memory_destination :
    seen (step (start [0x89, 0x07] 0x1111 0x2222 0 true false 0)) = some ⟨0x1111, 0x2222, 0, true, false, 2⟩ := by decide

/-- V107: a memory source gives the free value under `Draw`, and raises under `Fault`. -/
theorem test_memory_source :
    step (start [0x8B, 0x07] 0x1111 0 0 false false 0) =
      .next { start [0x8B, 0x07] (Config.freeWord 0) 0 0 false false 2 with draws := 1 } ∧
    stopOf (stepUnder encTabDefault .error .fault (start [0x8B, 0x07] 0x1111 0 0 false false 0)) =
      some .unsupportedOperand := ⟨rfl, rfl⟩

/-- V133: an addition to memory takes its flags from the free value. -/
theorem test_memory_arithmetic :
    step (start [0x01, 0x07] 0x1111 0 0 false false 0) =
      .next { start [0x01, 0x07] 0x1111 0 0 (zeroOf (Config.freeWord 0 + 0x1111)) (signOf (Config.freeWord 0 + 0x1111)) 2 with
        draws := 1 } := rfl

/-- V108, V109: segment moves raise. -/
theorem test_segment_moves_raise :
    stopOf (step (start [0x8E, 0xD8] 0x1111 0 0 false false 0)) = some .unsupportedOperand ∧
    stopOf (step (start [0x8C, 0xD8] 0x1111 0 0 false false 0)) = some .unsupportedOperand := by decide

/-- V144: the kinds without execution, with the kind in the error. -/
theorem test_unsupported :
    [([0x50], Kind.push), ([0x5B], .pop), ([0x90], .xchg), ([0x74, 2], .je), ([0xE2, 0xFE], .loop), ([0xE3, 0], .jcxz),
      ([0xE4, 0x10], .inp), ([0xEE], .out), ([0xF4], .notUsed)].map
      (fun p => stopOf (step (start p.1 0x1111 0x2222 0 true false 0)) == some (.unsupportedInstruction p.2)) =
      List.replicate 9 true := by decide

/-- V145, V146, V148, V149, V150: records no decode gives. -/
theorem test_malformed_records :
    let s := start [] 1 2 3 false false 0
    stopOf (exec (.mov (bare (.immediate 1) ax 2)) s) = some .unsupportedOperand ∧
    stopOf (exec (.add (bare ax .none 2)) s) = some .unsupportedOperand ∧
    stopOf (exec (.jne (bare (.immediate 4) .none 2)) s) = some .unsupportedOperand ∧
    stopOf (exec (.sub (bare ax (.relative 1) 2)) s) = some .unsupportedOperand ∧
    stopOf (exec (.push (bare (.immediate 1) .none 2)) s) = some (.unsupportedInstruction .push) := by decide

/-- V147: a comparison of two immediates completes. -/
theorem test_cmp_immediates :
    seen (exec (.cmp (bare (.immediate 1) (.immediate 1) 3)) (start [] 1 2 3 false true 0)) =
      some ⟨1, 2, 3, true, false, 3⟩ := by decide

/-- R42, R182: a step past the end, and one whose immediate is cut off. -/
theorem test_step_ends :
    stopOf (step (start [0x90] 0 0 0 false false 1)) = some .endOfStream ∧
    stopOf (step (start [0xB8, 5] 0 0 0 false false 0)) = some .truncatedField ∧ stopOf (step State.reset) = some .endOfStream := by
  decide

/-- The load of a table word where the next fetch looks: after reset, and at another pointer. -/
theorem test_withFetchWord :
    seen (step (State.reset.withFetchWord 24 0xFF00_B8FF)) = some ⟨0xFF, 0, 0, false, false, 3⟩ ∧
    seen (step ((start [0x0F] 0 7 0 false false 4).withFetchWord 16 0x83FB)) = some ⟨0, 7, 0, false, false, 7⟩ ∧
    ((start [0x0F] 0 7 0 false false 4).withFetchWord 8 0x50).mem.bytes = [0x0F, 0, 0, 0, 0x50, 0, 0, 0, 0, 0] := by decide

/-! ## Text (R88 to R92) -/

/-- R90 to R92 and S9: the displacement is left out when 0, a size where no operand shows it, a branch shown from its own
start. -/
theorem test_text :
    (match at0 [0xC7, 0x47, 0x02, 0xFF, 0xFF] with | .instr i _ => instrText i | _ => none) = some "mov word [bx+2], -1" ∧
    (match at0 [0x03, 0x1B] with | .instr i _ => instrText i | _ => none) = some "add bx, [bp+di]" ∧
    (match at0 [0x75, 0xFB] with | .instr i _ => instrText i | _ => none) = some "jne $-3" ∧
    (match at0 [0x53] with | .instr i _ => instrText i | _ => none) = some "push bx" := by decide

/-! ## Witnesses: for each statement with hypotheses, data that meet them all, clause by clause -/

/-- Every hypothesis about a step that completes is met: a move, an addition, a subtraction, a comparison and a
jump-if-not-zero, taken and not taken, each from a state with the canonical Byte Source. -/
theorem witness_steps_complete :
    ∀ p ∈ [([0xB8, 5, 0], false), ([0x01, 0xD8], false), ([0x29, 0xD8], false), ([0x39, 0xD8], false), ([0x75, 0xFB], false),
      ([0x75, 0xFB], true)], (start p.1 1 2 3 p.2 false 0).mem.wf = true ∧ (seen (step (start p.1 1 2 3 p.2 false 0))).isSome = true := by
  decide

/-- StepKeepsByteSourceCanonical. -/
theorem witness_StepKeepsByteSourceCanonical :
    (State.boot [0xB8, 5, 0]).Inv ∧
      step (State.boot [0xB8, 5, 0]) =
        .next { State.boot [0xB8, 5, 0] with regs := { Registers.reset with a := 5 }, ip := 3 } := ⟨rfl, rfl⟩

/-- ReadBytesClampsAtTheEnd, EndOfStreamExactlyPastTheEnd: the last byte, and the first address past it. -/
theorem witness_canonical_memory :
    let m := Memory.ofBytes [0xB8, 5, 0]
    m.wf = true ∧ m.size = 3 ∧ m.readBytes 2 2 = [0] ∧ m.readBytes 3 2 = [] ∧ m.byte? 2 = some 0 ∧ m.byte? 3 = none ∧
    decode encTabDefault .error m.readBytes 3 = .endOfStream ∧ decode encTabDefault .error m.readBytes 2 = .truncatedField := by
  decide

/-- LoadedFileReadsBack: a file of three bytes, its last byte and the address past it. -/
theorem witness_LoadedFileReadsBack :
    let bs : List Byte := [0xB8, 5, 0]
    bs.length ≤ 65536 ∧ (Memory.ofBytes bs).byte? 2 = some 0 ∧ (Memory.ofBytes bs).byte? 3 = none := by decide

/-- RegisterViewsAliasOneCell: another cell, a view written beside its other half, and a half read back. -/
theorem witness_RegisterViewsAliasOneCell :
    GenReg.b ≠ GenReg.a ∧ (Registers.reset.write .a .high8 0x12FF).read .a .high8 = 0x00FF ∧
    ((start [] 0x1234 0x5678 0 false false 0).regs.write .a .low8 0xFFFF).get .a = 0x12FF ∧
    ((start [] 0x1234 0x5678 0 false false 0).regs.write .a .low8 0xFFFF).get .b = 0x5678 := by decide

/-- MovCompletes, AddCompletes, SubCompletes: every destination with every source: the three views and memory, against
the three views, memory and an immediate. -/
theorem witness_destinations_and_sources :
    (∀ o ∈ [ax, al, ah, .memory .direct 0], isDestination o = true) ∧
    (∀ o ∈ [bx, bl, ah, .memory .bxSi 7, .immediate 0xFFFF], isValue o = true) := by decide

/-- MovCompletes: at a memory destination with a memory source, and at the bounds of a byte view. -/
theorem witness_MovCompletes :
    exec (.mov (bare (.memory .bx 0) (.memory .si 0) 4)) State.reset = .next { State.reset with ip := 4, draws := 1 } ∧
    seen (exec (.mov (bare ah (.immediate 0xFFFF) 3)) State.reset) = some ⟨0xFF00, 0, 0, false, false, 3⟩ := ⟨rfl, rfl⟩

/-- AddCompletes: both operands in memory, two draws. -/
theorem witness_AddCompletes :
    isDestination (.memory .bx 0) = true ∧ isValue (.memory .si 0) = true ∧
    exec (.add (bare (.memory .bx 0) (.memory .si 0) 4)) State.reset =
      .next { State.reset with
        zf := zeroOf (Config.freeWord 0 + Config.freeWord 1), sf := signOf (Config.freeWord 0 + Config.freeWord 1)
        ip := 4, draws := 2 } := ⟨rfl, rfl, rfl⟩

/-- SubCompletes: a source above the destination. -/
theorem witness_SubCompletes :
    isDestination al = true ∧ isValue (.immediate 1) = true ∧
    seen (exec (.sub (bare al (.immediate 1) 2)) (start [] 0x5500 0 0 false false 0)) =
      some ⟨0x55FF, 0, 0, false, true, 2⟩ := by decide

/-- CmpCompletes: an immediate in slot 0, which no destination could be. -/
theorem witness_CmpCompletes :
    isValue (.immediate 0) = true ∧ isValue (.immediate 0x8000) = true ∧ isDestination (.immediate 0) = false ∧
    seen (exec (.cmp (bare (.immediate 0) (.immediate 0x8000) 3)) State.reset) = some ⟨0, 0, 0, false, true, 3⟩ := by decide

/-- JneCompletes: the least and the greatest 16-bit offset, taken. -/
theorem witness_JneCompletes :
    (bare (.relative 0x8000) .none 2).op0 = .relative 0x8000 ∧
    seen (exec (.jne (bare (.relative 0x8000) .none 2)) State.reset) = some ⟨0, 0, 0, false, false, 0x8002⟩ ∧
    seen (exec (.jne (bare (.relative 0x7FFF) .none 2)) State.reset) = some ⟨0, 0, 0, false, false, 0x8001⟩ := by decide

/-- UnsupportedKindsStopTheRun: a record of such a kind, fetched, raised and listed. -/
theorem witness_UnsupportedKindsStopTheRun :
    let i := Instr.push { flags := { d := true, w := true, reg := true }, op0 := ax, op1 := .none, byteLength := 1 }
    executed i.kind = false ∧ fetch (State.boot [0x50]) = .instr i 1 ∧
    exec i State.reset = .fault (.unsupportedInstruction .push) ∧
    decode encTabDefault .error (Memory.ofBytes [0x50]).readBytes 0 = .instr i 1 := ⟨rfl, rfl, rfl, rfl⟩

/-- OperandShapesThatRaise: shapes on both sides, under both policies. -/
theorem witness_OperandShapesThatRaise :
    raisesOperand .draw (.mov (bare es ax 2)) = true ∧ raisesOperand .draw (.mov (bare ax (.memory .bx 0) 2)) = false ∧
    raisesOperand .fault (.mov (bare ax (.memory .bx 0) 2)) = true ∧
    raisesOperand .fault (.mov (bare (.memory .bx 0) ax 2)) = false ∧
    raisesOperand .fault (.add (bare (.memory .bx 0) ax 2)) = true ∧
    raisesOperand .draw (.cmp (bare (.immediate 0) ax 2)) = false := by decide

/-- CompletedInstructionAdvancesPointer: not a jump, a jump not taken, a jump taken, each across the end of the pointer. -/
theorem witness_CompletedInstructionAdvancesPointer :
    seen (exec (.mov (bare ax bx 3)) (start [] 1 2 3 false false 0xFFFE)) = some ⟨2, 2, 3, false, false, 1⟩ ∧
    seen (exec (.jne (bare (.relative 4) .none 2)) (start [] 1 2 3 true false 0xFFFE)) = some ⟨1, 2, 3, true, false, 0⟩ ∧
    seen (exec (.jne (bare (.relative 4) .none 2)) (start [] 1 2 3 false false 0xFFFE)) = some ⟨1, 2, 3, false, false, 4⟩ := by
  decide

/-- CompletedInstructionFrame: another cell, the half a view leaves out, a kind that writes no destination, and one that
writes no flag. -/
theorem witness_CompletedInstructionFrame :
    seen (exec (.add (bare al (.immediate 1) 2)) (start [] 0x12FF 7 8 false false 0)) =
      some ⟨0x1200, 7, 8, false, false, 2⟩ ∧
    seen (exec (.mov (bare ah (.immediate 1) 2)) (start [] 0x12FF 7 8 true true 0)) =
      some ⟨0x01FF, 7, 8, true, true, 2⟩ ∧
    writesDestination .cmp = false ∧
    seen (exec (.cmp (bare ax bx 2)) (start [] 0x12FF 7 8 true true 0)) = some ⟨0x12FF, 7, 8, false, false, 2⟩ := by decide

/-- FlagsAreReadByJneOnly: a kind other than `Jne`, which completes alike over another ZF; `Jne` itself, which is excepted
for a reason; and both flags of a move and of a comparison over another SF. -/
theorem witness_FlagsAreReadByJneOnly :
    (Instr.mov (bare ax bx 2)).kind ≠ .jne ∧
    seen (exec (.mov (bare ax bx 2)) (start [] 1 2 3 true false 0)) = some ⟨2, 2, 3, true, false, 2⟩ ∧
    seen (exec (.mov (bare ax bx 2)) (start [] 1 2 3 false false 0)) = some ⟨2, 2, 3, false, false, 2⟩ ∧
    seen (exec (.mov (bare ax bx 2)) (start [] 1 2 3 false true 0)) = some ⟨2, 2, 3, false, true, 2⟩ ∧
    seen (exec (.cmp (bare ax bx 2)) (start [] 1 2 3 false true 0)) = some ⟨1, 2, 3, false, true, 2⟩ ∧
    seen (exec (.cmp (bare ax bx 2)) (start [] 1 2 3 false false 0)) = some ⟨1, 2, 3, false, true, 2⟩ ∧
    seen (exec (.jne (bare (.relative 4) .none 2)) { State.reset with zf := true }) ≠
      seen (exec (.jne (bare (.relative 4) .none 2)) State.reset) := by decide

/-- ExecutionMakesNoMemoryAccess: an execution that completes with a memory destination. -/
theorem witness_ExecutionMakesNoMemoryAccess :
    exec (.mov (bare (.memory .bx 0) ax 2)) (State.boot [0x89, 0x07]) = .next { State.boot [0x89, 0x07] with ip := 2 } := rfl

/-- ExecutionWithoutMemoryReadIsDeterministic: a move to memory reads none; an addition to memory reads it. -/
theorem witness_ExecutionWithoutMemoryReadIsDeterministic :
    readsNoMemory (.mov (bare (.memory .bx 0) ax 2)) = true ∧ readsNoMemory (.add (bare ax bx 2)) = true ∧
    readsNoMemory (.add (bare (.memory .bx 0) ax 2)) = false ∧ readsNoMemory (.mov (bare ax (.memory .bx 0) 2)) = false := by
  decide

/-- FaultPolicyDrawsNothing: a move to memory completes under `Fault`. -/
theorem witness_FaultPolicyDrawsNothing :
    stepUnder encTabDefault .error .fault (State.boot [0x89, 0x07]) = .next { State.boot [0x89, 0x07] with ip := 2 } := rfl

/-- StepRunsDecodedInstruction, StepRunsEncodedInstruction: a well-formed record whose bytes lie at the pointer. -/
theorem witness_StepRunsEncodedInstruction :
    let i := Instr.mov { flags := { d := true, w := true, reg := true, imm := true }, op0 := ax, op1 := .immediate 5, byteLength := 3 }
    let s := start [0x0F, 0xB8, 5, 0] 0 0 0 false false 1
    i.wf = true ∧ s.mem.readBytes s.ip.toNat i.fields.byteLength = encode i ∧
    decode encTabDefault .error s.mem.readBytes s.ip.toNat = .instr i 3 := by decide

/-- FetchWordRunsItsInstruction: at reset and at the last pointer it covers. -/
theorem witness_FetchWordRunsItsInstruction :
    (∃ i, decodeTableWord 16 0x83FB = some i) ∧ State.reset.ip.toNat + maxInstrBytes ≤ 65536 ∧
    (0xFFFA : Addr).toNat + maxInstrBytes ≤ 65536 ∧ ¬ (0xFFFB : Addr).toNat + maxInstrBytes ≤ 65536 :=
  ⟨⟨_, rfl⟩, by decide, by decide, by decide⟩

/-- FullByteSourceNeverEndsNormally: a Byte Source of 65536 bytes. -/
theorem witness_FullByteSourceNeverEndsNormally :
    (State.boot (List.replicate 65536 0x90)).Inv ∧ (State.boot (List.replicate 65536 0x90)).mem.size = 65536 :=
  ⟨Memory.ofBytes_wf _, by rw [State.boot_mem, Memory.size_ofBytes, List.length_replicate]; rfl⟩

/-- OnlySegmentMovesRaiseUnsupportedOperand: both bytes, and one that is cut off and so does not raise it. -/
theorem witness_OnlySegmentMovesRaiseUnsupportedOperand :
    (∃ i n, fetch (State.boot [0x8C, 0xD8]) = .instr i n) ∧ (State.boot [0x8C, 0xD8]).mem.byte? 0 = some 0x8C ∧
    (∃ i n, fetch (State.boot [0x8E, 0xD8]) = .instr i n) ∧ (State.boot [0x8E, 0xD8]).mem.byte? 0 = some 0x8E ∧
    fetch (State.boot [0x8C]) = .truncatedField := ⟨⟨_, _, rfl⟩, rfl, ⟨_, _, rfl⟩, rfl, rfl⟩

/-- ErrorLeavesStateOfCompletedSteps, EndedRunIsFinal: a run of one step and then an error. -/
theorem witness_ErrorLeavesStateOfCompletedSteps :
    runExecute 2 (State.boot [0x89, 0xD8, 0x50]) =
      ({ State.boot [0x89, 0xD8, 0x50] with ip := 2 }, .fault (.unsupportedInstruction .push)) := rfl

/-- ListingEndsAndAdvancesByLength: two records, the second at offset 3, and the end of the source after them; a record
and a cut-off one after it; no record. -/
theorem witness_ListingEndsAndAdvancesByLength :
    let m := Memory.ofBytes [0xB8, 5, 0, 0x50]
    let cut := Memory.ofBytes [0x50, 0xB8]
    (m.wf = true ∧ (runDisassemble m).1.map Prod.fst = [0, 3] ∧ (runDisassemble m).2 = .endOfStream ∧
      offsetAfter 0 (runDisassemble m).1 = 4) ∧
    (cut.wf = true ∧ (runDisassemble cut).1.map Prod.fst = [0] ∧ (runDisassemble cut).2 = .truncatedField ∧
      offsetAfter 0 (runDisassemble cut).1 = 1 ∧
      decode encTabDefault .error cut.readBytes 1 = .truncatedField) ∧
    Memory.wf [] = true ∧ runDisassemble [] = ([], .endOfStream) := by decide

/-- DecodeOfEncodeIsTheRecord: a well-formed record between other bytes. -/
theorem witness_DecodeOfEncodeIsTheRecord :
    let i := Instr.add { flags := { d := true, w := true, mod := true, reg := true, rm := true }, op0 := bx, op1 := .memory .bpDi 0, byteLength := 2 }
    i.wf = true ∧ encode i = [0x03, 0x1B] ∧ holdsAt (listSource ([0x0F] ++ [0x03, 0x1B] ++ [0x50])) 1 (encode i) := by
  refine ⟨by decide, by decide, ?_⟩
  exact holdsAt_between [0x0F] [0x03, 0x1B] [0x50]

/-- EncodeOfDecodeIsTheBytes, DecodedRecordsAreWellFormed, RecordLengthBounds: a record that decodes, of the greatest length, neither unused nor a
segment move. -/
theorem witness_EncodeOfDecodeIsTheBytes :
    let i := Instr.mov { flags := { w := true, mod := true, rm := true, imm := true }, op0 := .memory .direct 4096, op1 := .immediate 4660, byteLength := 6 }
    at0 [0xC7, 6, 0, 0x10, 0x34, 0x12, 0x50] = .instr i 6 ∧ i.kind ≠ .notUsed ∧ (i.fields.flags.sr && i.fields.flags.rm) = false := by
  decide

/-- RecordLengthLaw: an entry of each size class. -/
theorem witness_RecordLengthLaw :
    (encTabDefault 0xB8).sizeClass = .single ∧ (encTabDefault 0x03).sizeClass = .withModByte ∧
    shown (at0 [0xB8, 5, 0]) = some ⟨.mov, ax, .immediate 5, 3⟩ ∧ shown (at0 [0x03, 0x1B]) = some ⟨.add, bx, .memory .bpDi 0, 2⟩ := by
  decide

/-- RecordLengthBounds, WellFormedTableOperandShapes: a table all of whose entries are well formed, and a record it gives; and a table with a record
of seven bytes. -/
theorem witness_RecordLengthBounds :
    (∀ b, ((fun _ => rowRmReg .mov 0x8B : EncodingTable) b).wellFormed = true) ∧
    shown (decode (fun _ => rowRmReg .mov 0x8B) .error (listSource [0, 0xC3]) 0) = some ⟨.mov, ax, bx, 2⟩ ∧
    (shown (decode (fun _ => ⟨.simple .mov, .withModByte, { w := true, rm := true, imm := true, rel := true }, 0⟩) .error
      (listSource [0, 0x06, 1, 2, 3, 4, 5]) 0)).map Shown.length = some 7 := by
  exact ⟨fun _ => rfl, by decide, by decide⟩

/-- ModByteLengthAndAbsentDisplacement: mod 0, rm 5, beside rm 6, which the second part leaves out. -/
theorem witness_ModByteLengthAndAbsentDisplacement :
    listSource [0x03, 0x05] 0 1 = [0x03] ∧ (encTabDefault 0x03).sizeClass = .withModByte ∧
    patternStep .error (listSource [0x03, 0x05]) 0 (encTabDefault 0x03) = some ⟨0x05, 2⟩ ∧ modField 0x05 = 0 ∧
    rmField 0x05 ≠ 6 ∧ shown (at0 [0x03, 0x05]) = some ⟨.add, ax, .memory .di 0, 2⟩ ∧ rmField 0x06 = 6 ∧
    shown (at0 [0x03, 0x06, 1, 0]) = some ⟨.add, ax, .memory .direct 1, 4⟩ := by decide

/-- TruncationPoliciesOnShortReads: a record that ends with the source, and one that is a byte short. -/
theorem witness_TruncationPoliciesOnShortReads :
    (0 < [0xB8, 5, 0].length ∧ shown (padded [0xB8, 5, 0]) = shown (at0 [0xB8, 5, 0])) ∧
    0 < [0xB8, 5].length ∧ shown (padded [0xB8, 5]) = shown (at0 [0xB8, 5, 0]) ∧ at0 [0xB8, 5] = .truncatedField := by decide

/-- DecodeDependsOnItsReadsOnly: two sources that differ past the record, and the reads of the record. -/
theorem witness_DecodeDependsOnItsReadsOnly :
    readPlan (encTabDefault 0x03) 0x1B 0 = [(0, 1), (1, 1)] ∧
    (∀ r ∈ [(0, 1), (1, 1)], listSource [0x03, 0x1B, 0xFF] r.1 r.2 = listSource [0x03, 0x1B] r.1 r.2) ∧
    patternStep .error (listSource [0x03, 0x1B]) 0 (encTabDefault 0x03) = some ⟨0x1B, 2⟩ ∧ modBytes (encTabDefault 0x03) = 1 := by
  decide

/-- KindDoesNotInfluenceFields: two tables that differ in the kind of every entry. -/
theorem witness_KindDoesNotInfluenceFields :
    ∀ b : Byte, let d := encTabDefault b
      let d' : EncodingDescriptor := { d with extension := .simple .notUsed }
      d'.sizeClass = d.sizeClass ∧ d'.flags = d.flags ∧ d'.pattern = d.pattern := fun _ => ⟨rfl, rfl, rfl⟩

/-- UnusedFirstBytesDecodeToNotUsed: the first and the last unused byte. -/
theorem witness_UnusedFirstBytesDecodeToNotUsed :
    encTabDefault 0x08 = rowUnused ∧ encTabDefault 0xFE = rowUnused := by decide

/-- DefaultTableOperandShapes: a record for each clause: a branch offset, an immediate in slot 0 and in slot 1, the two
records with register operands of different widths (V77, V80), their wide neighbours, and both segment moves (V18, V19). -/
theorem witness_DefaultTableOperandShapes :
    listSource [0xEC] 0 1 = [0xEC] ∧ encTabDefault 0xEC ≠ rowUnused ∧
    shown (at0 [0xEC]) = some ⟨.inp, al, dx, 1⟩ ∧ widthsDiffer al dx = true ∧
    shown (at0 [0xEE]) = some ⟨.out, dx, al, 1⟩ ∧ widthsDiffer dx al = true ∧
    shown (at0 [0xED]) = some ⟨.inp, ax, dx, 1⟩ ∧ widthsDiffer ax dx = false ∧
    shown (at0 [0x75, 0xFB]) = some ⟨.jne, .relative (-5), .none, 2⟩ ∧
    shown (at0 [0xE6, 0x10]) = some ⟨.out, .immediate 16, al, 2⟩ ∧
    shown (at0 [0xE4, 0x10]) = some ⟨.inp, al, .immediate 16, 2⟩ := by decide

theorem witness_DefaultTableOperandShapes_segment_moves :
    shown (at0 [0x8C, 0xD8]) = some ⟨.mov, ax, ds, 2⟩ ∧ widthsDiffer ax ds = false ∧
    shown (at0 [0x8E, 0xC3]) = some ⟨.mov, es, bx, 2⟩ ∧ widthsDiffer es bx = false := by decide

/-- LookupTablesAsListed: a source that answers the two displacement bytes of a direct address. -/
theorem witness_LookupTablesAsListed :
    isDirect (modField 0x06) (rmField 0x06) = true ∧
    fetch2 .error (listSource [0x03, 0x06, 0x34, 0x12]) 2 = some 0x1234 := by decide

end Sys2Proof.Tests
end

section
/-! PROOFS. What the machine fixes of the parametric specification (R8), and the notation of R10 as numbers. -/

namespace Sys2Proof

/-! ## Extension, assembly and the fields of a byte, as numbers (R10, R38, R59) -/

theorem toInt_sext8 (b : Byte) :
    (sext8 b).toInt = if b.toNat < 128 then (b.toNat : Int) else (b.toNat : Int) - 256 := by
  have hkeep : (sext8 b).toInt = b.toInt := BitVec.toInt_signExtend_of_le (by decide)
  rw [hkeep, BitVec.toInt_eq_toNat_cond]
  split <;> split <;> omega

@[simp] theorem toNat_zext8 (b : Byte) : (zext8 b).toNat = b.toNat :=
  BitVec.toNat_setWidth_of_le (by decide)

theorem toNat_le16 (b0 b1 : Byte) : (le16 b0 b1).toNat = b0.toNat + 256 * b1.toNat := by
  rw [le16, BitVec.toNat_append, ← Nat.shiftLeft_add_eq_or_of_lt b0.isLt, Nat.shiftLeft_eq]
  omega

/-- Bits `start` and up of a byte, `len` of them, as a quotient and a remainder. -/
theorem toNat_byteSlice (p : Byte) (start len : Nat) :
    (BitVec.extractLsb' start len p).toNat = p.toNat / 2 ^ start % 2 ^ len := by
  rw [BitVec.extractLsb'_toNat, Nat.shiftRight_eq_div_pow]

theorem toNat_modField (p : Byte) : (modField p).toNat = p.toNat / 64 := by
  have hquot : p.toNat / 64 < 4 := by omega
  rw [modField, toNat_byteSlice]
  exact Nat.mod_eq_of_lt hquot

theorem toNat_regField (p : Byte) : (regField p).toNat = p.toNat / 8 % 8 := toNat_byteSlice p 3 3

theorem toNat_rmField (p : Byte) : (rmField p).toNat = p.toNat % 8 :=
  (toNat_byteSlice p 0 3).trans (congrArg (· % 8) (Nat.div_one p.toNat))

theorem toNat_srField (p : Byte) : (srField p).toNat = p.toNat / 8 % 4 := toNat_byteSlice p 3 2

/-- Settles O46: the numbers of the notation of R10 and R59, one lemma for each function. -/
theorem fieldValuesAsNumbers : Obligations.FieldValuesAsNumbers :=
  ⟨toInt_sext8, toNat_zext8, toNat_le16,
    fun p => ⟨toNat_modField p, toNat_regField p, toNat_rmField p, toNat_srField p⟩⟩

end Sys2Proof

namespace Sys2Proof.Machine

open Sys2Proof

/-! ## The machine among the parametric machines (R8) -/

/-- Only the four kinds that read operands see the policy; `Jne` reads none, and the other kinds raise (R120, R128). -/
theorem exec_eq_executeUnder_draw (i : Instr) (s : State) : exec i s = executeUnder .draw i s := by
  cases i with
  | mov f | add f | sub f | cmp f => rfl
  | jne f => rfl
  | jo f | jno f | jb f | jnb f | je f | jbe f | ja f | js f | jns f | jp f | jnp f | jl f | jnl f | jle f | jg f
  | loopnz f | loopz f | loop f | jcxz f | push f | pop f | xchg f | inp f | out f | notUsed f => rfl

/-- The fetch of a step is the decode under `ENCTAB_DEFAULT` and `Error`, at `ip` (R205). -/
theorem fetch_eq_decode_error (s : State) :
    fetch s = decode encTabDefault .error s.mem.readBytes s.ip.toNat := rfl

theorem step_eq_stepUnder_defaults (s : State) : step s = stepUnder encTabDefault .error .draw s := by
  unfold step stepUnder
  rw [← fetch_eq_decode_error]
  cases fetch s with
  | instr i n => exact exec_eq_executeUnder_draw i s
  | endOfStream => rfl
  | truncatedField => rfl

/-- Settles O23: `exec` by the kind of the record, `step` by the outcome of its decode. -/
theorem machineRunsWithDefaultParameters : Obligations.MachineRunsWithDefaultParameters :=
  ⟨exec_eq_executeUnder_draw, step_eq_stepUnder_defaults⟩

end Sys2Proof.Machine
end

section
/-! PROOFS. The state family: what a completed execution changes and leaves unchanged, the canonical Byte Source, the
views of a register cell, the flags as inputs of an execution, and the operand shapes of a decoded record. -/

namespace Sys2Proof

open Sys2Proof.Machine

/-! ## The halves of a word, as a shift and a mask (R16) -/

theorem zext8_hiByte (v : Word) : zext8 (hiByte v) = v >>> 8 := by
  apply BitVec.eq_of_toNat_eq
  have hquot : v.toNat / 2 ^ 8 < 2 ^ 8 := by omega
  rw [toNat_zext8, hiByte, BitVec.extractLsb'_toNat, BitVec.toNat_ushiftRight, Nat.shiftRight_eq_div_pow]
  exact Nat.mod_eq_of_lt hquot

theorem zext8_loByte (v : Word) : zext8 (loByte v) = v &&& 0x00FF := by
  apply BitVec.eq_of_toNat_eq
  rw [toNat_zext8, loByte, BitVec.extractLsb'_toNat, Nat.shiftRight_zero, BitVec.toNat_and]
  exact (Nat.and_two_pow_sub_one_eq_mod v.toNat 8).symm

theorem shiftLeft_zext8_or_zext8 (hi lo : Byte) : (zext8 hi <<< 8) ||| zext8 lo = hi ++ lo := by
  apply BitVec.eq_of_toNat_eq
  have hfits : hi.toNat <<< 8 < 2 ^ 16 := by
    rw [Nat.shiftLeft_eq]
    omega
  rw [BitVec.toNat_or, BitVec.toNat_shiftLeft, toNat_zext8, toNat_zext8, BitVec.toNat_append,
    Nat.mod_eq_of_lt hfits]

namespace Machine

/-! ## The views of a cell (R15 to R17) -/

theorem Registers.read_write_self (r : Registers) (cell : GenReg) (p q : Portion) (v : Word) :
    (r.write cell p v).read cell q = viewRead q (viewWrite p (r.get cell) v) := by
  rw [Registers.read, Registers.get_write_self]

theorem viewRead_high8_eq_shift (v : Word) : viewRead .high8 v = v >>> 8 := zext8_hiByte v

theorem viewRead_low8_eq_mask (v : Word) : viewRead .low8 v = v &&& 0x00FF := zext8_loByte v

/-- A write of the low half leaves the high half (R15). -/
@[simp] theorem viewRead_high8_viewWrite_low8 (old v : Word) :
    viewRead .high8 (viewWrite .low8 old v) = viewRead .high8 old := by
  simp [viewRead, viewWrite]

/-- A write of the high half leaves the low half (R15). -/
@[simp] theorem viewRead_low8_viewWrite_high8 (old v : Word) :
    viewRead .low8 (viewWrite .high8 old v) = viewRead .low8 old := by
  simp [viewRead, viewWrite]

/-- A cell is its high view above its low view (R15). -/
theorem viewRead_high8_or_low8 (v : Word) : (viewRead .high8 v <<< 8) ||| viewRead .low8 v = v := by
  simp [viewRead, shiftLeft_zext8_or_zext8]

/-- Settles O7: each clause is a fact about reading one view after writing another, but the last, which is about another
cell. -/
theorem registerViewsAliasOneCell : Obligations.RegisterViewsAliasOneCell := by
  intro r cell v
  refine ⟨(viewRead_high8_or_low8 _).symm, rfl, ?_, ?_, ?_, ?_, ?_, ?_⟩
  · rw [Registers.read_write_self, viewRead_high8_viewWrite_low8, Registers.read]
  · rw [Registers.read_write_self, viewRead_low8_viewWrite_high8, Registers.read]
  · rw [Registers.read_write_self, viewRead_viewWrite_self, zext8_loByte]
  · rw [Registers.read_write_self, viewRead_viewWrite_self, zext8_loByte]
  · rw [Registers.get_write_self, viewWrite]
  · exact fun p _ hne => Registers.get_write_of_ne r p v hne

/-! ## What a completed execution changes, and its frame (R46, R124, R127) -/

/-- The registers `r'` are `r`, or `r` after one write through the view that the operand names (R124). -/
def Registers.WrittenAt (o : Operand) (r r' : Registers) : Prop :=
  r' = r ∨ ∃ cell p v, o = .register (.general cell) p ∧ r' = r.write cell p v

theorem Registers.WrittenAt.get_of_ne {o : Operand} {r r' : Registers} (h : Registers.WrittenAt o r r')
    {cell : GenReg} (hne : ∀ p, o ≠ .register (.general cell) p) : r'.get cell = r.get cell := by
  obtain rfl | ⟨dest, p, v, rfl, rfl⟩ := h
  · rfl
  · exact Registers.get_write_of_ne r p v (by rintro rfl; exact hne p rfl)

/-- A half that the written view leaves out keeps what it reads. -/
theorem Registers.WrittenAt.viewRead_of_keeps {cell : GenReg} {p q : Portion} {r r' : Registers}
    (h : Registers.WrittenAt (.register (.general cell) p) r r')
    (hkeeps : ∀ old v, viewRead q (viewWrite p old v) = viewRead q old) :
    viewRead q (r'.get cell) = viewRead q (r.get cell) := by
  obtain rfl | ⟨_, _, v, ho, rfl⟩ := h
  · rfl
  · cases ho
    rw [Registers.get_write_self, hkeeps]

variable {pol : MemReadPolicy} {o : Operand} {v : Word} {f : Fields} {i : Instr} {s t : State}

theorem writeOp_writtenAt (h : writeOp o v s = some t) : Registers.WrittenAt o s.regs t.regs := by
  obtain ⟨cell, p, rfl, rfl⟩ | ⟨_, _, -, rfl⟩ := writeOp_some h
  · exact .inr ⟨cell, p, v, rfl, rfl⟩
  · exact .inl rfl

theorem movUnder_frame (h : movUnder pol f s = .next t) :
    ∃ r d, Registers.WrittenAt f.op0 s.regs r ∧ t = { s.advance f.byteLength with regs := r, draws := d } := by
  obtain ⟨v, s₁, s₂, hread, hwrite, rfl⟩ := movUnder_next h
  refine ⟨s₂.regs, s₁.draws, ?_, ?_⟩
  · have hregs := writeOp_writtenAt hwrite
    rwa [readOp_frame hread] at hregs
  · rw [writeOp_frame hwrite, readOp_frame hread]
    rfl

theorem arithUnder_frame {alu : Word → Word → Word} (h : arithUnder alu pol f s = .next t) :
    ∃ r d result, Registers.WrittenAt f.op0 s.regs r ∧
      t = { (s.setFlags result).advance f.byteLength with regs := r, draws := d } := by
  obtain ⟨a, b, s₁, s₂, hread, hwrite, rfl⟩ := arithUnder_next h
  refine ⟨s₂.regs, s₁.draws, alu a b, ?_, ?_⟩
  · have hregs := writeOp_writtenAt hwrite
    rwa [readBoth_frame hread] at hregs
  · rw [writeOp_frame hwrite, readBoth_frame hread]
    rfl

theorem cmpUnder_frame (h : cmpUnder pol f s = .next t) :
    ∃ d result, t = { (s.setFlags result).advance f.byteLength with draws := d } := by
  obtain ⟨a, b, s₁, hread, rfl⟩ := cmpUnder_next h
  refine ⟨s₁.draws, sub16 a b, ?_⟩
  rw [readBoth_frame hread]
  rfl

open Sys2Proof.Claims

/-- What a completed execution of a record of kind `k` with fields `f` may write, and what it keeps (R22, R46, R124, R127).
`execJne_next` gives the pointer after a jump-if-not-zero. -/
structure ExecFrame (k : Kind) (f : Fields) (s t : State) : Prop where
  writtenAt : Registers.WrittenAt f.op0 s.regs t.regs
  regs : writesDestination k = false → t.regs = s.regs
  flags : writesFlags k = false → t.zf = s.zf ∧ t.sf = s.sf
  ip : k ≠ .jne → t.ip = s.ip + BitVec.ofNat 16 f.byteLength
  mem : t.mem = s.mem

/-- Every completed execution has the frame, by the five executed kinds. -/
theorem exec_frame (h : exec i s = .next t) : ExecFrame i.kind i.fields s t := by
  obtain ⟨f, rfl, hmov⟩ | ⟨f, rfl, hadd⟩ | ⟨f, rfl, hsub⟩ | ⟨f, rfl, hcmp⟩ | ⟨f, rfl, hjne⟩ := exec_next h
  · obtain ⟨r, d, hr, rfl⟩ := movUnder_frame hmov
    exact ⟨hr, nofun, fun _ => ⟨rfl, rfl⟩, fun _ => rfl, rfl⟩
  · obtain ⟨r, d, sum, hr, rfl⟩ := arithUnder_frame hadd
    exact ⟨hr, nofun, nofun, fun _ => rfl, rfl⟩
  · obtain ⟨r, d, difference, hr, rfl⟩ := arithUnder_frame hsub
    exact ⟨hr, nofun, nofun, fun _ => rfl, rfl⟩
  · obtain ⟨d, difference, rfl⟩ := cmpUnder_frame hcmp
    exact ⟨.inl rfl, fun _ => rfl, nofun, fun _ => rfl, rfl⟩
  · obtain ⟨off, -, rfl⟩ := execJne_next hjne
    split <;> exact ⟨.inl rfl, fun _ => rfl, fun _ => ⟨rfl, rfl⟩, fun hk => absurd rfl hk, rfl⟩

/-! ## The Byte Source at reset, after a load and along a step (R25, R36, R51) -/

/-- Settles O1: the reset values cell by cell; a loaded file changes the Byte Source of `State.reset` only. -/
theorem resetLeavesZeroRegistersFlagsAndPointer : Obligations.ResetLeavesZeroRegistersFlagsAndPointer := by
  have hzero : ∀ cell, State.reset.regs.get cell = 0x0000 := by
    intro cell
    cases cell <;> rfl
  exact ⟨hzero, rfl, rfl, rfl, rfl, fun bs => ⟨State.boot_regs bs, State.boot_zf bs, State.boot_sf bs, State.boot_ip bs⟩⟩

/-- Settles O2: the empty Byte Source, that of a loaded file, and that of a load over the present contents. -/
theorem loadedStatesHaveCanonicalByteSource : Obligations.LoadedStatesHaveCanonicalByteSource :=
  ⟨Memory.nil_wf, fun bs => Memory.ofBytes_wf bs,
    fun s nbits w => Memory.overlay_wf s.mem s.ip.toNat (tableWordBytes nbits w)⟩

/-- A step that completes leaves the Byte Source as it is: no instruction stores (R46, R51). -/
theorem step_mem (h : step s = .next t) : t.mem = s.mem := by
  obtain ⟨i, n, -, hexec⟩ := step_next h
  exact (exec_frame hexec).mem

/-- Settles O3: the Byte Source after a step is the one before it, so it keeps its form and its reads. -/
theorem stepKeepsByteSourceCanonical : Obligations.StepKeepsByteSourceCanonical := by
  intro s t hinv hstep
  have hmem := step_mem hstep
  constructor
  · rwa [State.Inv, hmem]
  · intro a count
    rw [hmem]

/-! ## The pointer and the frame of a completed instruction (R127, R131) -/

theorem toNat_add_ofNat (ip : Addr) (n : Nat) : (ip + BitVec.ofNat 16 n).toNat = (ip.toNat + n) % 65536 := by
  rw [BitVec.toNat_add, BitVec.toNat_ofNat, Nat.add_mod_mod]

/-- A signed offset added modulo 2^16 (R20, R148). -/
theorem toNat_add_ofNat_add (ip : Addr) (n : Nat) (off : Word) :
    ((ip + BitVec.ofNat 16 n + off).toNat : Int) = ((ip.toNat + n : Nat) + off.toInt) % 65536 := by
  rw [BitVec.toNat_add, toNat_add_ofNat, BitVec.toInt_eq_toNat_cond]
  split <;> omega

theorem exec_of_kind_jne (hk : i.kind = .jne) : exec i s = execJne i.fields s := by
  cases i with
  | jne f => rfl
  | _ => cases hk

/-- Settles O15: `ip` of every kind but `Jne` is in the frame; a `Jne` is not taken or taken by ZF. -/
theorem completedInstructionAdvancesPointer : Obligations.CompletedInstructionAdvancesPointer := by
  intro i s t h
  by_cases hk : i.kind = .jne
  · rw [exec_of_kind_jne hk] at h
    obtain ⟨off, hoff, rfl⟩ := execJne_next h
    constructor
    · rintro (hne | hz)
      · exact absurd hk hne
      · rw [if_pos hz, State.advance_ip, toNat_add_ofNat]
    · intro _ hz
      refine ⟨off, hoff, ?_⟩
      rw [if_neg (by simp [hz]), State.jumpBy_ip, State.advance_ip, toNat_add_ofNat_add]
  · refine ⟨fun _ => ?_, fun hjne => absurd hjne hk⟩
    rw [(exec_frame h).ip hk, toNat_add_ofNat]

/-- Settles O16: the clauses of `exec_frame`, with the halves that a byte destination leaves out read as views. -/
theorem completedInstructionFrame : Obligations.CompletedInstructionFrame := by
  intro i s t h
  obtain ⟨hwritten, hregs, hflags, -, hmem⟩ := exec_frame h
  refine ⟨?_, ?_, ?_, hflags, fun a => by rw [hmem]⟩
  · rintro cell (hk | hne)
    · rw [hregs hk]
    · exact hwritten.get_of_ne hne
  · intro cell ho
    rw [ho] at hwritten
    simpa only [viewRead_high8_eq_shift] using hwritten.viewRead_of_keeps viewRead_high8_viewWrite_low8
  · intro cell ho
    rw [ho] at hwritten
    simpa only [viewRead_low8_eq_mask] using hwritten.viewRead_of_keeps viewRead_low8_viewWrite_high8

/-! ## The flags as inputs (R22) -/

/-- A state with each flag passed through a function; `fun _ => b` sets a flag and `id` leaves it. -/
def State.mapFlags (z g : Bool → Bool) (s : State) : State := { s with zf := z s.zf, sf := g s.sf }

variable (z g : Bool → Bool)

theorem readOp_mapFlags (pol : MemReadPolicy) (o : Operand) (s : State) :
    readOp pol o (s.mapFlags z g) = (readOp pol o s).map (Prod.map id (State.mapFlags z g)) := by
  cases o with
  | register id p => cases id <;> rfl
  | memory mode disp => cases pol <;> rfl
  | none | immediate v | relative off => rfl

theorem writeOp_mapFlags (o : Operand) (v : Word) (s : State) :
    writeOp o v (s.mapFlags z g) = (writeOp o v s).map (State.mapFlags z g) := by
  cases o with
  | register id p => cases id <;> rfl
  | none | memory mode disp | immediate v | relative off => rfl

theorem readBoth_mapFlags (pol : MemReadPolicy) (f : Fields) (s : State) :
    readBoth pol f (s.mapFlags z g) = (readBoth pol f s).map (Prod.map id (Prod.map id (State.mapFlags z g))) := by
  unfold readBoth
  rw [readOp_mapFlags]
  cases readOp pol f.op0 s with
  | none => rfl
  | some first =>
    simp only [Option.map_some, Prod.map, id_eq, readOp_mapFlags]
    cases readOp pol f.op1 first.2 <;> rfl

/-- A move carries the flags along. -/
theorem movUnder_mapFlags (pol : MemReadPolicy) (f : Fields) (s : State) :
    movUnder pol f (s.mapFlags z g) = mapNext (State.mapFlags z g) (movUnder pol f s) := by
  unfold movUnder
  rw [readOp_mapFlags]
  cases readOp pol f.op1 s with
  | none => rfl
  | some source =>
    simp only [Option.map_some, Prod.map, id_eq, writeOp_mapFlags]
    cases writeOp f.op0 source.1 source.2 <;> rfl

/-- An addition or subtraction overwrites both flags without having read them. -/
theorem arithUnder_mapFlags (alu : Word → Word → Word) (pol : MemReadPolicy) (f : Fields) (s : State) :
    arithUnder alu pol f (s.mapFlags z g) = arithUnder alu pol f s := by
  unfold arithUnder
  rw [readBoth_mapFlags]
  cases readBoth pol f s with
  | none => rfl
  | some sources =>
    simp only [Option.map_some, Prod.map, id_eq, writeOp_mapFlags]
    cases writeOp f.op0 (alu sources.1 sources.2.1) sources.2.2 <;> rfl

/-- A comparison overwrites both flags without having read them. -/
theorem cmpUnder_mapFlags (pol : MemReadPolicy) (f : Fields) (s : State) :
    cmpUnder pol f (s.mapFlags z g) = cmpUnder pol f s := by
  unfold cmpUnder
  rw [readBoth_mapFlags]
  cases readBoth pol f s <;> rfl

/-- A jump-if-not-zero carries SF along, and takes its decision by ZF. -/
theorem execJne_mapFlags_sf (f : Fields) (s : State) :
    execJne f (s.mapFlags id g) = mapNext (State.mapFlags id g) (execJne f s) := by
  unfold execJne
  cases f.op0 with
  | relative off =>
    obtain ⟨_, zf, _, _, _, _⟩ := s
    cases zf <;> rfl
  | none | register id p | memory mode disp | immediate v => rfl

@[simp] theorem mapNext_self (o : Host.Outcome State Fault Refusal) : mapNext (fun t => t) o = o := by
  cases o <;> rfl

/-- Over other flags an execution does the same, up to flags it does not write: of any kind when ZF is left as it is, and
of any kind but `Jne` otherwise. -/
theorem exec_mapFlags (i : Instr) (s : State) (hz : i.kind ≠ .jne ∨ z = id) :
    exec i (s.mapFlags z g) =
      mapNext (fun t => if writesFlags i.kind then t else t.mapFlags z g) (exec i s) := by
  cases i with
  | mov f => exact movUnder_mapFlags z g .draw f s
  | add f => exact (arithUnder_mapFlags z g add16 .draw f s).trans (mapNext_self _).symm
  | sub f => exact (arithUnder_mapFlags z g sub16 .draw f s).trans (mapNext_self _).symm
  | cmp f => exact (cmpUnder_mapFlags z g .draw f s).trans (mapNext_self _).symm
  | jne f =>
    obtain hne | rfl := hz
    · exact absurd rfl hne
    · exact execJne_mapFlags_sf g f s
  | jo f | jno f | jb f | jnb f | je f | jbe f | ja f | js f | jns f | jp f | jnp f | jl f | jnl f | jle f | jg f
  | loopnz f | loopz f | loop f | jcxz f | push f | pop f | xchg f | inp f | out f | notUsed f => rfl

/-- Settles O17: another SF, or another ZF, is one flag passed through a constant function. -/
theorem flagsAreReadByJneOnly : Obligations.FlagsAreReadByJneOnly :=
  ⟨fun i s b => exec_mapFlags id (fun _ => b) i s (.inr rfl),
    fun i s b hne => exec_mapFlags (fun _ => b) id i s (.inl hne)⟩

end Machine

/-! ## The operands of a decoded record, slot by slot (R97 to R105, R113) -/

open Sys2Proof.Claims

theorem Operand.isReg_eq_register {wide : Bool} {o : Operand} (h : o.isReg wide = true) :
    ∃ id p, o = .register id p ∧ id.allows p = true ∧ (p = .full16 ↔ wide = true) := by
  cases o with
  | register id p =>
    refine ⟨id, p, rfl, ?_⟩
    cases id with
    | segment seg => simp [Operand.isReg] at h
    | general cell => cases p <;> simp_all [Operand.isReg, RegisterId.allows]
  | none | memory mode disp | immediate v | relative off => simp [Operand.isReg] at h

/-- What an operand in slot `slot` (`true` for slot 1) of a record with flags `F` and immediate target slot `t` can be: a
legal register view, of the width that `W` gives unless `RMW` or `SR` is set; a memory operand in the rm slot; an
immediate or branch offset in the target slot. -/
def Operand.FitsSlot (F : FieldFlags) (t slot : Bool) : Operand → Prop
  | .none => True
  | .register id p =>
    id.allows p = true ∧ ((p = .full16 ↔ F.w = true) ∨ F.rmw = true ∨ F.sr = true)
  | .memory _ _ => slot = F.d
  | .immediate _ | .relative _ => slot = t

/-- Both slots hold operands that fit them. -/
def Slots.Fit (F : FieldFlags) (t : Bool) (ops : Slots) : Prop :=
  ops.op0.FitsSlot F t false ∧ ops.op1.FitsSlot F t true

variable {pol : TruncPolicy} {src : ByteSource} {offset len len' : Nat} {F : FieldFlags} {t slot : Bool}
  {pattern : Byte} {ops ops' : Slots} {o : Operand}

theorem Slots.Fit.put (h : ops.Fit F t) (ho : o.FitsSlot F t slot) : (ops.put slot o).Fit F t := by
  cases slot with
  | false => exact ⟨ho, h.2⟩
  | true => exact ⟨h.1, ho⟩

theorem Operand.fitsSlot_regOperand (n : BitVec 3) (wide : Bool)
    (hwide : wide = F.w ∨ F.rmw = true) : (regOperand n wide).FitsSlot F t slot := by
  obtain ⟨id, p, hreg, hallows, hp⟩ := Operand.isReg_eq_register (isReg_regOperand n wide)
  rw [hreg]
  obtain rfl | hrmw := hwide
  · exact ⟨hallows, .inl hp⟩
  · exact ⟨hallows, .inr (.inl hrmw)⟩

theorem regStep_fit (h : ops.Fit F t) : (regStep F pattern ops).Fit F t := by
  unfold regStep
  split
  · exact h.put (Operand.fitsSlot_regOperand _ _ (.inl rfl))
  · exact h

theorem segStep_fit (h : ops.Fit F t) : (segStep F pattern ops).Fit F t := by
  unfold segStep
  split
  · rename_i hsr
    exact h.put ⟨rfl, .inr (.inr hsr)⟩
  · exact h

theorem rmOperand_fitsSlot {a n : Nat} (h : rmOperand pol src a (F.w || F.rmw) pattern = some (o, n)) :
    o.FitsSlot F t F.d := by
  unfold rmOperand at h
  dsimp only at h
  split at h
  · cases h
    apply Operand.fitsSlot_regOperand
    cases F.rmw <;> simp
  · obtain ⟨⟨disp, m⟩, -, hmem⟩ := Option.map_eq_some_iff.mp h
    cases hmem
    exact rfl

theorem rmStep_fit (h : ops.Fit F t) (hstep : rmStep pol src offset F pattern ops len = some (ops', len')) :
    ops'.Fit F t := by
  unfold rmStep at hstep
  split at hstep
  · obtain ⟨⟨o, n⟩, ho, hput⟩ := Option.map_eq_some_iff.mp hstep
    cases hput
    exact h.put (rmOperand_fitsSlot ho)
  · cases hstep
    exact h

/-- A fetched operand that fits its slot whatever was fetched may be put there. -/
theorem Slots.Fit.of_map_put {α : Type} {fetched : Option α} {operand : α → Operand} {n : Nat} (h : ops.Fit F t)
    (hstep : (fetched.map fun v => (ops.put slot (operand v), n)) = some (ops', len'))
    (ho : ∀ v, (operand v).FitsSlot F t slot) : ops'.Fit F t := by
  obtain ⟨v, -, hput⟩ := Option.map_eq_some_iff.mp hstep
  cases hput
  exact h.put (ho v)

/-- The immediate step writes the target slot or nothing. -/
theorem immediateStep_fit (h : ops.Fit F t)
    (hstep : immediateStep pol src offset F t ops len = some (ops', len')) : ops'.Fit F t := by
  unfold immediateStep at hstep
  split_ifs at hstep
  · exact h.of_map_put hstep fun _ => rfl
  · exact h.of_map_put hstep fun _ => rfl
  · exact h.of_map_put hstep fun _ => rfl
  · cases hstep
    exact h

/-- The branch displacement step writes the target slot or nothing. -/
theorem relativeStep_fit (h : ops.Fit F t)
    (hstep : relativeStep pol src offset F t ops len = some (ops', len')) : ops'.Fit F t := by
  unfold relativeStep at hstep
  split_ifs at hstep
  · exact h.of_map_put hstep fun _ => rfl
  · cases hstep
    exact h

/-- The operands of a record fit their slots, for every descriptor: no earlier step writes a constant, so that the target
slot may be chosen after the rm step. -/
theorem decodeRecord_fit {d : EncodingDescriptor} {i : Instr} (h : decodeRecord pol src offset d = some i) :
    ∃ t, Slots.Fit i.fields.flags t ⟨i.fields.op0, i.fields.op1⟩ := by
  obtain ⟨pattern, len, ops₁, len₁, ops₂, len₂, ops₃, len₃, -, hrm, himm, hrel, rfl⟩ := decodeRecord_some h
  rw [Kind.record_fields]
  have hempty : Slots.Fit d.flags ops₁.immediateTarget {} := ⟨trivial, trivial⟩
  have hfixed := segStep_fit (pattern := pattern) (regStep_fit (pattern := pattern) hempty)
  exact ⟨_, relativeStep_fit (immediateStep_fit (rmStep_fit hfixed hrm) himm) hrel⟩

theorem Operand.FitsSlot.eq_target (h : o.FitsSlot F t slot) (ho : isConstant o = true) : slot = t := by
  cases o with
  | immediate v | relative off => exact h
  | none | register id p | memory mode disp => cases ho

theorem Operand.FitsSlot.eq_rmSlot (h : o.FitsSlot F t slot) (ho : isMemory o = true) : slot = F.d := by
  cases o with
  | memory mode disp => exact h
  | none | register id p | immediate v | relative off => cases ho

/-- At most one operand is a constant: there is one target slot. -/
theorem Slots.Fit.not_both_constant (h : ops.Fit F t) : (isConstant ops.op0 && isConstant ops.op1) = false := by
  refine Bool.and_eq_false_imp.mpr fun h0 => Bool.eq_false_iff.mpr fun h1 => ?_
  exact Bool.false_ne_true ((h.1.eq_target h0).trans (h.2.eq_target h1).symm)

/-- At most one operand is memory: there is one rm slot. -/
theorem Slots.Fit.not_both_memory (h : ops.Fit F t) : (isMemory ops.op0 && isMemory ops.op1) = false := by
  refine Bool.and_eq_false_imp.mpr fun h0 => Bool.eq_false_iff.mpr fun h1 => ?_
  exact Bool.false_ne_true ((h.1.eq_rmSlot h0).trans (h.2.eq_rmSlot h1).symm)

theorem Slots.Fit.allows (h : ops.Fit F t) {id : RegisterId} {p : Portion}
    (hreg : ops.op0 = .register id p ∨ ops.op1 = .register id p) : id.allows p = true := by
  obtain ⟨h0, h1⟩ := h
  obtain hreg | hreg := hreg
  · rw [hreg] at h0
    exact h0.1
  · rw [hreg] at h1
    exact h1.1

/-- Two register operands have the width that `W` gives both, unless `RMW` or `SR` is set. -/
theorem Slots.Fit.same_width (h : ops.Fit F t) {id id' : RegisterId} {p p' : Portion}
    (hreg : ops.op0 = .register id p) (hreg' : ops.op1 = .register id' p') :
    (p = .full16 ↔ p' = .full16) ∨ F.rmw = true ∨ F.sr = true := by
  obtain ⟨h0, h1⟩ := h
  rw [hreg] at h0
  rw [hreg'] at h1
  obtain hw | hexcepted := h0.2
  · obtain hw' | hexcepted := h1.2
    · exact .inl (hw.trans hw'.symm)
    · exact .inr hexcepted
  · exact .inr hexcepted

/-- Settles O37: the four clauses are those of operands that fit their slots. They hold of every table, so that the rules
W1 to W6 are not used. -/
theorem wellFormedTableOperandShapes : Obligations.WellFormedTableOperandShapes := by
  intro tab pol src offset i n _ hdecode
  obtain ⟨-, b, rest, -, hrecord⟩ := decode_instr hdecode
  obtain ⟨t, hfit⟩ := decodeRecord_fit hrecord
  exact ⟨hfit.not_both_constant, hfit.not_both_memory, fun _ _ hreg => hfit.allows hreg,
    fun _ _ _ _ hreg hreg' => hfit.same_width hreg hreg'⟩

end Sys2Proof
end

section
/-! PROOFS. The memory family: what a Byte Source reads as, before and along a run (R35, R36, R51), where a run can meet
its end (R42, R44), what an execution does with a memory operand's address (R46), and the reads of a decode (R40). -/

namespace Sys2Proof.Machine

open Sys2Proof Sys2Proof.Claims

/-! ## Reads of a canonical Byte Source (R35, R36) -/

section
variable {m : Memory}

theorem Memory.isSome_byte?_of_wf (h : m.wf = true) (a : Nat) : (m.byte? a).isSome = true ↔ a < m.size := by
  simp [Memory.byte?_of_wf h]

theorem Memory.length_readBytes_of_wf (h : m.wf = true) (a count : Nat) :
    (m.readBytes a count).length = min count (m.size - a) := by
  rw [Memory.readBytes_of_wf h, listSource, List.length_take, List.length_drop, Memory.length_bytes]

theorem Memory.readBytes_eq_nil_iff (h : m.wf = true) (a count : Nat) :
    m.readBytes a count = [] ↔ count = 0 ∨ m.size ≤ a := by
  rw [← List.length_eq_zero_iff, Memory.length_readBytes_of_wf h]
  omega

theorem Memory.getElem?_readBytes_of_wf (h : m.wf = true) {k count : Nat} (hk : k < count) (a : Nat) :
    (m.readBytes a count)[k]? = m.byte? (a + k) := by
  rw [Memory.readBytes_of_wf h, listSource, List.getElem?_take_of_lt hk, List.getElem?_drop, Memory.byte?_of_wf h]

theorem Memory.byte?_ofBytes {bs : List Byte} (h : bs.length ≤ Config.addressSpace) (a : Nat) :
    (Memory.ofBytes bs).byte? a = bs[a]? := by
  rw [Memory.ofBytes, List.take_of_length_le h, Memory.byte?_cellsFrom, if_neg (Nat.not_lt_zero a), Nat.sub_zero]

end

/-- Settles O5: a read has the length of the clamped read of the loaded bytes, and its bytes one by one. -/
theorem readBytesClampsAtTheEnd : Obligations.ReadBytesClampsAtTheEnd := by
  intro m a count hwf
  refine ⟨fun ha => (Memory.readBytes_eq_nil_iff hwf a count).mpr (.inr ha), fun _ => ⟨?_, fun k hk => ?_⟩, ?_⟩
  · exact Memory.length_readBytes_of_wf hwf a count
  · exact Memory.getElem?_readBytes_of_wf hwf (hk.trans_le (min_le_left _ _)) a
  · exact Memory.isSome_byte?_of_wf hwf

/-- Settles O6: a file that fits the address space is loaded whole, from address 0. -/
theorem loadedFileReadsBack : Obligations.LoadedFileReadsBack := by
  intro bs hlen
  constructor
  · rw [Memory.size_ofBytes]
    exact min_eq_right hlen
  · exact Memory.byte?_ofBytes hlen

/-! ## The Byte Source along a run (R51) -/

/-- A run leaves the Byte Source as it is, since every completed step does. -/
theorem runExecute_mem (fuel : Nat) (s : State) : (runExecute fuel s).1.mem = s.mem := by
  induction fuel generalizing s with
  | zero => rfl
  | succ fuel ih =>
    unfold runExecute runWith
    split
    next t hstep => exact (ih t).trans (step_mem hstep)
    next e hstep => rfl
    next r hstep => rfl

/-- Settles O4: the Byte Source at the end of a run is the one at its start, and with it all that is read of it. -/
theorem runFetchesLoadedBytesThroughout : Obligations.RunFetchesLoadedBytesThroughout := by
  intro fuel s
  dsimp only
  rw [runExecute_mem]
  exact ⟨fun _ => rfl, fun _ _ => rfl, fun _ _ _ => rfl⟩

/-! ## The normal end of a run (R42, R44, R207) -/

theorem decode_eq_endOfStream {tab : EncodingTable} {trunc : TruncPolicy} {src : ByteSource} {offset : Nat} :
    decode tab trunc src offset = .endOfStream ↔ src offset 1 = [] := by
  unfold decode
  split
  next hread => simp [hread]
  next b rest hread => split <;> simp [hread]

/-- Settles O28: `EndOfStream` is the answer to an empty opcode read, which only an address past the end gives. -/
theorem endOfStreamExactlyPastTheEnd : Obligations.EndOfStreamExactlyPastTheEnd := by
  intro tab trunc m offset hwf
  rw [decode_eq_endOfStream, Memory.readBytes_eq_nil_iff hwf]
  exact or_iff_right one_ne_zero

section
variable {pol : MemReadPolicy} {f : Fields} {i : Instr} {s t : State} {e : Fault}

theorem movUnder_fault (h : movUnder pol f s = .fault e) : e = .unsupportedOperand := by
  unfold movUnder at h
  split at h
  · cases h
    rfl
  · split at h <;> cases h
    rfl

theorem arithUnder_fault {alu : Word → Word → Word} (h : arithUnder alu pol f s = .fault e) :
    e = .unsupportedOperand := by
  unfold arithUnder at h
  split at h
  · cases h
    rfl
  · split at h <;> cases h
    rfl

theorem cmpUnder_fault (h : cmpUnder pol f s = .fault e) : e = .unsupportedOperand := by
  unfold cmpUnder at h
  split at h <;> cases h
  rfl

theorem execJne_fault (h : execJne f s = .fault e) : e = .unsupportedOperand := by
  unfold execJne at h
  split at h <;> cases h <;> rfl

/-- The two responses an execution can raise: an executed kind for an operand, any other for its kind (R128, R129). -/
theorem exec_fault (h : exec i s = .fault e) : e = .unsupportedOperand ∨ e = .unsupportedInstruction i.kind := by
  cases i with
  | mov f => exact .inl (movUnder_fault h)
  | add f | sub f => exact .inl (arithUnder_fault h)
  | cmp f => exact .inl (cmpUnder_fault h)
  | jne f => exact .inl (execJne_fault h)
  | jo f | jno f | jb f | jnb f | je f | jbe f | ja f | js f | jns f | jp f | jnp f | jl f | jnl f | jle f | jg f
  | loopnz f | loopz f | loop f | jcxz f | push f | pop f | xchg f | inp f | out f | notUsed f =>
    cases h
    exact .inr rfl

/-- A step answers `EndOfStream` for its decode only (R181). -/
theorem fetch_of_step_endOfStream (h : step s = .fault .endOfStream) : fetch s = .endOfStream := by
  unfold step at h
  split at h
  next i n hfetch => obtain he | he := exec_fault h <;> cases he
  next hfetch => exact hfetch
  next hfetch => cases h

/-- A run ends with the response of a step it reaches. -/
theorem step_runExecute_fault {fuel : Nat} (h : (runExecute fuel s).2 = .fault e) :
    step (runExecute fuel s).1 = .fault e := by
  induction fuel generalizing s with
  | zero => cases h
  | succ fuel ih =>
    unfold runExecute runWith at h ⊢
    split at h
    next t hstep => exact ih h
    next e' hstep =>
      cases h
      exact hstep
    next r hstep => cases h

end

/-- Settles O29: the state in which a run ends normally has `ip` at or past the end of the Byte Source it started with;
with all 65536 bytes present no 16-bit `ip` is. -/
theorem fullByteSourceNeverEndsNormally : Obligations.FullByteSourceNeverEndsNormally := by
  intro s hinv hfull fuel hend
  have hfetch := fetch_of_step_endOfStream (step_runExecute_fault hend)
  rw [fetch_eq_decode_error, runExecute_mem] at hfetch
  have hpast := (endOfStreamExactlyPastTheEnd _ _ _ _ hinv).mp hfetch
  have hip := (runExecute fuel s).1.ip.isLt
  omega

/-! ## Memory operands form no address (R46, R123, R124) -/

section
variable (mode : AddressingMode) (disp : Word)

@[simp] theorem readOp_readdressed (pol : MemReadPolicy) (o : Operand) (s : State) :
    readOp pol (readdressed mode disp o) s = readOp pol o s := by
  cases o with
  | memory mode' disp' => rfl
  | none | register id p | immediate v | relative off => rfl

@[simp] theorem writeOp_readdressed (o : Operand) (v : Word) (s : State) :
    writeOp (readdressed mode disp o) v s = writeOp o v s := by
  cases o with
  | memory mode' disp' => rfl
  | none | register id p | immediate v | relative off => rfl

/-- A record's fields with both operands readdressed. -/
def readdressFields (f : Fields) : Fields :=
  { f with op0 := readdressed mode disp f.op0, op1 := readdressed mode disp f.op1 }

@[simp] theorem readBoth_readdressed (pol : MemReadPolicy) (f : Fields) (s : State) :
    readBoth pol (readdressFields mode disp f) s = readBoth pol f s := by
  simp [readBoth, readdressFields]

theorem movUnder_readdressed (pol : MemReadPolicy) (f : Fields) (s : State) :
    movUnder pol (readdressFields mode disp f) s = movUnder pol f s := by
  simp [movUnder, readdressFields]

theorem arithUnder_readdressed (alu : Word → Word → Word) (pol : MemReadPolicy) (f : Fields) (s : State) :
    arithUnder alu pol (readdressFields mode disp f) s = arithUnder alu pol f s := by
  simp only [arithUnder, readBoth_readdressed]
  simp [readdressFields]

theorem cmpUnder_readdressed (pol : MemReadPolicy) (f : Fields) (s : State) :
    cmpUnder pol (readdressFields mode disp f) s = cmpUnder pol f s := by
  simp only [cmpUnder, readBoth_readdressed]
  rfl

/-- A jump-if-not-zero raises on a memory operand, whatever its address. -/
theorem execJne_readdressed (f : Fields) (s : State) :
    execJne (readdressFields mode disp f) s = execJne f s := by
  obtain ⟨flags, op0, op1, byteLength⟩ := f
  cases op0 with
  | memory mode' disp' => rfl
  | none | register id p | immediate v | relative off => rfl

end

/-- Settles O20: `readOp` and `writeOp` see no address, a jump-if-not-zero raises on every memory operand, and the other
kinds raise on every record. -/
theorem executionFormsNoAddress : Obligations.ExecutionFormsNoAddress := by
  intro i s mode disp
  cases i with
  | mov f => exact movUnder_readdressed mode disp .draw f s
  | add f => exact arithUnder_readdressed mode disp add16 .draw f s
  | sub f => exact arithUnder_readdressed mode disp sub16 .draw f s
  | cmp f => exact cmpUnder_readdressed mode disp .draw f s
  | jne f => exact execJne_readdressed mode disp f s
  | jo f | jno f | jb f | jnb f | je f | jbe f | ja f | js f | jns f | jp f | jnp f | jl f | jnl f | jle f | jg f
  | loopnz f | loopz f | loop f | jcxz f | push f | pop f | xchg f | inp f | out f | notUsed f => rfl

end Sys2Proof.Machine

namespace Sys2Proof

open Sys2Proof.Claims

/-! ## The read plan of a decode (R40, R63 to R68) -/

theorem modBytes_le (d : EncodingDescriptor) : modBytes d ≤ 1 := by
  unfold modBytes
  split <;> omega

theorem dispBytes_le (F : FieldFlags) (pattern : Byte) : dispBytes F pattern ≤ 2 := by
  unfold dispBytes
  split_ifs <;> omega

theorem immBytes_le (F : FieldFlags) : immBytes F ≤ 2 := by
  unfold immBytes
  split_ifs <;> omega

theorem relBytes_le (F : FieldFlags) : relBytes F ≤ 1 := by
  unfold relBytes
  split <;> omega

theorem length_readOf_le (a count : Nat) : (readOf a count).length ≤ 1 := by
  unfold readOf
  split <;> simp

@[simp] theorem sum_counts_readOf (a count : Nat) : ((readOf a count).map Prod.snd).sum = count := by
  unfold readOf
  split <;> simp_all

theorem mem_readOf {a count : Nat} (h : count ≠ 0) : (a, count) ∈ readOf a count := by
  simp [readOf, h]

/-- A read of at most two bytes, or none, before reads that start where it ends. -/
theorem contiguousFrom_readOf_append {a count : Nat} {reads : List (Nat × Nat)} (hcount : count ≤ 2)
    (h : contiguousFrom (a + count) reads) : contiguousFrom a (readOf a count ++ reads) := by
  unfold readOf
  split
  next hzero => simpa [hzero] using h
  next hpos => exact ⟨rfl, Nat.one_le_iff_ne_zero.mpr hpos, hcount, h⟩

theorem length_readPlan_le (d : EncodingDescriptor) (pattern : Byte) (offset : Nat) :
    (readPlan d pattern offset).length ≤ 5 := by
  simp only [readPlan, List.length_cons, List.length_append]
  have hmod := length_readOf_le (offset + 1) (modBytes d)
  have hdisp := length_readOf_le (offset + 1 + modBytes d) (dispBytes d.flags pattern)
  have himm := length_readOf_le (offset + 1 + modBytes d + dispBytes d.flags pattern) (immBytes d.flags)
  have hrel := length_readOf_le (offset + 1 + modBytes d + dispBytes d.flags pattern + immBytes d.flags)
    (relBytes d.flags)
  omega

theorem contiguousFrom_readPlan (d : EncodingDescriptor) (pattern : Byte) (offset : Nat) :
    contiguousFrom offset (readPlan d pattern offset) := by
  refine ⟨rfl, le_rfl, one_le_two, ?_⟩
  rw [List.append_assoc, List.append_assoc, ← List.append_nil (readOf _ (relBytes d.flags))]
  refine contiguousFrom_readOf_append ((modBytes_le d).trans one_le_two) ?_
  refine contiguousFrom_readOf_append (dispBytes_le d.flags pattern) ?_
  refine contiguousFrom_readOf_append (immBytes_le d.flags) ?_
  exact contiguousFrom_readOf_append ((relBytes_le d.flags).trans one_le_two) trivial

theorem sum_counts_readPlan (d : EncodingDescriptor) (pattern : Byte) (offset : Nat) :
    ((readPlan d pattern offset).map Prod.snd).sum = lengthOf d pattern := by
  simp [readPlan, lengthOf, Nat.add_assoc]

/-- Settles O43: the opcode read and the four reads, or none, of R63 to R67. -/
theorem readPlanCoversEachByteOnce : Obligations.ReadPlanCoversEachByteOnce :=
  fun d pattern offset => ⟨length_readPlan_le d pattern offset, contiguousFrom_readPlan d pattern offset,
    sum_counts_readPlan d pattern offset⟩

/-! ## A decode sees its reads only (R40, R108) -/

/-- Two byte sources answer a read of `count` bytes at `a` alike; where `count` is 0 there is no such read. -/
def ByteSource.AgreeOn (src src' : ByteSource) (a count : Nat) : Prop :=
  count ≠ 0 → src' a count = src a count

section
variable {pol : TruncPolicy} {src src' : ByteSource} {a offset len : Nat} {F : FieldFlags} {d : EncodingDescriptor}
  {pattern : Byte} {ops : Slots}

theorem ByteSource.AgreeOn.fetch1_eq (h : src.AgreeOn src' a 1) : fetch1 pol src' a = fetch1 pol src a := by
  unfold fetch1
  rw [h one_ne_zero]

theorem ByteSource.AgreeOn.fetch2_eq (h : src.AgreeOn src' a 2) : fetch2 pol src' a = fetch2 pol src a := by
  unfold fetch2
  rw [h two_ne_zero]

theorem patternStep_congr (h : src.AgreeOn src' (offset + 1) (modBytes d)) :
    patternStep pol src' offset d = patternStep pol src offset d := by
  unfold patternStep
  cases hsize : d.sizeClass with
  | single => rfl
  | withModByte =>
    rw [show modBytes d = 1 by simp [modBytes, hsize]] at h
    simp only [h.fetch1_eq]

/-- The displacement bytes of a memory operand, by the conditions that its fetch is made on (R63, R102). -/
theorem dispBytes_of_mod_ne_three (hrm : F.rm = true) (hmod : modField pattern ≠ 3) :
    dispBytes F pattern =
      if modField pattern = 1 then 1
      else if modField pattern = 2 ∨ isDirect (modField pattern) (rmField pattern) then 2
      else 0 := by
  simp_all [dispBytes]

theorem displacement_congr (hrm : F.rm = true) (hmod : modField pattern ≠ 3)
    (h : src.AgreeOn src' a (dispBytes F pattern)) :
    displacement pol src' a (modField pattern) (rmField pattern) =
      displacement pol src a (modField pattern) (rmField pattern) := by
  rw [dispBytes_of_mod_ne_three hrm hmod] at h
  unfold displacement
  split_ifs at h ⊢
  · rw [h.fetch1_eq]
  · rw [h.fetch2_eq]
  · rfl

theorem rmOperand_congr {wide : Bool} (hrm : F.rm = true) (h : src.AgreeOn src' a (dispBytes F pattern)) :
    rmOperand pol src' a wide pattern = rmOperand pol src a wide pattern := by
  unfold rmOperand
  dsimp only
  by_cases hmod : modField pattern = 3
  · rw [if_pos hmod, if_pos hmod]
  · rw [if_neg hmod, if_neg hmod, displacement_congr hrm hmod h]

theorem rmStep_congr (h : src.AgreeOn src' (offset + len) (dispBytes F pattern)) :
    rmStep pol src' offset F pattern ops len = rmStep pol src offset F pattern ops len := by
  unfold rmStep
  split_ifs with hrm
  · rw [rmOperand_congr hrm h]
  · rfl

theorem immediateStep_congr {t : Bool} (h : src.AgreeOn src' (offset + len) (immBytes F)) :
    immediateStep pol src' offset F t ops len = immediateStep pol src offset F t ops len := by
  unfold immediateStep
  split_ifs with hword himm himm8
  · rw [show immBytes F = 2 by simp [immBytes, hword]] at h
    rw [h.fetch2_eq]
  · rw [show immBytes F = 1 by simpa [immBytes, himm] using hword] at h
    rw [h.fetch1_eq]
  · rw [show immBytes F = 1 by simp [immBytes, himm, himm8]] at h
    rw [h.fetch1_eq]
  · rfl

theorem relativeStep_congr {t : Bool} (h : src.AgreeOn src' (offset + len) (relBytes F)) :
    relativeStep pol src' offset F t ops len = relativeStep pol src offset F t ops len := by
  unfold relativeStep
  split_ifs with hrel
  · rw [show relBytes F = 1 by simp [relBytes, hrel]] at h
    rw [h.fetch1_eq]
  · rfl

/-- Sources that agree on a read plan agree on the displacement, the immediate and the branch displacement read. -/
theorem agreeOn_of_readPlan
    (h : ∀ a count, (a, count) ∈ readPlan d pattern offset → src' a count = src a count) :
    src.AgreeOn src' (offset + (1 + modBytes d)) (dispBytes d.flags pattern) ∧
    src.AgreeOn src' (offset + (1 + modBytes d + dispBytes d.flags pattern)) (immBytes d.flags) ∧
    src.AgreeOn src' (offset + (1 + modBytes d + dispBytes d.flags pattern + immBytes d.flags))
      (relBytes d.flags) := by
  simp only [readPlan, List.mem_cons, List.mem_append] at h
  simp only [← Nat.add_assoc]
  refine ⟨fun hdisp => h _ _ ?_, fun himm => h _ _ ?_, fun hrel => h _ _ ?_⟩
  · exact .inr (.inl (.inl (.inr (mem_readOf hdisp))))
  · exact .inr (.inl (.inr (mem_readOf himm)))
  · exact .inr (.inr (mem_readOf hrel))

/-- Each step after the pattern reads where the lengths of the steps before it say (R106). -/
theorem decodeRecord_congr (hmod : src.AgreeOn src' (offset + 1) (modBytes d))
    (hplan : ∀ pattern len, patternStep pol src offset d = some (pattern, len) →
      ∀ a count, (a, count) ∈ readPlan d pattern offset → src' a count = src a count) :
    decodeRecord pol src' offset d = decodeRecord pol src offset d := by
  unfold decodeRecord
  refine Option.bind_congr' (patternStep_congr hmod) ?_
  rintro ⟨pattern, len⟩ hpattern
  obtain ⟨hdisp, himm, hrel⟩ := agreeOn_of_readPlan (hplan pattern len hpattern)
  obtain rfl := patternStep_len hpattern
  refine Option.bind_congr' (rmStep_congr hdisp) ?_
  rintro ⟨ops₁, len₁⟩ hrm
  obtain rfl := rmStep_len hrm
  refine Option.bind_congr' (immediateStep_congr himm) ?_
  rintro ⟨ops₂, len₂⟩ himmediate
  obtain rfl := immediateStep_len himmediate
  exact Option.bind_congr' (relativeStep_congr hrel) fun _ _ => rfl

end

/-- Settles O42: the opcode read chooses the descriptor, and with it the other reads. -/
theorem decodeDependsOnItsReadsOnly : Obligations.DecodeDependsOnItsReadsOnly := by
  intro tab pol src src' offset hopcode hplan hmod
  unfold decode
  rw [hopcode]
  cases hread : src offset 1 with
  | nil => rfl
  | cons b rest =>
    have hagree : src.AgreeOn src' (offset + 1) (modBytes (tab b)) := by
      intro hne
      have hone : modBytes (tab b) = 1 := by
        have := modBytes_le (tab b)
        omega
      rw [hone]
      exact hmod b rest hread hone
    dsimp only
    rw [decodeRecord_congr hagree fun pattern len => hplan b rest pattern len hread]

end Sys2Proof
end

section
/-! PROOFS. The encoding family, first part: the fields of a record against the bytes they were read from, format by
format, and the lines of the default table (R59 to R107). -/

namespace Sys2Proof

open Sys2Proof.Machine Sys2Proof.Claims

/-! ## Fields read back from a list of bytes -/

section
variable {bs : List Byte} {a : Nat} {b : Byte} {v : Word}

theorem take_fetch1 (h : fetch1 .error (listSource bs) a = some b) : bs.take (a + 1) = bs.take a ++ [b] := by
  rw [fetch1_listSource] at h
  split at h
  next hget =>
    cases h
    rw [List.take_add_one, hget, Option.toList_some]
  next hget => cases h

theorem take_fetch2 (h : fetch2 .error (listSource bs) a = some v) : bs.take (a + 2) = bs.take a ++ wordBytes v := by
  rw [fetch2_listSource] at h
  split at h
  next b0 b1 hget0 hget1 =>
    cases h
    rw [wordBytes, loByte_le16, hiByte_le16, List.take_add_one, List.take_add_one, hget0, hget1, Option.toList_some,
      Option.toList_some, List.append_assoc]
    rfl
  next => cases h
  next => cases h

end

section
variable {pol : TruncPolicy} {src : ByteSource} {offset len : Nat} {d : EncodingDescriptor} {pattern : Byte}

theorem patternStep_single (h : patternStep pol src offset d = some (pattern, len)) (hsize : d.sizeClass = .single) :
    pattern = d.pattern ∧ len = 1 := by
  rw [patternStep, hsize] at h
  cases h
  exact ⟨rfl, rfl⟩

theorem patternStep_withModByte (h : patternStep pol src offset d = some (pattern, len))
    (hsize : d.sizeClass = .withModByte) : fetch1 pol src (offset + 1) = some pattern ∧ len = 2 := by
  rw [patternStep, hsize] at h
  obtain ⟨p, hfetch, hp⟩ := Option.map_eq_some_iff.mp h
  cases hp
  exact ⟨hfetch, rfl⟩

/-- A mod/reg/rm byte is the second byte of the list. -/
theorem take_modByte {bs : List Byte} (h : patternStep .error (listSource bs) 0 d = some (pattern, len))
    (hsize : d.sizeClass = .withModByte) : len = 2 ∧ bs.take 2 = bs.take 1 ++ [pattern] := by
  obtain ⟨hfetch, hlen⟩ := patternStep_withModByte h hsize
  exact ⟨hlen, take_fetch1 hfetch⟩

end

/-! ## Registers, modes and the rm operand (R60 to R63, R101, R102) -/

theorem regNumber_regOperand (n : BitVec 3) (wide : Bool) : regNumber (regOperand n wide) = n := by
  revert n wide
  decide

theorem segNumber_segOperand (n : BitVec 2) : segNumber (segOperand n) = n := by
  revert n
  decide

theorem modeNumber_eaTab (x : BitVec 3) : modeNumber (eaTab x) = x := by
  revert x
  decide

theorem eaTab_ne_direct (x : BitVec 3) : eaTab x ≠ .direct := by
  revert x
  decide

theorem regOperand_ne_none (n : BitVec 3) (wide : Bool) : regOperand n wide ≠ .none := by
  revert n wide
  decide

theorem encodeRm_regOperand (r x : BitVec 3) (wide : Bool) (n : Nat) :
    encodeRm r (regOperand x wide) n = [modRegRm 3 r x] := by
  obtain ⟨id, p, hreg, -, -⟩ := Operand.isReg_eq_register (isReg_regOperand x wide)
  have hnumber := regNumber_regOperand x wide
  rw [hreg] at hnumber ⊢
  rw [encodeRm, hnumber] <;> nofun

/-- The three forms of a memory operand with a base or index register (R63). -/
theorem encodeRm_eaTab (r x : BitVec 3) (disp : Word) :
    encodeRm r (.memory (eaTab x) disp) 0 = [modRegRm 0 r x] ∧
    encodeRm r (.memory (eaTab x) disp) 1 = [modRegRm 1 r x, loByte disp] ∧
    encodeRm r (.memory (eaTab x) disp) 2 = modRegRm 2 r x :: wordBytes disp := by
  have hmode := eaTab_ne_direct x
  have hnumber := modeNumber_eaTab x
  generalize eaTab x = mode at hmode hnumber
  subst hnumber
  cases mode with
  | direct => exact absurd rfl hmode
  | bxSi | bxDi | bpSi | bpDi | si | di | bp | bx => exact ⟨rfl, rfl, rfl⟩

theorem isDirect_iff {m : BitVec 2} {x : BitVec 3} : isDirect m x = true ↔ m = 0 ∧ x = 6 := by
  simp [isDirect]

section
variable {pol : TruncPolicy} {src : ByteSource} {a k : Nat} {wide : Bool} {pattern : Byte} {o : Operand}

theorem rmOperand_of_isDirect (h : isDirect (modField pattern) (rmField pattern) = true) :
    rmOperand pol src a wide pattern = (fetch2 pol src a).map fun v => (.memory .direct v, 2) := by
  have hmod : modField pattern ≠ 3 ∧ modField pattern ≠ 1 := by
    rw [(isDirect_iff.mp h).1]
    decide
  unfold rmOperand displacement
  dsimp only
  rw [if_neg hmod.1, if_neg hmod.2, if_pos (Or.inr h), if_pos h, Option.map_map]
  rfl

theorem rmOperand_of_mod_three (h : modField pattern = 3) :
    rmOperand pol src a wide pattern = some (regOperand (rmField pattern) wide, 0) :=
  if_pos h

/-- The forms of an rm-derived operand, with its displacement bytes (R63, R101, R102): a register, one or two
displacement bytes, the direct address, no displacement. -/
theorem rmOperand_some (h : rmOperand pol src a wide pattern = some (o, k)) :
    (modField pattern = 3 ∧ o = regOperand (rmField pattern) wide ∧ k = 0) ∨
    (∃ b, modField pattern = 1 ∧ fetch1 pol src a = some b ∧ o = .memory (eaTab (rmField pattern)) (sext8 b) ∧ k = 1) ∨
    (∃ v, modField pattern = 2 ∧ fetch2 pol src a = some v ∧ o = .memory (eaTab (rmField pattern)) v ∧ k = 2) ∨
    (∃ v, isDirect (modField pattern) (rmField pattern) = true ∧ fetch2 pol src a = some v ∧ o = .memory .direct v ∧
      k = 2) ∨
    (modField pattern = 0 ∧ o = .memory (eaTab (rmField pattern)) 0 ∧ k = 0) := by
  cases hdirect : isDirect (modField pattern) (rmField pattern) with
  | true =>
    rw [rmOperand_of_isDirect hdirect] at h
    obtain ⟨v, hfetch, hv⟩ := Option.map_eq_some_iff.mp h
    cases hv
    exact .inr (.inr (.inr (.inl ⟨v, rfl, hfetch, rfl, rfl⟩)))
  | false =>
    simp only [rmOperand, displacement, hdirect, Bool.false_eq_true, or_false, if_false] at h
    split_ifs at h with h3 h1 h2
    · cases h
      exact .inl ⟨h3, rfl, rfl⟩
    · simp only [Option.map_map, Option.map_eq_some_iff] at h
      obtain ⟨b, hfetch, hb⟩ := h
      cases hb
      exact .inr (.inl ⟨b, h1, hfetch, rfl, rfl⟩)
    · simp only [Option.map_map, Option.map_eq_some_iff] at h
      obtain ⟨v, hfetch, hv⟩ := h
      cases hv
      exact .inr (.inr (.inl ⟨v, h2, hfetch, rfl, rfl⟩))
    · cases h
      refine .inr (.inr (.inr (.inr ⟨?_, rfl, rfl⟩)))
      clear hdirect
      generalize modField pattern = m at h1 h2 h3
      revert m
      decide

theorem rmOperand_ne_none (h : rmOperand pol src a wide pattern = some (o, k)) : o ≠ .none := by
  obtain ⟨-, rfl, -⟩ | ⟨_, -, -, rfl, -⟩ | ⟨_, -, -, rfl, -⟩ | ⟨_, -, -, rfl, -⟩ | ⟨-, rfl, -⟩ := rmOperand_some h
  · exact regOperand_ne_none _ _
  all_goals nofun

/-- The direct address always has two displacement bytes (R63). -/
theorem rmOperand_direct_length {v : Word}
    (h : rmOperand pol src a wide pattern = some (.memory .direct v, k)) : k = 2 := by
  obtain ⟨-, ho, -⟩ | ⟨_, -, -, ho, -⟩ | ⟨_, -, -, -, rfl⟩ | ⟨_, -, -, -, rfl⟩ | ⟨-, ho, -⟩ := rmOperand_some h
  · obtain ⟨id, p, hreg, -⟩ := Operand.isReg_eq_register (isReg_regOperand (rmField pattern) wide)
    cases ho.trans hreg
  · exact absurd (Operand.memory.inj ho).1.symm (eaTab_ne_direct _)
  · rfl
  · rfl
  · exact absurd (Operand.memory.inj ho).1.symm (eaTab_ne_direct _)

end

/-- The mod/reg/rm byte and the displacement bytes of an rm-derived operand are those it was read from. -/
theorem encodeRm_rmOperand {bs : List Byte} {a k : Nat} {wide : Bool} {pattern : Byte} {o : Operand}
    (h : rmOperand .error (listSource bs) a wide pattern = some (o, k)) :
    ∃ disp, encodeRm (regField pattern) o k = pattern :: disp ∧ bs.take (a + k) = bs.take a ++ disp := by
  have hfields := modRegRm_fields pattern
  obtain ⟨hm, rfl, rfl⟩ | ⟨b, hm, hfetch, rfl, rfl⟩ | ⟨v, hm, hfetch, rfl, rfl⟩ | ⟨v, hdirect, hfetch, rfl, rfl⟩ |
    ⟨hm, rfl, rfl⟩ := rmOperand_some h
  · refine ⟨[], ?_, (List.append_nil _).symm⟩
    rw [encodeRm_regOperand, ← hm, hfields]
  · refine ⟨[b], ?_, take_fetch1 hfetch⟩
    rw [(encodeRm_eaTab _ _ _).2.1, ← hm, hfields, loByte_sext8]
  · refine ⟨wordBytes v, ?_, take_fetch2 hfetch⟩
    rw [(encodeRm_eaTab _ _ _).2.2, ← hm, hfields]
  · refine ⟨wordBytes v, ?_, take_fetch2 hfetch⟩
    obtain ⟨hm, hx⟩ := isDirect_iff.mp hdirect
    rw [encodeRm, ← hm, ← hx, hfields]
  · refine ⟨[], ?_, (List.append_nil _).symm⟩
    rw [(encodeRm_eaTab _ _ _).1, ← hm, hfields]

/-- The immediate goes to slot 1 when slot 0 is used (R103). -/
theorem Slots.immediateTarget_iff {ops : Slots} : ops.immediateTarget = true ↔ ops.op0 ≠ .none := by
  simp [Slots.immediateTarget]

/-- The immediate goes to the target slot, and its bytes are those it was read from (R103, R104). -/
theorem immediateStep_take {bs : List Byte} {F : FieldFlags} {t : Bool} {ops ops' : Slots} {len len' : Nat}
    (himm : (F.imm || F.imm8u) = true)
    (h : immediateStep .error (listSource bs) 0 F t ops len = some (ops', len')) :
    ∃ v, ops' = ops.put t (.immediate v) ∧
      bs.take len' = bs.take len ++ encodeImmediate (immBytes F) (.immediate v) := by
  unfold immediateStep at h
  rw [Nat.zero_add] at h
  split_ifs at h with hword hbyte hport
  · obtain ⟨v, hfetch, hput⟩ := Option.map_eq_some_iff.mp h
    cases hput
    refine ⟨v, rfl, ?_⟩
    rw [take_fetch2 hfetch, encodeImmediate, immBytes, if_pos hword, if_pos rfl]
  · obtain ⟨b, hfetch, hput⟩ := Option.map_eq_some_iff.mp h
    cases hput
    refine ⟨sext8 b, rfl, ?_⟩
    rw [take_fetch1 hfetch, encodeImmediate, immBytes, if_neg hword, if_pos himm, if_neg (by decide), loByte_sext8]
  · obtain ⟨b, hfetch, hput⟩ := Option.map_eq_some_iff.mp h
    cases hput
    refine ⟨zext8 b, rfl, ?_⟩
    rw [take_fetch1 hfetch, encodeImmediate, immBytes, if_neg hword, if_pos himm, if_neg (by decide), loByte_zext8]
  · simp_all

/-! ## The fields of a record by the flags of its descriptor (R97 to R105) -/

section
variable {pol : TruncPolicy} {src : ByteSource} {offset : Nat} {d : EncodingDescriptor} {i : Instr}

/-- A descriptor with a register and an rm operand and no constant. -/
theorem decodeRecord_regRm {D W X : Bool}
    (hflags : d.flags = { d := D, w := W, mod := true, reg := true, rm := true, rmw := X })
    (h : decodeRecord pol src offset d = some i) :
    ∃ pattern len k f, patternStep pol src offset d = some (pattern, len) ∧
      rmOperand pol src (offset + len) (W || X) pattern = some (f.rmOperand, k) ∧
      f.regOperand = regOperand (regField pattern) W ∧ f.byteLength = len + k ∧ f.flags = d.flags ∧
      i = (d.kindOf pattern).record f := by
  obtain ⟨pattern, len, ops₁, len₁, ops₂, len₂, ops₃, len₃, hp, hrm, himm, hrel, rfl⟩ := decodeRecord_some h
  obtain ⟨extension, size, F, fixed⟩ := d
  cases hflags
  obtain ⟨⟨o, k⟩, ho, hput⟩ := Option.map_eq_some_iff.mp hrm
  cases hput
  cases himm
  cases hrel
  refine ⟨pattern, len, k, _, hp, ?_, ?_, rfl, rfl, rfl⟩
  · cases D <;> exact ho
  · cases D <;> rfl

end

section
variable {bs : List Byte} {d : EncodingDescriptor} {i : Instr}

/-- A descriptor with a register and an immediate, signed or (`P`) a port number: the immediate is in the slot that the
register leaves. -/
theorem decodeRecord_regImm {D W P : Bool}
    (hflags : d.flags = { d := D, w := W, reg := true, imm := !P, imm8u := P })
    (h : decodeRecord .error (listSource bs) 0 d = some i) :
    ∃ pattern len f, patternStep .error (listSource bs) 0 d = some (pattern, len) ∧
      f.regOperand = regOperand (regField pattern) W ∧
      bs.take f.byteLength = bs.take len ++ encodeImmediate (immBytes d.flags) f.rmOperand ∧ f.flags = d.flags ∧
      i = (d.kindOf pattern).record f := by
  obtain ⟨pattern, len, ops₁, len₁, ops₂, len₂, ops₃, len₃, hp, hrm, himm, hrel, rfl⟩ := decodeRecord_some h
  generalize ht : ops₁.immediateTarget = t at himm hrel
  obtain ⟨extension, size, F, fixed⟩ := d
  cases hflags
  cases hrm
  obtain ⟨v, rfl, htake⟩ := immediateStep_take (by cases P <;> rfl) himm
  cases hrel
  cases D with
  | false =>
    cases ht
    exact ⟨pattern, len, _, hp, rfl, htake, rfl, rfl⟩
  | true =>
    cases ht.symm.trans (Slots.immediateTarget_iff.mpr (regOperand_ne_none (regField pattern) W))
    exact ⟨pattern, len, _, hp, rfl, htake, rfl, rfl⟩

/-- A descriptor with an rm operand in slot 0 and a signed immediate, which is then in slot 1. -/
theorem decodeRecord_rmImm {W S : Bool}
    (hflags : d.flags = { w := W, s := S, mod := true, rm := true, imm := true })
    (h : decodeRecord .error (listSource bs) 0 d = some i) :
    ∃ pattern len k f, patternStep .error (listSource bs) 0 d = some (pattern, len) ∧
      rmOperand .error (listSource bs) len W pattern = some (f.op0, k) ∧
      f.byteLength = len + k + immBytes d.flags ∧
      bs.take f.byteLength = bs.take (len + k) ++ encodeImmediate (immBytes d.flags) f.op1 ∧ f.flags = d.flags ∧
      i = (d.kindOf pattern).record f := by
  obtain ⟨pattern, len, ops₁, len₁, ops₂, len₂, ops₃, len₃, hp, hrm, himm, hrel, rfl⟩ := decodeRecord_some h
  generalize ht : ops₁.immediateTarget = t at himm hrel
  obtain ⟨extension, size, F, fixed⟩ := d
  cases hflags
  obtain ⟨⟨o, k⟩, ho, hput⟩ := Option.map_eq_some_iff.mp hrm
  cases hput
  obtain ⟨v, rfl, htake⟩ := immediateStep_take rfl himm
  have hlen := immediateStep_len himm
  cases hrel
  cases ht.symm.trans (Slots.immediateTarget_iff.mpr (rmOperand_ne_none ho))
  change rmOperand .error (listSource bs) (0 + len) (W || false) pattern = some (o, k) at ho
  rw [Nat.zero_add, Bool.or_false] at ho
  exact ⟨pattern, len, k, _, hp, ho, hlen, htake, rfl, rfl⟩

end

/-! ## The bytes of a record by the format of its table line (R75 to R83) -/

theorem opcode_eq {n : Nat} {b : Byte} (h : b.toNat = n) : opcode n = b := by
  rw [opcode, ← h, BitVec.ofNat_toNat, BitVec.setWidth_eq]

theorem toNat_testBit_zero (n : Nat) : (n.testBit 0).toNat = n % 2 := by
  rw [Nat.toNat_testBit, pow_zero, Nat.div_one]

/-- The two lowest bits of a first byte, as the formats with `W` and `D` or `S` use them (R75, R77). -/
theorem toNat_testBit_zero_one (n : Nat) : (n.testBit 0).toNat + 2 * (n.testBit 1).toNat = n % 4 := by
  rw [Nat.toNat_testBit, Nat.toNat_testBit]
  omega

/-- A record with a mod/reg/rm byte is not taken for an accumulator move, which has a direct address without one. -/
theorem isAccMoffs_eq_false {pol : TruncPolicy} {src : ByteSource} {a k : Nat} {wide : Bool} {pattern : Byte}
    {f : Fields} (h : rmOperand pol src a wide pattern = some (f.rmOperand, k)) (hlen : f.byteLength = 2 + k) :
    f.isAccMoffs = false := by
  refine Bool.eq_false_iff.mpr fun hacc => ?_
  simp only [Fields.isAccMoffs, Bool.and_eq_true, beq_iff_eq] at hacc
  obtain ⟨⟨-, hdirect⟩, hlen3⟩ := hacc
  split at hdirect
  next v hv =>
    rw [hv] at h
    have htwo := rmOperand_direct_length h
    omega
  next => cases hdirect

/-- The reg field of a fixed pattern that holds a register number (R78, R81, R82). -/
theorem toNat_regField_ofNat {n r : Nat} (h : n / 8 % 8 = r) (hn : n < 256 := by omega) :
    (regField (BitVec.ofNat 8 n)).toNat = r := by
  rw [toNat_regField, BitVec.toNat_ofNat, Nat.mod_eq_of_lt hn, h]

theorem immBytes_of_imm {F : FieldFlags} (h : F.imm = true) : immBytes F = F.immediateLength := by
  simp [immBytes, FieldFlags.immediateLength, h]

section
variable {b : Byte} {rest : List Byte} {k : Kind} {base : Nat} {i : Instr}

/-- `RM_REG` (R75, R82). -/
theorem encodeRmReg_of_decodeRecord
    (h : decodeRecord .error (listSource (b :: rest)) 0 (rowRmReg k b.toNat) = some i)
    (hbase : b.toNat = base + b.toNat % 4) :
    ∃ f, i = k.record f ∧ f.flags = (rowRmReg k b.toNat).flags ∧ f.isAccMoffs = false ∧
      encodeRmReg base f = (b :: rest).take f.byteLength := by
  obtain ⟨pattern, len, n, f, hp, ho, hreg, hlen, hflags, rfl⟩ := decodeRecord_regRm rfl h
  obtain ⟨rfl, hpattern⟩ := take_modByte hp rfl
  obtain ⟨disp, hencode, htake⟩ := encodeRm_rmOperand ho
  refine ⟨f, rfl, hflags, isAccMoffs_eq_false ho hlen, ?_⟩
  have hop : opcode (base + f.flags.w.toNat + 2 * f.flags.d.toNat) = b := by
    rw [hflags, Nat.add_assoc]
    exact opcode_eq (hbase.trans (by rw [rowRmReg, toNat_testBit_zero_one]))
  rw [Nat.zero_add] at htake
  rw [encodeRmReg, hop, hreg, regNumber_regOperand, hlen, Nat.add_sub_cancel_left, hencode, htake, hpattern]
  rfl

/-- `ACC_MOFFS` (R78). -/
theorem encodeAccMoffs_of_decodeRecord
    (h : decodeRecord .error (listSource (b :: rest)) 0 (rowAccMoffs b.toNat) = some i)
    (hbase : b.toNat = 0xA0 + b.toNat % 4) :
    ∃ f, i = .mov f ∧ f.flags = (rowAccMoffs b.toNat).flags ∧ f.isAccMoffs = true ∧
      encodeAccMoffs f = (b :: rest).take f.byteLength := by
  obtain ⟨pattern, len, n, f, hp, ho, hreg, hlen, hflags, rfl⟩ := decodeRecord_regRm rfl h
  obtain ⟨rfl, rfl⟩ := patternStep_single hp rfl
  have hdirect : isDirect (modField 0x06) (rmField 0x06) = true := by decide
  rw [rowAccMoffs, rmOperand_of_isDirect hdirect] at ho
  obtain ⟨v, hfetch, hv⟩ := Option.map_eq_some_iff.mp ho
  obtain ⟨hmem, rfl⟩ := Prod.mk.inj hv
  refine ⟨f, rfl, hflags, ?_, ?_⟩
  · have hacc : (regOperand 0 (b.toNat.testBit 0)).isAccumulator (b.toNat.testBit 0) = true := by
      cases b.toNat.testBit 0 <;> rfl
    rw [Fields.isAccMoffs, ← hmem, hreg, hlen, hflags, rowAccMoffs]
    dsimp only
    rw [show regField 0x06 = 0 by decide, hacc, beq_self_eq_true]
    rfl
  · have hop : opcode (0xA0 + f.flags.w.toNat + 2 * (!f.flags.d).toNat) = b := by
      rw [hflags, Nat.add_assoc]
      exact opcode_eq (hbase.trans (by rw [rowAccMoffs, Bool.not_not, toNat_testBit_zero_one]))
    rw [encodeAccMoffs, hop, ← hmem, hlen, take_fetch2 hfetch]
    rfl

/-- `ACC_REG` (R82). -/
theorem encodeAccReg_of_decodeRecord
    (h : decodeRecord .error (listSource (b :: rest)) 0 (rowAccReg b.toNat) = some i)
    (hbase : b.toNat = 0x90 + b.toNat % 8) :
    ∃ f, i = .xchg f ∧ f.flags = (rowAccReg b.toNat).flags ∧
      [opcode (0x90 + (regNumber f.op1).toNat)] = (b :: rest).take f.byteLength := by
  obtain ⟨pattern, len, n, f, hp, ho, hreg, hlen, hflags, rfl⟩ := decodeRecord_regRm rfl h
  obtain ⟨rfl, rfl⟩ := patternStep_single hp rfl
  have hmod : modField (rowAccReg b.toNat).pattern = 3 := by
    apply BitVec.eq_of_toNat_eq
    rw [rowAccReg, toNat_modField, BitVec.toNat_ofNat]
    change (0xC0 + b.toNat % 8 * 8) % 256 / 64 = 3
    omega
  rw [rmOperand_of_mod_three hmod] at ho
  obtain ⟨-, rfl⟩ := Prod.mk.inj (Option.some.inj ho)
  have hop1 : f.regOperand = f.op1 := by
    rw [Fields.regOperand, hflags]
    rfl
  refine ⟨f, rfl, hflags, ?_⟩
  rw [← hop1, hreg, regNumber_regOperand, rowAccReg, toNat_regField_ofNat (r := b.toNat % 8) (by omega),
    opcode_eq hbase, hlen]
  rfl

/-- `ACC_DX` (R83). -/
theorem encodeAccDx_of_decodeRecord
    (h : decodeRecord .error (listSource (b :: rest)) 0 (rowAccDx k b.toNat) = some i)
    (hbase : b.toNat = base + b.toNat % 2) :
    ∃ f, i = k.record f ∧ f.flags = (rowAccDx k b.toNat).flags ∧
      [opcode (base + f.flags.w.toNat)] = (b :: rest).take f.byteLength := by
  obtain ⟨pattern, len, n, f, hp, ho, -, hlen, hflags, rfl⟩ := decodeRecord_regRm rfl h
  obtain ⟨rfl, rfl⟩ := patternStep_single hp rfl
  have hmod : modField 0xC2 = 3 := by decide
  rw [rowAccDx, rmOperand_of_mod_three hmod] at ho
  obtain ⟨-, rfl⟩ := Prod.mk.inj (Option.some.inj ho)
  refine ⟨f, rfl, hflags, ?_⟩
  rw [hflags, hlen, rowAccDx, toNat_testBit_zero, opcode_eq hbase]
  rfl

/-- `REG_IMM` (R78). -/
theorem encodeRegImm_of_decodeRecord
    (h : decodeRecord .error (listSource (b :: rest)) 0 (rowRegImm b.toNat) = some i)
    (hbase : b.toNat = 0xB0 + b.toNat % 16) :
    ∃ f, i = .mov f ∧ f.flags = (rowRegImm b.toNat).flags ∧ encodeRegImm f = (b :: rest).take f.byteLength := by
  obtain ⟨pattern, len, f, hp, hreg, htake, hflags, rfl⟩ := decodeRecord_regImm (P := false) rfl h
  obtain ⟨rfl, rfl⟩ := patternStep_single hp rfl
  have hop0 : f.regOperand = f.op0 := by
    rw [Fields.regOperand, hflags]
    rfl
  have hop1 : f.rmOperand = f.op1 := by
    rw [Fields.rmOperand, hflags]
    rfl
  have hw : (b.toNat.testBit 3).toNat = b.toNat / 8 % 2 := Nat.toNat_testBit _ 3
  have hop : opcode (0xB0 + 8 * (b.toNat.testBit 3).toNat + b.toNat % 8) = b := opcode_eq (by omega)
  refine ⟨f, rfl, hflags, ?_⟩
  rw [htake, immBytes_of_imm rfl, hop1, encodeRegImm, ← hop0, hreg, regNumber_regOperand, hflags, rowRegImm,
    toNat_regField_ofNat (r := b.toNat % 8) (by omega), hop]
  rfl

/-- `ACC_IMM` (R76). -/
theorem encodeAccImm_of_decodeRecord
    (h : decodeRecord .error (listSource (b :: rest)) 0 (rowAccImm k b.toNat) = some i)
    (hbase : b.toNat = base + b.toNat % 2) :
    ∃ f, i = k.record f ∧ f.flags = (rowAccImm k b.toNat).flags ∧
      encodeAccImm base f = (b :: rest).take f.byteLength := by
  obtain ⟨pattern, len, f, hp, -, htake, hflags, rfl⟩ := decodeRecord_regImm (P := false) rfl h
  obtain ⟨rfl, rfl⟩ := patternStep_single hp rfl
  have hop1 : f.rmOperand = f.op1 := by
    rw [Fields.rmOperand, hflags]
    rfl
  refine ⟨f, rfl, hflags, ?_⟩
  rw [htake, immBytes_of_imm rfl, hop1, encodeAccImm, hflags, rowAccImm, toNat_testBit_zero, opcode_eq hbase]
  rfl

/-- `ACC_IMM8U` (R83). -/
theorem encodeAccImm8u_of_decodeRecord
    (h : decodeRecord .error (listSource (b :: rest)) 0 (rowAccImm8u k b.toNat) = some i)
    (hbase : b.toNat = base + b.toNat % 2) :
    ∃ f, i = k.record f ∧ f.flags = (rowAccImm8u k b.toNat).flags ∧
      opcode (base + f.flags.w.toNat) :: encodeImmediate 1 f.rmOperand = (b :: rest).take f.byteLength := by
  obtain ⟨pattern, len, f, hp, -, htake, hflags, rfl⟩ := decodeRecord_regImm (P := true) rfl h
  obtain ⟨rfl, rfl⟩ := patternStep_single hp rfl
  refine ⟨f, rfl, hflags, ?_⟩
  rw [htake, hflags, rowAccImm8u, toNat_testBit_zero, opcode_eq hbase]
  rfl

/-- `GRP_RM_IMM` (R77, R78). -/
theorem encodeGrpRmImm_of_decodeRecord {kinds : Vector Kind 8} {S : Bool}
    (h : decodeRecord .error (listSource (b :: rest)) 0 (rowGrpRmImm kinds S b.toNat) = some i)
    (hbase : b.toNat = base + (b.toNat % 2 + 2 * S.toNat)) :
    ∃ (r : BitVec 3) (f : Fields), i = kinds[r.toNat].record f ∧ f.flags = (rowGrpRmImm kinds S b.toNat).flags ∧
      encodeGrpRmImm base r f = (b :: rest).take f.byteLength := by
  obtain ⟨pattern, len, n, f, hp, ho, hlen, htakeImm, hflags, rfl⟩ := decodeRecord_rmImm rfl h
  obtain ⟨rfl, hpattern⟩ := take_modByte hp rfl
  obtain ⟨disp, hencode, htake⟩ := encodeRm_rmOperand ho
  have hdisp : f.byteLength - (2 + f.flags.immediateLength) = n := by
    rw [hlen, hflags, immBytes_of_imm rfl]
    omega
  refine ⟨regField pattern, f, rfl, hflags, ?_⟩
  rw [htakeImm, htake, hpattern, immBytes_of_imm rfl, encodeGrpRmImm, hdisp, hencode, hflags, rowGrpRmImm,
    toNat_testBit_zero, Nat.add_assoc, opcode_eq hbase]
  rfl

/-- `GRP_RM` (R81). -/
theorem encodeGrpRm_of_decodeRecord {kinds : Vector Kind 8}
    (h : decodeRecord .error (listSource (b :: rest)) 0 (rowGrpRm kinds) = some i) (hbase : b.toNat = base) :
    ∃ (r : BitVec 3) (f : Fields), i = kinds[r.toNat].record f ∧ f.flags = (rowGrpRm kinds).flags ∧
      encodeGrpRm base r f = (b :: rest).take f.byteLength := by
  obtain ⟨pattern, len, ops₁, len₁, ops₂, len₂, ops₃, len₃, hp, hrm, himm, hrel, rfl⟩ := decodeRecord_some h
  obtain ⟨rfl, hpattern⟩ := take_modByte hp rfl
  obtain ⟨⟨o, n⟩, ho, hput⟩ := Option.map_eq_some_iff.mp hrm
  cases hput
  cases himm
  cases hrel
  obtain ⟨disp, hencode, htake⟩ := encodeRm_rmOperand ho
  rw [Nat.zero_add] at htake
  refine ⟨regField pattern, _, rfl, rfl, ?_⟩
  change opcode base :: encodeRm (regField pattern) o (2 + n - 2) = (b :: rest).take (2 + n)
  rw [opcode_eq hbase, Nat.add_sub_cancel_left, hencode, htake, hpattern]
  rfl

/-- `REG_IN_OPCODE` (R81). -/
theorem encodeRegInOpcode_of_decodeRecord
    (h : decodeRecord .error (listSource (b :: rest)) 0 (rowRegInOpcode k b.toNat) = some i)
    (hbase : b.toNat = base + b.toNat % 8) :
    ∃ f, i = k.record f ∧ f.flags = (rowRegInOpcode k b.toNat).flags ∧
      [opcode (base + (regNumber f.op0).toNat)] = (b :: rest).take f.byteLength := by
  cases h
  refine ⟨_, rfl, rfl, ?_⟩
  change [opcode (base + (regNumber (regOperand (regField (BitVec.ofNat 8 (b.toNat % 8 * 8))) true)).toNat)] = [b]
  rw [regNumber_regOperand, toNat_regField_ofNat (r := b.toNat % 8) (by omega), opcode_eq hbase]

/-- `SREG_IN_OPCODE` (R81). -/
theorem encodeSregInOpcode_of_decodeRecord
    (h : decodeRecord .error (listSource (b :: rest)) 0 (rowSregInOpcode k b.toNat) = some i)
    (hbase : b.toNat = base + 8 * (b.toNat / 8 % 4)) :
    ∃ f, i = k.record f ∧ f.flags = (rowSregInOpcode k b.toNat).flags ∧
      [opcode (base + 8 * (segNumber f.op0).toNat)] = (b :: rest).take f.byteLength := by
  cases h
  refine ⟨_, rfl, rfl, ?_⟩
  have hseg : (srField (BitVec.ofNat 8 (b.toNat / 8 % 4 * 8))).toNat = b.toNat / 8 % 4 := by
    rw [toNat_srField, BitVec.toNat_ofNat]
    omega
  change [opcode (base + 8 * (segNumber (segOperand (srField (BitVec.ofNat 8 (b.toNat / 8 % 4 * 8))))).toNat)] = [b]
  rw [segNumber_segOperand, hseg, opcode_eq hbase]

/-- `REL8` (R79, R80). -/
theorem encodeRel8_of_decodeRecord
    (h : decodeRecord .error (listSource (b :: rest)) 0 (rowRel8 k) = some i) (hbase : b.toNat = base) :
    ∃ f, i = k.record f ∧ encodeRel8 base f = (b :: rest).take f.byteLength := by
  obtain ⟨pattern, len, ops₁, len₁, ops₂, len₂, ops₃, len₃, hp, hrm, himm, hrel, rfl⟩ := decodeRecord_some h
  obtain ⟨rfl, rfl⟩ := patternStep_single hp rfl
  cases hrm
  cases himm
  obtain ⟨off, hfetch, hput⟩ := Option.map_eq_some_iff.mp hrel
  cases hput
  refine ⟨_, rfl, ?_⟩
  rw [take_fetch1 hfetch]
  change [opcode base, loByte (sext8 off)] = [b, off]
  rw [opcode_eq hbase, loByte_sext8]

end

/-! ## The lines of the default table by format (R75 to R86) -/

/-- The descriptor of the first byte `b`, by the formats of R74, with the base from which the format counts its bits. -/
inductive TableLine (b : Byte) : EncodingDescriptor → Prop
  | rmReg {k : Kind} {base : Nat} (hline : (k, base) ∈ [(.add, 0x00), (.sub, 0x28), (.cmp, 0x38), (.mov, 0x88)])
      (hbase : b.toNat = base + b.toNat % 4) : TableLine b (rowRmReg k b.toNat)
  | xchg (hbase : b.toNat = 0x84 + b.toNat % 4) (hd : b.toNat.testBit 1 = true) :
      TableLine b (rowRmReg .xchg b.toNat)
  | accImm {k : Kind} {base : Nat} (hline : (k, base) ∈ [(.add, 0x04), (.sub, 0x2C), (.cmp, 0x3C)])
      (hbase : b.toNat = base + b.toNat % 2) : TableLine b (rowAccImm k b.toNat)
  | arithGroup (hbase : b.toNat = 0x80 + b.toNat % 4) :
      TableLine b (rowGrpRmImm arithGroup (b.toNat.testBit 1) b.toNat)
  | movGroup (hbase : b.toNat = 0xC6 + b.toNat % 2) : TableLine b (rowGrpRmImm movGroup false b.toNat)
  | pushGroup (hbase : b.toNat = 0xFF) : TableLine b (rowGrpRm pushGroup)
  | popGroup (hbase : b.toNat = 0x8F) : TableLine b (rowGrpRm popGroup)
  | regImm (hbase : b.toNat = 0xB0 + b.toNat % 16) : TableLine b (rowRegImm b.toNat)
  | rmSreg (hbase : b.toNat = 0x8C ∨ b.toNat = 0x8E) : TableLine b (rowRmSreg b.toNat)
  | accMoffs (hbase : b.toNat = 0xA0 + b.toNat % 4) : TableLine b (rowAccMoffs b.toNat)
  | regInOpcode {k : Kind} {base : Nat} (hline : (k, base) ∈ [(.push, 0x50), (.pop, 0x58)])
      (hbase : b.toNat = base + b.toNat % 8) : TableLine b (rowRegInOpcode k b.toNat)
  | sregInOpcode {k : Kind} {base : Nat} (hline : (k, base) ∈ [(.push, 0x06), (.pop, 0x07)])
      (hbase : b.toNat = base + 8 * (b.toNat / 8 % 4)) : TableLine b (rowSregInOpcode k b.toNat)
  | accReg (hbase : b.toNat = 0x90 + b.toNat % 8) : TableLine b (rowAccReg b.toNat)
  | accImm8u {k : Kind} {base : Nat} (hline : (k, base) ∈ [(.inp, 0xE4), (.out, 0xE6)])
      (hbase : b.toNat = base + b.toNat % 2) : TableLine b (rowAccImm8u k b.toNat)
  | accDx {k : Kind} {base : Nat} (hline : (k, base) ∈ [(.inp, 0xEC), (.out, 0xEE)])
      (hbase : b.toNat = base + b.toNat % 2) : TableLine b (rowAccDx k b.toNat)
  | jump (hbase : b.toNat = 0x70 + b.toNat % 16) : TableLine b (rowRel8 (jumpKind (b.toNat - 0x70)))
  | loop {k : Kind} (hline : (k, b.toNat) ∈ [(.loopnz, 0xE0), (.loopz, 0xE1), (.loop, 0xE2), (.jcxz, 0xE3)]) :
      TableLine b (rowRel8 k)
  | unused : TableLine b rowUnused

/-- A table that asks a condition first gives a line of either branch. -/
theorem TableLine.ite {b : Byte} {c : Prop} [Decidable c] {d d' : EncodingDescriptor} (hpos : c → TableLine b d)
    (hneg : TableLine b d') : TableLine b (if c then d else d') := by
  split
  next h => exact hpos h
  next => exact hneg

/-- Every entry of the default table is a line of one of the formats, in the order of the first bytes. -/
theorem encTabDefault_line (b : Byte) : TableLine b (encTabDefault b) := by
  unfold encTabDefault
  dsimp only
  by_cases hlow : b.toNat ≤ 0x03
  · rw [if_pos hlow]
    exact .rmReg (base := 0x00) (by decide) (by omega)
  rw [if_neg hlow]
  refine .ite (fun _ => .accImm (base := 0x04) (by decide) (by omega)) ?_
  refine .ite (fun _ => .sregInOpcode (base := 0x06) (by decide) (by omega)) ?_
  refine .ite (fun _ => .sregInOpcode (base := 0x07) (by decide) (by omega)) ?_
  refine .ite (fun _ => .rmReg (base := 0x28) (by decide) (by omega)) ?_
  refine .ite (fun _ => .accImm (base := 0x2C) (by decide) (by omega)) ?_
  refine .ite (fun _ => .rmReg (base := 0x38) (by decide) (by omega)) ?_
  refine .ite (fun _ => .accImm (base := 0x3C) (by decide) (by omega)) ?_
  refine .ite (fun _ => .regInOpcode (base := 0x50) (by decide) (by omega)) ?_
  refine .ite (fun _ => .regInOpcode (base := 0x58) (by decide) (by omega)) ?_
  refine .ite (fun _ => .jump (by omega)) ?_
  refine .ite (fun _ => .arithGroup (by omega)) ?_
  refine .ite (fun h => .xchg (by omega) (by obtain h | h := h <;> rw [h] <;> rfl)) ?_
  refine .ite (fun _ => .rmReg (base := 0x88) (by decide) (by omega)) ?_
  refine .ite (fun h => .rmSreg h) ?_
  refine .ite (fun h => .popGroup h) ?_
  refine .ite (fun _ => .accReg (by omega)) ?_
  refine .ite (fun _ => .accMoffs (by omega)) ?_
  refine .ite (fun _ => .regImm (by omega)) ?_
  refine .ite (fun _ => .movGroup (by omega)) ?_
  refine .ite (fun h => .loop (by rw [h]; decide)) ?_
  refine .ite (fun h => .loop (by rw [h]; decide)) ?_
  refine .ite (fun h => .loop (by rw [h]; decide)) ?_
  refine .ite (fun h => .loop (by rw [h]; decide)) ?_
  refine .ite (fun _ => .accImm8u (base := 0xE4) (by decide) (by omega)) ?_
  refine .ite (fun _ => .accImm8u (base := 0xE6) (by decide) (by omega)) ?_
  refine .ite (fun _ => .accDx (base := 0xEC) (by decide) (by omega)) ?_
  refine .ite (fun _ => .accDx (base := 0xEE) (by decide) (by omega)) ?_
  exact .ite (fun h => .pushGroup h) .unused

/-! ## From the encoder of a format to that of the kind -/

section
variable {k : Kind} {base : Nat} {r : BitVec 3} {f : Fields}

theorem encode_rmReg (hline : (k, base) ∈ [(.add, 0x00), (.sub, 0x28), (.cmp, 0x38), (.mov, 0x88)])
    (himm : f.flags.imm = false) (hsr : f.flags.sr = false) (hacc : f.isAccMoffs = false) :
    encode (k.record f) = encodeRmReg base f := by
  simp only [List.mem_cons, Prod.mk.injEq, List.not_mem_nil, or_false] at hline
  obtain ⟨rfl, rfl⟩ | ⟨rfl, rfl⟩ | ⟨rfl, rfl⟩ | ⟨rfl, rfl⟩ := hline
  · simp [Kind.record, encode, encodeArith, himm]
  · simp [Kind.record, encode, encodeArith, himm]
  · simp [Kind.record, encode, encodeArith, himm]
  · simp [Kind.record, encode, encodeMov, himm, hsr, hacc]

theorem encode_accImm (hline : (k, base) ∈ [(.add, 0x04), (.sub, 0x2C), (.cmp, 0x3C)])
    (himm : f.flags.imm = true) (hrm : f.flags.rm = false) : encode (k.record f) = encodeAccImm base f := by
  simp only [List.mem_cons, Prod.mk.injEq, List.not_mem_nil, or_false] at hline
  obtain ⟨rfl, rfl⟩ | ⟨rfl, rfl⟩ | ⟨rfl, rfl⟩ := hline <;> simp [Kind.record, encode, encodeArith, himm, hrm]

/-- The reg values of the groups 0x80 to 0x83 that have a kind (R77). -/
theorem encode_arithGroup (hkind : arithGroup[r.toNat] ≠ .notUsed) (himm : f.flags.imm = true)
    (hrm : f.flags.rm = true) : encode (arithGroup[r.toNat].record f) = encodeGrpRmImm 0x80 r f := by
  obtain rfl | rfl | rfl : r = 0 ∨ r = 5 ∨ r = 7 := by
    revert r
    decide
  all_goals simp [arithGroup, Kind.record, encode, encodeArith, himm, hrm]

/-- The reg value of the groups 0xC6 and 0xC7 that has a kind (R78). -/
theorem encode_movGroup (hkind : movGroup[r.toNat] ≠ .notUsed) (himm : f.flags.imm = true)
    (hrm : f.flags.rm = true) : encode (movGroup[r.toNat].record f) = encodeGrpRmImm 0xC6 r f := by
  obtain rfl : r = 0 := by
    revert r
    decide
  simp [movGroup, Kind.record, encode, encodeMov, himm, hrm]

/-- The reg value of the group 0xFF that has a kind (R81). -/
theorem encode_pushGroup (hkind : pushGroup[r.toNat] ≠ .notUsed) (hreg : f.flags.reg = false)
    (hsr : f.flags.sr = false) : encode (pushGroup[r.toNat].record f) = encodeGrpRm 0xFF r f := by
  obtain rfl : r = 6 := by
    revert r
    decide
  simp [pushGroup, Kind.record, encode, encodeStack, hreg, hsr]

/-- The reg value of the group 0x8F that has a kind (R81). -/
theorem encode_popGroup (hkind : popGroup[r.toNat] ≠ .notUsed) (hreg : f.flags.reg = false)
    (hsr : f.flags.sr = false) : encode (popGroup[r.toNat].record f) = encodeGrpRm 0x8F r f := by
  obtain rfl : r = 0 := by
    revert r
    decide
  simp [popGroup, Kind.record, encode, encodeStack, hreg, hsr]

theorem encode_regInOpcode (hline : (k, base) ∈ [(.push, 0x50), (.pop, 0x58)]) (hreg : f.flags.reg = true) :
    encode (k.record f) = [opcode (base + (regNumber f.op0).toNat)] := by
  simp only [List.mem_cons, Prod.mk.injEq, List.not_mem_nil, or_false] at hline
  obtain ⟨rfl, rfl⟩ | ⟨rfl, rfl⟩ := hline <;> simp [Kind.record, encode, encodeStack, hreg]

theorem encode_sregInOpcode (hline : (k, base) ∈ [(.push, 0x06), (.pop, 0x07)]) (hreg : f.flags.reg = false)
    (hsr : f.flags.sr = true) : encode (k.record f) = [opcode (base + 8 * (segNumber f.op0).toNat)] := by
  simp only [List.mem_cons, Prod.mk.injEq, List.not_mem_nil, or_false] at hline
  obtain ⟨rfl, rfl⟩ | ⟨rfl, rfl⟩ := hline <;> simp [Kind.record, encode, encodeStack, hreg, hsr]

theorem encode_accImm8u (hline : (k, base) ∈ [(.inp, 0xE4), (.out, 0xE6)]) (hport : f.flags.imm8u = true) :
    encode (k.record f) = opcode (base + f.flags.w.toNat) :: encodeImmediate 1 f.rmOperand := by
  simp only [List.mem_cons, Prod.mk.injEq, List.not_mem_nil, or_false] at hline
  obtain ⟨rfl, rfl⟩ | ⟨rfl, rfl⟩ := hline <;> simp [Kind.record, encode, encodePort, hport]

theorem encode_accDx (hline : (k, base) ∈ [(.inp, 0xEC), (.out, 0xEE)]) (hport : f.flags.imm8u = false) :
    encode (k.record f) = [opcode (base + f.flags.w.toNat)] := by
  simp only [List.mem_cons, Prod.mk.injEq, List.not_mem_nil, or_false] at hline
  obtain ⟨rfl, rfl⟩ | ⟨rfl, rfl⟩ := hline <;> simp [Kind.record, encode, encodePort, hport]

theorem encode_jumpKind {n : Nat} (hn : n < 16) : encode ((jumpKind n).record f) = encodeRel8 (0x70 + n) f := by
  interval_cases n <;> rfl

theorem encode_loop (hline : (k, base) ∈ [(.loopnz, 0xE0), (.loopz, 0xE1), (.loop, 0xE2), (.jcxz, 0xE3)]) :
    encode (k.record f) = encodeRel8 base f := by
  simp only [List.mem_cons, Prod.mk.injEq, List.not_mem_nil, or_false] at hline
  obtain ⟨rfl, rfl⟩ | ⟨rfl, rfl⟩ | ⟨rfl, rfl⟩ | ⟨rfl, rfl⟩ := hline <;> rfl

end

/-- Line by line: the encoder of the kind is that of the format, which gives back the bytes. -/
theorem encode_of_decodeRecord {b : Byte} {rest : List Byte} {i : Instr}
    (h : decodeRecord .error (listSource (b :: rest)) 0 (encTabDefault b) = some i) (hkind : i.kind ≠ .notUsed)
    (hseg : (i.fields.flags.sr && i.fields.flags.rm) = false) :
    encode i = (b :: rest).take i.fields.byteLength := by
  have hline := encTabDefault_line b
  generalize encTabDefault b = d at h hline
  cases hline with
  | rmReg hline hbase =>
    obtain ⟨f, rfl, hflags, hacc, hbytes⟩ := encodeRmReg_of_decodeRecord h hbase
    rw [Kind.record_fields, ← hbytes]
    exact encode_rmReg hline (by rw [hflags]; rfl) (by rw [hflags]; rfl) hacc
  | xchg hbase hd =>
    obtain ⟨f, rfl, hflags, -, hbytes⟩ := encodeRmReg_of_decodeRecord h hbase
    rw [Kind.record_fields, ← hbytes]
    exact if_pos (by rw [hflags]; exact hd)
  | accImm hline hbase =>
    obtain ⟨f, rfl, hflags, hbytes⟩ := encodeAccImm_of_decodeRecord h hbase
    rw [Kind.record_fields, ← hbytes]
    exact encode_accImm hline (by rw [hflags]; rfl) (by rw [hflags]; rfl)
  | arithGroup hbase =>
    have hbits := toNat_testBit_zero_one b.toNat
    rw [toNat_testBit_zero] at hbits
    obtain ⟨r, f, rfl, hflags, hbytes⟩ := encodeGrpRmImm_of_decodeRecord (base := 0x80) h (by rw [hbits]; exact hbase)
    rw [Kind.record_kind] at hkind
    rw [Kind.record_fields, ← hbytes]
    exact encode_arithGroup hkind (by rw [hflags]; rfl) (by rw [hflags]; rfl)
  | movGroup hbase =>
    obtain ⟨r, f, rfl, hflags, hbytes⟩ := encodeGrpRmImm_of_decodeRecord h hbase
    rw [Kind.record_kind] at hkind
    rw [Kind.record_fields, ← hbytes]
    exact encode_movGroup hkind (by rw [hflags]; rfl) (by rw [hflags]; rfl)
  | pushGroup hbase =>
    obtain ⟨r, f, rfl, hflags, hbytes⟩ := encodeGrpRm_of_decodeRecord h hbase
    rw [Kind.record_kind] at hkind
    rw [Kind.record_fields, ← hbytes]
    exact encode_pushGroup hkind (by rw [hflags]; rfl) (by rw [hflags]; rfl)
  | popGroup hbase =>
    obtain ⟨r, f, rfl, hflags, hbytes⟩ := encodeGrpRm_of_decodeRecord h hbase
    rw [Kind.record_kind] at hkind
    rw [Kind.record_fields, ← hbytes]
    exact encode_popGroup hkind (by rw [hflags]; rfl) (by rw [hflags]; rfl)
  | regImm hbase =>
    obtain ⟨f, rfl, hflags, hbytes⟩ := encodeRegImm_of_decodeRecord h hbase
    rw [Instr.fields, ← hbytes]
    simp [encode, encodeMov, hflags, rowRegImm]
  | rmSreg hbase =>
    rw [decodeRecord_flags h] at hseg
    cases hseg
  | accMoffs hbase =>
    obtain ⟨f, rfl, hflags, hacc, hbytes⟩ := encodeAccMoffs_of_decodeRecord h hbase
    rw [Instr.fields, ← hbytes]
    simp [encode, encodeMov, hflags, rowAccMoffs, hacc]
  | regInOpcode hline hbase =>
    obtain ⟨f, rfl, hflags, hbytes⟩ := encodeRegInOpcode_of_decodeRecord h hbase
    rw [Kind.record_fields, ← hbytes]
    exact encode_regInOpcode hline (by rw [hflags]; rfl)
  | sregInOpcode hline hbase =>
    obtain ⟨f, rfl, hflags, hbytes⟩ := encodeSregInOpcode_of_decodeRecord h hbase
    rw [Kind.record_fields, ← hbytes]
    exact encode_sregInOpcode hline (by rw [hflags]; rfl) (by rw [hflags]; rfl)
  | accReg hbase =>
    obtain ⟨f, rfl, hflags, hbytes⟩ := encodeAccReg_of_decodeRecord h hbase
    rw [Instr.fields, ← hbytes]
    exact if_neg (by rw [hflags]; nofun)
  | accImm8u hline hbase =>
    obtain ⟨f, rfl, hflags, hbytes⟩ := encodeAccImm8u_of_decodeRecord h hbase
    rw [Kind.record_fields, ← hbytes]
    exact encode_accImm8u hline (by rw [hflags]; rfl)
  | accDx hline hbase =>
    obtain ⟨f, rfl, hflags, hbytes⟩ := encodeAccDx_of_decodeRecord h hbase
    rw [Kind.record_fields, ← hbytes]
    exact encode_accDx hline (by rw [hflags]; rfl)
  | jump hbase =>
    obtain ⟨f, rfl, hbytes⟩ := encodeRel8_of_decodeRecord h rfl
    rw [Kind.record_fields, ← hbytes, encode_jumpKind (by omega), Nat.add_sub_cancel' (by omega)]
  | loop hline =>
    obtain ⟨f, rfl, hbytes⟩ := encodeRel8_of_decodeRecord h rfl
    rw [Kind.record_fields, ← hbytes]
    exact encode_loop hline
  | unused =>
    cases h
    exact absurd rfl hkind

/-- Settles O35: the list has a first byte, since it decodes, and that byte is on a line of the default table. -/
theorem encodeOfDecodeIsTheBytes : Obligations.EncodeOfDecodeIsTheBytes := by
  intro bs i n hdecode hkind hseg
  obtain ⟨rfl, b, rest, hread, hrecord⟩ := decode_instr hdecode
  cases bs with
  | nil => cases hread
  | cons b' rest' =>
    cases hread
    exact encode_of_decodeRecord hrecord hkind hseg

end Sys2Proof
end

section
/-! PROOFS. The encoding family, second part: what the table lists, the lengths of records, the load of a table word,
and the operand shapes of the default table with the operands that executions raise on. -/

namespace Sys2Proof

open Sys2Proof.Machine Sys2Proof.Claims

/-! ## The default table, entry by entry (R69 to R86) -/

theorem encTabDefault_wellFormed {b : Byte} (h : b ≠ 0x82) : (encTabDefault b).wellFormed = true := by
  revert b
  decide

theorem EncodingDescriptor.w4_of_wellFormed {d : EncodingDescriptor} (h : d.wellFormed = true) : d.w4 = true := by
  simp only [EncodingDescriptor.wellFormed, Bool.and_eq_true] at h
  obtain ⟨⟨⟨-, hw4⟩, -⟩, -⟩ := h
  exact hw4

theorem encTabDefault_w4 (b : Byte) : (encTabDefault b).w4 = true := by
  obtain rfl | hne := eq_or_ne b 0x82
  · rfl
  · exact EncodingDescriptor.w4_of_wellFormed (encTabDefault_wellFormed hne)

/-- Settles O47: the rules of R69 over the first bytes but 0x82, and one by one for 0x82. -/
theorem defaultTableWellFormedBut82 : Obligations.DefaultTableWellFormedBut82 :=
  ⟨fun _ => encTabDefault_wellFormed, rfl, rfl, rfl, rfl, rfl, rfl⟩

/-- Settles O49: rows read off the table; the kinds of 0x80 by the reg values 0, 5 and 7 of the group. -/
theorem sourceFixedTableRows : Obligations.SourceFixedTableRows := by
  refine ⟨rfl, rfl, rfl, rfl, rfl, ?_⟩
  simp only [List.forall_mem_cons]
  exact ⟨⟨modRegRm 3 0 0, rfl⟩, ⟨modRegRm 3 5 0, rfl⟩, ⟨modRegRm 3 7 0, rfl⟩, nofun⟩

/-- Settles O50: each word by running the decoder on it. -/
theorem knownWordsDecode : Obligations.KnownWordsDecode :=
  ⟨rfl, rfl, rfl, rfl, rfl, rfl⟩

theorem count_unused :
    ((List.range 256).filter fun n => encTabDefault (BitVec.ofNat 8 n) == rowUnused).length = 143 := by
  rfl

/-- An unused entry reads nothing past the first byte (R86). -/
theorem decodeRecord_rowUnused (pol : TruncPolicy) (src : ByteSource) (offset : Nat) :
    decodeRecord pol src offset rowUnused =
      some (.notUsed { flags := {}, op0 := .none, op1 := .none, byteLength := 1 }) := rfl

theorem decode_cons {tab : EncodingTable} {pol : TruncPolicy} {src : ByteSource} {offset : Nat} {b : Byte}
    {rest : List Byte} {i : Instr} (hread : src offset 1 = b :: rest)
    (h : decodeRecord pol src offset (tab b) = some i) :
    decode tab pol src offset = .instr i i.fields.byteLength := by
  simp [decode, hread, h]

/-- Settles O48: the count over the 256 first bytes, and the record of the all-zero descriptor. -/
theorem unusedFirstBytesDecodeToNotUsed : Obligations.UnusedFirstBytesDecodeToNotUsed := by
  refine ⟨count_unused, fun b rest hunused pol => ?_⟩
  exact decode_cons rfl (by rw [hunused, decodeRecord_rowUnused])

/-- Bit 5 of the pattern is not a bit of the segment field (R61). -/
theorem srField_xor_bit_five (p : Byte) : srField (p ^^^ 0x20) = srField p := by
  revert p
  decide

/-- Settles O45: the tables by running over their indices; the direct address has the two bytes it fetches. -/
theorem lookupTablesAsListed : Obligations.LookupTablesAsListed := by
  refine ⟨rfl, fun _ _ => rfl, rfl, rfl, srField_xor_bit_five, fun _ _ => isDirect_iff, ?_⟩
  intro pol src a wide p v hdirect hfetch
  rw [rmOperand_of_isDirect hdirect, hfetch]
  rfl

/-! ## The kind and the other fields (R54, R114) -/

/-- No step but the choice of the kind looks at the extension. -/
theorem map_fields_decodeRecord (pol : TruncPolicy) (src : ByteSource) (offset : Nat) (d : EncodingDescriptor)
    (e : Extension) :
    (decodeRecord pol src offset { d with extension := e }).map Instr.fields =
      (decodeRecord pol src offset d).map Instr.fields := by
  simp only [decodeRecord, Option.bind_eq_bind, Option.map_bind, Function.comp_def, Option.pure_def, Option.map_some,
    Kind.record_fields]
  rfl

/-- Settles O44: the two descriptors of the first byte differ in the extension only. -/
theorem kindDoesNotInfluenceFields : Obligations.KindDoesNotInfluenceFields := by
  intro tab tab' pol src offset hagree
  unfold decode
  cases src offset 1 with
  | nil => trivial
  | cons b rest =>
    obtain ⟨hsize, hflags, hpattern⟩ := hagree b
    have hdesc : tab' b = { tab b with extension := (tab' b).extension } := by
      dsimp only
      rw [← hsize, ← hflags, ← hpattern]
    have hfields := map_fields_decodeRecord pol src offset (tab b) (tab' b).extension
    rw [← hdesc] at hfields
    dsimp only
    cases h : decodeRecord pol src offset (tab b) with
    | none =>
      rw [h, Option.map_none, Option.map_eq_none_iff] at hfields
      rw [hfields]
      trivial
    | some i =>
      rw [h] at hfields
      obtain ⟨i', h', hi⟩ := Option.map_eq_some_iff.mp hfields
      rw [h']
      exact ⟨hi, congrArg Fields.byteLength hi⟩

/-! ## Lengths (R68, R111) -/

/-- A record's length is that of its descriptor and pattern, whatever the bytes fetched after the pattern (R68). -/
theorem decodeRecord_length {pol : TruncPolicy} {src : ByteSource} {offset : Nat} {d : EncodingDescriptor} {i : Instr}
    (h : decodeRecord pol src offset d = some i) :
    ∃ pattern len, patternStep pol src offset d = some (pattern, len) ∧
      i.fields.byteLength = lengthOf d pattern := by
  obtain ⟨pattern, len, ops₁, len₁, ops₂, len₂, ops₃, len₃, hp, hrm, himm, hrel, rfl⟩ := decodeRecord_some h
  refine ⟨pattern, len, hp, ?_⟩
  rw [Kind.record_fields, lengthOf, ← patternStep_len hp, ← rmStep_len hrm, ← immediateStep_len himm]
  exact relativeStep_len hrel

theorem one_le_lengthOf (d : EncodingDescriptor) (pattern : Byte) : 1 ≤ lengthOf d pattern := by
  unfold lengthOf
  omega

theorem lengthOf_le_seven (d : EncodingDescriptor) (pattern : Byte) : lengthOf d pattern ≤ 7 := by
  have hmod := modBytes_le d
  have hdisp := dispBytes_le d.flags pattern
  have himm := immBytes_le d.flags
  have hrel := relBytes_le d.flags
  unfold lengthOf
  omega

/-- By W4 no record has both an immediate and a branch displacement (R69). -/
theorem immBytes_add_relBytes_le {d : EncodingDescriptor} (h : d.w4 = true) :
    immBytes d.flags + relBytes d.flags ≤ 2 := by
  cases hrel : d.flags.rel with
  | false => simpa [relBytes, hrel] using immBytes_le d.flags
  | true =>
    have hnone : d.flags.imm = false ∧ d.flags.imm8u = false := by
      simp_all [EncodingDescriptor.w4]
    simp [relBytes, immBytes, hrel, hnone]

theorem lengthOf_le_six {d : EncodingDescriptor} (h : d.w4 = true) (pattern : Byte) : lengthOf d pattern ≤ 6 := by
  have hmod := modBytes_le d
  have hdisp := dispBytes_le d.flags pattern
  have hconst := immBytes_add_relBytes_le h
  unfold lengthOf
  omega

/-- Settles O39: the bounds of `lengthOf`; W4 of the well-formedness rules takes the seventh byte away. -/
theorem recordLengthBounds : Obligations.RecordLengthBounds := by
  intro tab pol src offset i n hdecode
  obtain ⟨rfl, b, rest, -, hrecord⟩ := decode_instr hdecode
  obtain ⟨pattern, len, -, hlen⟩ := decodeRecord_length hrecord
  rw [hlen]
  exact ⟨one_le_lengthOf _ _, lengthOf_le_seven _ _,
    fun hwf => lengthOf_le_six (EncodingDescriptor.w4_of_wellFormed (hwf b)) pattern⟩

/-- A record of each length, in order: a push, a short jump, moves of an immediate to AX, to a byte and to a word at a
direct address or at BX. -/
theorem exists_record_of_length {n : Nat} (hpos : 1 ≤ n) (hle : n ≤ 6) :
    ∃ bs i, decode encTabDefault .error (listSource bs) 0 = .instr i n := by
  interval_cases n
  · exact ⟨[0x53], _, rfl⟩
  · exact ⟨[0x75, 0xFB], _, rfl⟩
  · exact ⟨[0xB8, 0x05, 0x00], _, rfl⟩
  · exact ⟨[0xC7, 0x07, 0x05, 0x00], _, rfl⟩
  · exact ⟨[0xC6, 0x06, 0x00, 0x10, 0x05], _, rfl⟩
  · exact ⟨[0xC7, 0x06, 0x00, 0x10, 0x34, 0x12], _, rfl⟩

/-- Settles O38: the law of every table, with it the bounds for the default one, and a record of each length. -/
theorem recordLengthLaw : Obligations.RecordLengthLaw := by
  refine ⟨fun tab pol src offset i n hdecode => ?_, fun pol src offset i n hdecode => ?_, fun n hpos hle =>
    exists_record_of_length hpos hle⟩
  · obtain ⟨rfl, b, rest, hread, hrecord⟩ := decode_instr hdecode
    obtain ⟨pattern, len, hp, hlen⟩ := decodeRecord_length hrecord
    exact ⟨b, rest, pattern, hread, fun hsize => (patternStep_single hp hsize).1,
      fun hsize => (patternStep_withModByte hp hsize).1, hlen⟩
  · obtain ⟨rfl, b, rest, -, hrecord⟩ := decode_instr hdecode
    obtain ⟨pattern, len, -, hlen⟩ := decodeRecord_length hrecord
    rw [hlen]
    exact ⟨one_le_lengthOf _ _, lengthOf_le_six (encTabDefault_w4 b) pattern⟩

/-! ## The load of a table word (R85, R203) -/

/-- The byte source that is `src` from `base` on. -/
def ByteSource.startingAt (src : ByteSource) (base : Nat) : ByteSource := fun a count => src (base + a) count

/-- A decode at `base` is the decode at 0 of the source from `base` on: the offset is used in reads only (R40). -/
theorem decode_startingAt (tab : EncodingTable) (pol : TruncPolicy) (src : ByteSource) (base : Nat) :
    decode tab pol (src.startingAt base) 0 = decode tab pol src base := by
  have h1 : ∀ a, fetch1 pol (src.startingAt base) a = fetch1 pol src (base + a) := fun _ => rfl
  have h2 : ∀ a, fetch2 pol (src.startingAt base) a = fetch2 pol src (base + a) := fun _ => rfl
  simp only [decode, decodeRecord, patternStep, rmStep, rmOperand, displacement, immediateStep, relativeStep, h1, h2,
    Nat.zero_add]
  rfl

theorem listSource_append_startingAt (before bs : List Byte) :
    (listSource (before ++ bs)).startingAt before.length = listSource bs := by
  funext a count
  rw [ByteSource.startingAt, listSource, listSource, List.drop_length_add_append]

/-- Every read of a plan lies within the record (R40). -/
theorem contiguousFrom_mem_le {a x count : Nat} {reads : List (Nat × Nat)} (h : contiguousFrom a reads)
    (hmem : (x, count) ∈ reads) : x + count ≤ a + (reads.map Prod.snd).sum := by
  induction reads generalizing a with
  | nil => cases hmem
  | cons read reads ih =>
    obtain ⟨b, n⟩ := read
    obtain ⟨rfl, -, -, hrest⟩ := h
    rw [List.map_cons, List.sum_cons]
    obtain hmem | hmem := List.mem_cons.mp hmem
    · cases hmem
      omega
    · have hle := ih hrest hmem
      omega

theorem readPlan_mem_le {d : EncodingDescriptor} {pattern : Byte} {offset a count : Nat}
    (h : (a, count) ∈ readPlan d pattern offset) : a + count ≤ offset + lengthOf d pattern := by
  rw [← sum_counts_readPlan d pattern offset]
  exact contiguousFrom_mem_le (contiguousFrom_readPlan d pattern offset) h

theorem listSource_append {bs after : List Byte} {a count : Nat} (h : a + count ≤ bs.length) :
    listSource (bs ++ after) a count = listSource bs a count := by
  rw [listSource, listSource, List.drop_append_of_le_length (by omega), List.take_append_of_le_length]
  rw [List.length_drop]
  omega

/-- Bytes past the longest record of the default table do not matter to the decode at the first (R111). -/
theorem decode_append {bs : List Byte} (h : maxInstrBytes ≤ bs.length) (pol : TruncPolicy) (after : List Byte) :
    decode encTabDefault pol (listSource (bs ++ after)) 0 = decode encTabDefault pol (listSource bs) 0 := by
  have hread : ∀ a count, a + count ≤ 6 → listSource (bs ++ after) a count = listSource bs a count :=
    fun _ _ hle => listSource_append (hle.trans h)
  refine decodeDependsOnItsReadsOnly _ _ _ _ _ (hread 0 1 (by decide)) ?_ fun _ _ _ _ => hread _ _ (by decide)
  intro b rest pattern len _ _ a count hmem
  have hle := readPlan_mem_le hmem
  have hsix := lengthOf_le_six (encTabDefault_w4 b) pattern
  exact hread a count (by omega)

theorem length_tableWordBytes (nbits w : Nat) : (tableWordBytes nbits w).length = maxInstrBytes := by
  unfold tableWordBytes
  split <;> rfl

namespace Machine

/-- A load that fits the address space stands at its address (R36, R203). -/
theorem Memory.overlay_bytes (m : Memory) {a : Nat} {bs : List Byte} (h : a + bs.length ≤ Config.addressSpace) :
    ∃ before after, before.length = a ∧ (m.overlay a bs).bytes = before ++ (bs ++ after) := by
  have hbefore : (m.bytes.take a ++ List.replicate (a - m.bytes.length) 0).length = a := by
    rw [List.length_append, List.length_take, List.length_replicate]
    omega
  refine ⟨_, (m.bytes.drop (a + bs.length)).take (Config.addressSpace - (a + bs.length)), hbefore, ?_⟩
  rw [Memory.overlay, Memory.ofBytes, Memory.bytes_cellsFrom, List.take_append, List.take_of_length_le,
    List.append_assoc, List.length_append, hbefore]
  rwa [List.length_append, hbefore]

/-- The next fetch after a load that fits decodes the loaded word, whatever lies around it. -/
theorem fetch_withFetchWord {s : State} (h : s.ip.toNat + maxInstrBytes ≤ 65536) (nbits w : Nat) :
    fetch (s.withFetchWord nbits w) =
      decode encTabDefault Config.truncPolicy (listSource (tableWordBytes nbits w)) 0 := by
  have hlen := length_tableWordBytes nbits w
  obtain ⟨before, after, hbefore, hbytes⟩ :=
    Memory.overlay_bytes s.mem (a := s.ip.toNat) (bs := tableWordBytes nbits w) (by rw [hlen]; exact h)
  have hsrc : (s.withFetchWord nbits w).mem.readBytes = listSource (before ++ (tableWordBytes nbits w ++ after)) := by
    funext a count
    rw [State.withFetchWord_mem, Memory.readBytes_of_wf (Memory.overlay_wf _ _ _), hbytes]
  rw [fetch, hsrc, State.withFetchWord_ip, ← decode_startingAt, ← hbefore, listSource_append_startingAt]
  exact decode_append hlen.ge _ after

theorem step_of_fetch {s : State} {i : Instr} {n : Nat} (h : fetch s = .instr i n) : step s = exec i s := by
  unfold step
  rw [h]

theorem decodeTableWord_some {nbits w : Nat} {i : Instr} (h : decodeTableWord nbits w = some i) :
    ∃ n, decode encTabDefault Config.truncPolicy (listSource (tableWordBytes nbits w)) 0 = .instr i n := by
  unfold decodeTableWord at h
  split at h
  next j n hdecode =>
    cases h
    exact ⟨n, hdecode⟩
  next => cases h
  next => cases h

/-- Settles O26: the fetch after the load is the decode of the word alone. -/
theorem fetchWordRunsItsInstruction : Obligations.FetchWordRunsItsInstruction := by
  intro s nbits w i hip hword
  obtain ⟨n, hdecode⟩ := decodeTableWord_some hword
  exact step_of_fetch ((fetch_withFetchWord hip nbits w).trans hdecode)

end Machine

/-! ## Operand shapes by the descriptor (R97 to R105, R113) -/

/-- What a descriptor fixes of an operand: its form, and of a register its class and width. -/
inductive OperandShape where
  | none
  | register (segment wide : Bool)
  | memory
  | immediate
  | relative
  deriving DecidableEq

def Operand.shape : Operand → OperandShape
  | .none => .none
  | .register id p => .register (match id with | .general _ => false | .segment _ => true) (p == .full16)
  | .memory _ _ => .memory
  | .immediate _ => .immediate
  | .relative _ => .relative

/-- Slot 1 (`true`) or slot 0 (`false`). -/
def Slots.get (ops : Slots) (slot : Bool) : Operand := if slot then ops.op1 else ops.op0

/-- The shape in a slot after the rm step; `mem` says that the pattern's mod is not 0b11 (R98 to R102). -/
def FieldFlags.fixedShape (F : FieldFlags) (mem slot : Bool) : OperandShape :=
  if F.rm && slot == F.d then (if mem then .memory else .register false (F.w || F.rmw))
  else if F.sr && slot == !F.d then .register true true
  else if F.reg && slot == !F.d then .register false F.w
  else .none

/-- The shape in a slot of the finished record: an immediate or a branch displacement goes to slot 0 if that is unused,
else to slot 1 (R103 to R105). -/
def FieldFlags.shape (F : FieldFlags) (mem slot : Bool) : OperandShape :=
  let target := F.fixedShape mem false != .none
  if F.rel && slot == target then .relative
  else if (F.imm || F.imm8u) && slot == target then .immediate
  else F.fixedShape mem slot

theorem Slots.get_put (ops : Slots) (slot slot' : Bool) (o : Operand) :
    (ops.put slot o).get slot' = if slot' == slot then o else ops.get slot' := by
  cases slot <;> cases slot' <;> rfl

theorem Operand.shape_eq_none {o : Operand} : o.shape = .none ↔ o = .none := by
  cases o <;> simp [Operand.shape]

theorem shape_regOperand (n : BitVec 3) (wide : Bool) : (regOperand n wide).shape = .register false wide := by
  revert n wide
  decide

section
variable {pol : TruncPolicy} {src : ByteSource} {offset len len' : Nat} {F : FieldFlags} {pattern : Byte} {t : Bool}
  {ops ops' : Slots} {slot : Bool}

theorem rmOperand_shape {a k : Nat} {wide : Bool} {o : Operand} (h : rmOperand pol src a wide pattern = some (o, k)) :
    o.shape = if modField pattern != 3 then .memory else .register false wide := by
  obtain ⟨hm, rfl, -⟩ | ⟨_, hm, -, rfl, -⟩ | ⟨_, hm, -, rfl, -⟩ | ⟨_, hdirect, -, rfl, -⟩ | ⟨hm, rfl, -⟩ :=
    rmOperand_some h
  · rw [hm]
    exact shape_regOperand _ _
  · rw [hm]
    rfl
  · rw [hm]
    rfl
  · rw [(isDirect_iff.mp hdirect).1]
    rfl
  · rw [hm]
    rfl

theorem regStep_get : (regStep F pattern ops).get slot =
    if F.reg && slot == !F.d then regOperand (regField pattern) F.w else ops.get slot := by
  unfold regStep
  cases F.reg with
  | false => rfl
  | true => exact Slots.get_put ops _ slot _

theorem segStep_get : (segStep F pattern ops).get slot =
    if F.sr && slot == !F.d then segOperand (srField pattern) else ops.get slot := by
  unfold segStep
  cases F.sr with
  | false => rfl
  | true => exact Slots.get_put ops _ slot _

/-- The three steps that write the register and rm operands, the last one on top. -/
theorem rmStep_shape
    (h : rmStep pol src offset F pattern (segStep F pattern (regStep F pattern {})) len = some (ops', len')) :
    (ops'.get slot).shape = F.fixedShape (modField pattern != 3) slot := by
  have hempty : (Slots.get {} slot).shape = .none := by cases slot <;> rfl
  have hbelow : ((segStep F pattern (regStep F pattern {})).get slot).shape =
      if F.sr && slot == !F.d then .register true true
      else if F.reg && slot == !F.d then .register false F.w
      else .none := by
    rw [segStep_get, regStep_get, apply_ite Operand.shape, apply_ite Operand.shape, shape_regOperand, hempty]
    rfl
  unfold rmStep at h
  unfold FieldFlags.fixedShape
  split at h
  next hrm =>
    obtain ⟨⟨o, k⟩, ho, hput⟩ := Option.map_eq_some_iff.mp h
    cases hput
    rw [Slots.get_put, hrm, Bool.true_and]
    split
    · exact rmOperand_shape ho
    · exact hbelow
  next hrm =>
    cases h
    rw [hbelow, Bool.eq_false_iff.mpr hrm]
    rfl

/-- The immediate step writes nothing, or an immediate in the target slot. -/
theorem immediateStep_shape (h : immediateStep pol src offset F t ops len = some (ops', len')) :
    (ops'.get slot).shape = if (F.imm || F.imm8u) && slot == t then .immediate else (ops.get slot).shape := by
  have hput : ∀ v, ((ops.put t (.immediate v)).get slot).shape =
      if slot == t then .immediate else (ops.get slot).shape := fun v => by
    rw [Slots.get_put, apply_ite Operand.shape]
    rfl
  unfold immediateStep at h
  split_ifs at h with hword himm himm8u
  · have himm : F.imm = true := by
      simp only [Bool.and_eq_true] at hword
      exact hword.1.1
    obtain ⟨v, -, hv⟩ := Option.map_eq_some_iff.mp h
    cases hv
    rw [himm, hput, Bool.true_or, Bool.true_and]
  · obtain ⟨v, -, hv⟩ := Option.map_eq_some_iff.mp h
    cases hv
    rw [himm, hput, Bool.true_or, Bool.true_and]
  · obtain ⟨v, -, hv⟩ := Option.map_eq_some_iff.mp h
    cases hv
    rw [himm8u, hput, Bool.or_true, Bool.true_and]
  · cases h
    rw [Bool.eq_false_iff.mpr himm, Bool.eq_false_iff.mpr himm8u]
    rfl

/-- The branch displacement step writes nothing, or a branch offset in the target slot. -/
theorem relativeStep_shape (h : relativeStep pol src offset F t ops len = some (ops', len')) :
    (ops'.get slot).shape = if F.rel && slot == t then .relative else (ops.get slot).shape := by
  unfold relativeStep at h
  split at h
  next hrel =>
    obtain ⟨v, -, hv⟩ := Option.map_eq_some_iff.mp h
    cases hv
    rw [Slots.get_put, hrel, Bool.true_and, apply_ite Operand.shape]
    rfl
  next hrel =>
    cases h
    rw [Bool.eq_false_iff.mpr hrel]
    rfl

/-- The shapes of a record's operands are fixed by the flags and by whether mod is 0b11. -/
theorem decodeRecord_shape {d : EncodingDescriptor} {i : Instr} (h : decodeRecord pol src offset d = some i) :
    ∃ pattern, (d.sizeClass = .single → pattern = d.pattern) ∧ i.kind = d.kindOf pattern ∧
      i.fields.op0.shape = d.flags.shape (modField pattern != 3) false ∧
      i.fields.op1.shape = d.flags.shape (modField pattern != 3) true := by
  obtain ⟨pattern, len, ops₁, len₁, ops₂, len₂, ops₃, len₃, hp, hrm, himm, hrel, rfl⟩ := decodeRecord_some h
  have htarget : ops₁.immediateTarget = (d.flags.fixedShape (modField pattern != 3) false != .none) := by
    rw [← rmStep_shape (slot := false) hrm, Bool.eq_iff_iff, bne_iff_ne, Slots.immediateTarget_iff, Ne, Ne,
      Operand.shape_eq_none]
    rfl
  have hshape : ∀ slot, (ops₃.get slot).shape = d.flags.shape (modField pattern != 3) slot := fun slot => by
    rw [relativeStep_shape hrel, immediateStep_shape himm, rmStep_shape hrm, htarget]
    rfl
  refine ⟨pattern, fun hsize => (patternStep_single hp hsize).1, Kind.record_kind _ _, ?_, ?_⟩
  · rw [Kind.record_fields]
    exact hshape false
  · rw [Kind.record_fields]
    exact hshape true

end

/-! ## The operands of the default table's records (R113) -/

/-- Two register shapes of different widths. -/
def OperandShape.widthsDiffer : OperandShape → OperandShape → Bool
  | .register _ wide, .register _ wide' => wide != wide'
  | _, _ => false

theorem widthsDiffer_shape (o o' : Operand) : widthsDiffer o o' = o.shape.widthsDiffer o'.shape := by
  cases o with
  | register id p => cases o' <;> rfl
  | none | memory mode disp | immediate v | relative off => rfl

theorem Operand.shape_eq_immediate {o : Operand} : (∃ v, o = .immediate v) ↔ o.shape = .immediate := by
  cases o <;> simp [Operand.shape]

theorem encTabDefault_op0_used (b : Byte) (mem : Bool) (h : encTabDefault b ≠ rowUnused) :
    (encTabDefault b).flags.shape mem false ≠ .none := by
  revert b mem
  decide

theorem encTabDefault_relative (b : Byte) (mem : Bool) :
    (encTabDefault b).flags.shape mem true ≠ .relative ∧
    ((encTabDefault b).flags.shape mem false = .relative → (encTabDefault b).flags.shape mem true = .none) := by
  revert b mem
  decide

theorem encTabDefault_op0_immediate (b : Byte) (mem : Bool) :
    (encTabDefault b).flags.shape mem false = .immediate ↔ b = 0xE6 ∨ b = 0xE7 := by
  revert b mem
  decide

/-- An entry without a mod/reg/rm byte has the mod of its fixed pattern: 0b11 for `ACC_DX` (R83). -/
theorem encTabDefault_widthsDiffer (b : Byte) (mem : Bool)
    (hmem : (encTabDefault b).sizeClass = .single → mem = (modField (encTabDefault b).pattern != 3)) :
    ((encTabDefault b).flags.shape mem false).widthsDiffer ((encTabDefault b).flags.shape mem true) = true ↔
      b = 0xEC ∨ b = 0xEE := by
  revert b mem
  decide

theorem encTabDefault_segment_moves_wide {b : Byte} (h : b = 0x8C ∨ b = 0x8E) (mem slot segment : Bool) :
    (encTabDefault b).flags.shape mem slot ≠ .register segment false := by
  obtain rfl | rfl := h <;> revert mem slot segment <;> decide

/-- Settles O51: each clause is one about the shapes that the flags of the first byte's entry give. -/
theorem defaultTableOperandShapes : Obligations.DefaultTableOperandShapes := by
  intro pol src offset b rest i n hread hdecode
  obtain ⟨-, b', rest', hread', hrecord⟩ := decode_instr hdecode
  cases hread.symm.trans hread'
  obtain ⟨pattern, hsingle, -, h0, h1⟩ := decodeRecord_shape hrecord
  have hmem := fun hsize => congrArg (modField · != 3) (hsingle hsize)
  generalize (modField pattern != 3) = mem at h0 h1 hmem
  obtain ⟨hnoRel, hrel⟩ := encTabDefault_relative b mem
  refine ⟨fun hused hnone => ?_, fun off hoff => ?_, ?_, ?_, fun hseg id p hp => ?_⟩
  · rw [hnone] at h0
    exact encTabDefault_op0_used b mem hused h0.symm
  · obtain hoff | hoff := hoff
    · rw [hoff] at h0
      exact ⟨hoff, Operand.shape_eq_none.mp (h1.trans (hrel h0.symm))⟩
    · rw [hoff] at h1
      exact absurd h1.symm hnoRel
  · rw [Operand.shape_eq_immediate, h0]
    exact encTabDefault_op0_immediate b mem
  · rw [widthsDiffer_shape, h0, h1]
    exact encTabDefault_widthsDiffer b mem hmem
  · have hwide := encTabDefault_segment_moves_wide hseg mem
    by_contra hp16
    have hshape : ∃ segment, (Operand.register id p).shape = .register segment false :=
      ⟨_, congrArg _ (beq_eq_false_iff_ne.mpr hp16)⟩
    obtain ⟨segment, hshape⟩ := hshape
    obtain hp | hp := hp
    · rw [hp] at h0
      exact hwide false segment (h0.symm.trans hshape)
    · rw [hp] at h1
      exact hwide true segment (h1.symm.trans hshape)

end Sys2Proof

namespace Sys2Proof.Machine

open Sys2Proof Sys2Proof.Claims

/-! ## The operands an executed kind raises on (R129, R186) -/

section
variable {pol : MemReadPolicy} {o : Operand} {f : Fields} {s : State}

theorem readOp_eq_none_iff : readOp pol o s = none ↔ unreadable pol o = true := by
  cases o with
  | none | immediate v | relative off => simp [readOp, unreadable, isValue, isMemory]
  | register id p => cases id <;> simp [readOp, unreadable, isValue, isMemory]
  | memory mode disp => cases pol <;> simp [readOp, unreadable, isValue, isMemory]

theorem writeOp_eq_none_iff {v : Word} : writeOp o v s = none ↔ isDestination o = false := by
  cases o with
  | none | immediate v | relative off | memory mode disp => simp [writeOp, isDestination]
  | register id p => cases id <;> simp [writeOp, isDestination]

theorem readBoth_eq_none_iff : readBoth pol f s = none ↔ unreadable pol f.op0 = true ∨ unreadable pol f.op1 = true := by
  unfold readBoth
  split
  next h0 => simp [readOp_eq_none_iff.mp h0]
  next a s₁ h0 =>
    have hread : unreadable pol f.op0 ≠ true := fun h => by simp [readOp_eq_none_iff.mpr h] at h0
    split
    next h1 => simp [readOp_eq_none_iff.mp h1]
    next b s₂ h1 =>
      have hread' : unreadable pol f.op1 ≠ true := fun h => by simp [readOp_eq_none_iff.mpr h] at h1
      simp [hread, hread']

theorem movUnder_unsupportedOperand_iff : movUnder pol f s = .fault .unsupportedOperand ↔
    isDestination f.op0 = false ∨ unreadable pol f.op1 = true := by
  rw [← readOp_eq_none_iff (s := s)]
  unfold movUnder
  split
  next hread => simp [hread, raise]
  next v s₁ hread =>
    rw [← writeOp_eq_none_iff (v := v) (s := s₁)]
    split
    next hwrite => simp [hwrite, raise]
    next s₂ hwrite => simp [hread, hwrite]

theorem arithUnder_unsupportedOperand_iff {alu : Word → Word → Word} :
    arithUnder alu pol f s = .fault .unsupportedOperand ↔
      isDestination f.op0 = false ∨ unreadable pol f.op0 = true ∨ unreadable pol f.op1 = true := by
  rw [← readBoth_eq_none_iff (s := s)]
  unfold arithUnder
  split
  next hread => simp [hread, raise]
  next a b s₁ hread =>
    rw [← writeOp_eq_none_iff (v := alu a b) (s := s₁)]
    split
    next hwrite => simp [hwrite, raise]
    next s₂ hwrite => simp [hread, hwrite]

theorem cmpUnder_unsupportedOperand_iff : cmpUnder pol f s = .fault .unsupportedOperand ↔
    unreadable pol f.op0 = true ∨ unreadable pol f.op1 = true := by
  rw [← readBoth_eq_none_iff (s := s)]
  unfold cmpUnder
  split
  next hread => simp [hread, raise]
  next a b s₁ hread => simp [hread]

theorem execJne_unsupportedOperand_iff :
    execJne f s = .fault .unsupportedOperand ↔ raisesOperand pol (.jne f) = true := by
  unfold execJne
  split <;> simp_all [raisesOperand, raise]

/-- The table of R186 says of every record whether its execution raises for an operand. -/
theorem executeUnder_unsupportedOperand_iff (i : Instr) :
    executeUnder pol i s = .fault .unsupportedOperand ↔ raisesOperand pol i = true := by
  cases i with
  | mov f => exact movUnder_unsupportedOperand_iff.trans (by simp [raisesOperand])
  | add f | sub f => exact arithUnder_unsupportedOperand_iff.trans (by simp [raisesOperand, or_assoc])
  | cmp f => exact cmpUnder_unsupportedOperand_iff.trans (by simp [raisesOperand])
  | jne f => exact execJne_unsupportedOperand_iff
  | jo f | jno f | jb f | jnb f | je f | jbe f | ja f | js f | jns f | jp f | jnp f | jl f | jnl f | jle f | jg f
  | loopnz f | loopz f | loop f | jcxz f | push f | pop f | xchg f | inp f | out f | notUsed f =>
    exact iff_of_false nofun nofun

end

/-- What is left of an operand's shape for the reads and writes of an execution under `Draw` (R123, R124). -/
def shapeIsValue : OperandShape → Bool
  | .register segment _ => !segment
  | .memory | .immediate => true
  | .none | .relative => false

def shapeIsDestination : OperandShape → Bool
  | .register segment _ => !segment
  | .memory => true
  | .none | .immediate | .relative => false

theorem isValue_shape (o : Operand) : isValue o = shapeIsValue o.shape := by
  cases o with
  | register id p => cases id <;> rfl
  | none | memory mode disp | immediate v | relative off => rfl

theorem isDestination_shape (o : Operand) : isDestination o = shapeIsDestination o.shape := by
  cases o with
  | register id p => cases id <;> rfl
  | none | memory mode disp | immediate v | relative off => rfl

theorem unreadable_draw (o : Operand) : unreadable .draw o = !shapeIsValue o.shape := by
  rw [← isValue_shape]
  exact Bool.or_false _

/-- The table of R186 under `Draw`, by the shapes of the operands. -/
def raisesShape (k : Kind) (op0 op1 : OperandShape) : Bool :=
  match k with
  | .mov => !shapeIsDestination op0 || !shapeIsValue op1
  | .add | .sub => !shapeIsDestination op0 || !shapeIsValue op0 || !shapeIsValue op1
  | .cmp => !shapeIsValue op0 || !shapeIsValue op1
  | .jne => op0 != .relative
  | _ => false

theorem raisesOperand_draw_shape (i : Instr) :
    raisesOperand .draw i = raisesShape i.kind i.fields.op0.shape i.fields.op1.shape := by
  cases i with
  | mov f | add f | sub f | cmp f =>
    simp [raisesOperand, raisesShape, Instr.kind, Instr.fields, isDestination_shape, unreadable_draw]
  | jne f =>
    obtain ⟨flags, op0, op1, byteLength⟩ := f
    cases op0 <;> rfl
  | jo f | jno f | jb f | jnb f | je f | jbe f | ja f | js f | jns f | jp f | jnp f | jl f | jnl f | jle f | jg f
  | loopnz f | loopz f | loop f | jcxz f | push f | pop f | xchg f | inp f | out f | notUsed f => rfl

/-- The kind depends on the reg field of the pattern only (R54, R96). -/
theorem kindOf_regField (d : EncodingDescriptor) (pattern : Byte) :
    d.kindOf pattern = d.kindOf (modRegRm 0 (regField pattern) 0) := by
  simp [EncodingDescriptor.kindOf]

/-- Over the first bytes and the reg values: the shapes raise for the kind exactly at 0x8C and 0x8E. -/
theorem encTabDefault_raisesShape (b : Byte) (r : BitVec 3) (mem : Bool) :
    raisesShape ((encTabDefault b).kindOf (modRegRm 0 r 0)) ((encTabDefault b).flags.shape mem false)
      ((encTabDefault b).flags.shape mem true) = true ↔ b = 0x8C ∨ b = 0x8E := by
  revert b r mem
  decide

theorem exec_unsupportedOperand_iff_byte {trunc : TruncPolicy} {src : ByteSource} {offset : Nat} {b : Byte} {i : Instr}
    (h : decodeRecord trunc src offset (encTabDefault b) = some i) (s : State) :
    exec i s = .fault .unsupportedOperand ↔ b = 0x8C ∨ b = 0x8E := by
  obtain ⟨pattern, -, hkind, h0, h1⟩ := decodeRecord_shape h
  rw [exec_eq_executeUnder_draw, executeUnder_unsupportedOperand_iff, raisesOperand_draw_shape, hkind, h0, h1,
    kindOf_regField]
  exact encTabDefault_raisesShape b _ _

theorem Memory.byte?_of_readBytes_one {m : Memory} {a : Nat} {b : Byte} {rest : List Byte}
    (h : m.readBytes a 1 = b :: rest) : m.byte? a = some b := by
  unfold Memory.readBytes at h
  split at h
  next => cases h
  next b' hb =>
    cases h
    exact hb

/-- Settles O30: a step raises an operand response through the execution of a decoded record only. -/
theorem onlySegmentMovesRaiseUnsupportedOperand : Obligations.OnlySegmentMovesRaiseUnsupportedOperand := by
  intro s
  unfold step
  cases hfetch : fetch s with
  | instr i n =>
    obtain ⟨-, b, rest, hread, hrecord⟩ := decode_instr hfetch
    dsimp only
    rw [exec_unsupportedOperand_iff_byte hrecord, Memory.byte?_of_readBytes_one hread]
    simp
  | endOfStream => simp [raise]
  | truncatedField => simp [raise]

end Sys2Proof.Machine
end

section
/-! PROOFS. The decode engine: the round trip between records and bytes, the records that the default table gives, lengths
and displacements, truncated reads, and the listing (R93 to R116, R205). -/

namespace Sys2Proof

open Sys2Proof.Machine Sys2Proof.Claims

/-! ## Bytes that lie at an offset of a byte source -/

section
variable {src : ByteSource} {pol : TruncPolicy} {a : Nat} {b : Byte} {v : Word} {bs bs' : List Byte}

theorem read_one_of_holdsAt (h : holdsAt src a (b :: bs)) : ∃ rest, src a 1 = b :: rest := by
  have hread := h 0 1 (Nat.succ_pos _)
  cases hsrc : src a 1 with
  | nil => simp [hsrc] at hread
  | cons c rest =>
    rw [Nat.add_zero, hsrc] at hread
    exact ⟨rest, by rw [(List.cons.inj hread).1]⟩

theorem holdsAt_tail (h : holdsAt src a (b :: bs)) : holdsAt src (a + 1) bs := by
  intro k count hk
  have hread := h (k + 1) count (Nat.succ_lt_succ hk)
  rw [List.length_cons, Nat.add_sub_add_right, List.drop_succ_cons] at hread
  rwa [Nat.add_assoc, Nat.add_comm 1 k]

theorem holdsAt_append_left (h : holdsAt src a (bs ++ bs')) : holdsAt src a bs := by
  intro k count hk
  have hread := congrArg (List.take (bs.length - k)) (h k count (by rw [List.length_append]; omega))
  rw [List.take_take, List.length_append, min_eq_left (by omega), List.drop_append_of_le_length hk.le, List.take_take,
    min_comm, ← List.take_take (i := count), List.take_left' (List.length_drop ..)] at hread
  exact hread

theorem holdsAt_append_right (h : holdsAt src a (bs ++ bs')) : holdsAt src (a + bs.length) bs' := by
  intro k count hk
  have hread := h (bs.length + k) count (by rw [List.length_append]; omega)
  rwa [List.length_append, Nat.add_sub_add_left, List.drop_length_add_append, ← Nat.add_assoc] at hread

theorem fetch1_of_holdsAt (h : holdsAt src a (b :: bs)) : fetch1 pol src a = some b := by
  obtain ⟨rest, hread⟩ := read_one_of_holdsAt h
  simp [fetch1, hread]

theorem fetch2_of_holdsAt (h : holdsAt src a (wordBytes v)) : fetch2 pol src a = some v := by
  have hread : (src a 2).take 2 = [loByte v, hiByte v] := h 0 2 (Nat.succ_pos 1)
  match hsrc : src a 2, hread with
  | b0 :: b1 :: _, hread =>
    obtain ⟨h0, h1⟩ : b0 = loByte v ∧ b1 = hiByte v := by simpa using hread
    simp [fetch2, hsrc, h0, h1]

end

theorem isSignedByte_iff {v : Word} : Word.isSignedByte v = true ↔ sext8 (loByte v) = v := by
  rw [Word.isSignedByte, beq_iff_eq, BitVec.setWidth_eq_extractLsb' (by decide)]
  exact eq_comm

theorem isUnsignedByte_iff {v : Word} : Word.isUnsignedByte v = true ↔ zext8 (loByte v) = v := by
  rw [Word.isUnsignedByte, beq_iff_eq, BitVec.setWidth_eq_extractLsb' (x := v) (by decide)]
  exact eq_comm

/-! ## The rm operand, from and to its bytes (R63, R101, R102) -/

section
variable {pol : TruncPolicy} {src : ByteSource} {a k : Nat} {wide : Bool} {pattern : Byte} {o : Operand}
  {mode : AddressingMode} {disp : Word}

theorem rmOperand_of_mod_one (h : modField pattern = 1) :
    rmOperand pol src a wide pattern =
      (fetch1 pol src a).map fun b => (.memory (eaTab (rmField pattern)) (sext8 b), 1) := by
  simp [rmOperand, displacement, isDirect, h, Function.comp_def]

theorem rmOperand_of_mod_two (h : modField pattern = 2) :
    rmOperand pol src a wide pattern =
      (fetch2 pol src a).map fun v => (.memory (eaTab (rmField pattern)) v, 2) := by
  simp [rmOperand, displacement, isDirect, h, Function.comp_def]

theorem rmOperand_of_mod_zero (h : modField pattern = 0) (hrm : rmField pattern ≠ 6) :
    rmOperand pol src a wide pattern = some (.memory (eaTab (rmField pattern)) 0, 0) := by
  have hdirect : isDirect 0 (rmField pattern) = false := beq_eq_false_iff_ne.mpr hrm
  simp only [rmOperand, displacement, h, hdirect]
  rfl

theorem isRm_register {id : RegisterId} {p : Portion} :
    (Operand.register id p).isRm wide k = true ↔ (Operand.register id p).isReg wide = true ∧ k = 0 := by
  simp [Operand.isRm]

theorem isRm_direct : (Operand.memory .direct disp).isRm wide k = true ↔ k = 2 := by
  simp [Operand.isRm]

theorem isRm_memory (hmode : mode ≠ .direct) : (Operand.memory mode disp).isRm wide k = true ↔
    (k = 0 ∧ mode ≠ .bp ∧ disp = 0) ∨ (k = 1 ∧ sext8 (loByte disp) = disp) ∨ k = 2 := by
  rw [← isSignedByte_iff]
  match k with
  | 0 | 1 | 2 | n + 3 => cases mode <;> simp_all [Operand.isRm]

/-- The bytes of an rm-derived operand are a mod/reg/rm byte with the given reg field and the displacement bytes, from
which the operand is read back (R63, R101, R102). -/
theorem encodeRm_isRm (h : o.isRm wide k = true) (r : BitVec 3) :
    ∃ pattern disp, encodeRm r o k = pattern :: disp ∧ regField pattern = r ∧ disp.length = k ∧
      ∀ (pol : TruncPolicy) (src : ByteSource) (a : Nat), holdsAt src a disp →
        rmOperand pol src a wide pattern = some (o, k) := by
  cases o with
  | register id p =>
    obtain ⟨hreg, rfl⟩ := isRm_register.mp h
    refine ⟨_, [], rfl, regField_modRegRm _ _ _, rfl, fun pol src a _ => ?_⟩
    rw [rmOperand_of_mod_three (modField_modRegRm _ _ _), rmField_modRegRm, regOperand_regNumber hreg]
  | memory mode v =>
    by_cases hmode : mode = .direct
    · subst hmode
      obtain rfl := isRm_direct.mp h
      refine ⟨_, wordBytes v, rfl, regField_modRegRm _ _ _, rfl, fun pol src a hdisp => ?_⟩
      rw [rmOperand_of_isDirect (by simp [isDirect_iff]), fetch2_of_holdsAt hdisp]
      rfl
    · obtain ⟨x, rfl⟩ : ∃ x, mode = eaTab x := ⟨_, (eaTab_modeNumber hmode).symm⟩
      obtain ⟨hnone, hbyte, hword⟩ := encodeRm_eaTab r x v
      obtain ⟨rfl, hbp, rfl⟩ | ⟨rfl, hv⟩ | rfl := (isRm_memory hmode).mp h
      · refine ⟨_, _, hnone, regField_modRegRm _ _ _, rfl, fun pol src a _ => ?_⟩
        have hx : rmField (modRegRm 0 r x) ≠ 6 := by
          rw [rmField_modRegRm]
          rintro rfl
          exact hbp rfl
        rw [rmOperand_of_mod_zero (modField_modRegRm _ _ _) hx, rmField_modRegRm]
      · refine ⟨_, _, hbyte, regField_modRegRm _ _ _, rfl, fun pol src a hdisp => ?_⟩
        rw [rmOperand_of_mod_one (modField_modRegRm _ _ _), fetch1_of_holdsAt hdisp, rmField_modRegRm, Option.map_some,
          hv]
      · refine ⟨_, _, hword, regField_modRegRm _ _ _, rfl, fun pol src a hdisp => ?_⟩
        rw [rmOperand_of_mod_two (modField_modRegRm _ _ _), fetch2_of_holdsAt hdisp, rmField_modRegRm, Option.map_some]
  | none | immediate v | relative off => cases h

/-- An rm-derived operand that is read has the displacement bytes its form asks for (R63, R101, R102). -/
theorem isRm_of_rmOperand (h : rmOperand pol src a wide pattern = some (o, k)) : o.isRm wide k = true := by
  by_cases hzero : modField pattern = 0 ∧ rmField pattern ≠ 6
  · rw [rmOperand_of_mod_zero hzero.1 hzero.2] at h
    cases h
    refine (isRm_memory (eaTab_ne_direct _)).mpr (.inl ⟨rfl, fun hbp => hzero.2 ?_, rfl⟩)
    rw [← modeNumber_eaTab (rmField pattern), hbp]
    rfl
  · obtain ⟨-, rfl, rfl⟩ | ⟨b, -, -, rfl, rfl⟩ | ⟨v, -, -, rfl, rfl⟩ | ⟨v, -, -, rfl, rfl⟩ | ⟨hm, -, -⟩ :=
      rmOperand_some h
    · obtain ⟨id, p, hreg, -⟩ := Operand.isReg_eq_register (isReg_regOperand (rmField pattern) wide)
      have hisReg := isReg_regOperand (rmField pattern) wide
      rw [hreg] at hisReg ⊢
      exact isRm_register.mpr ⟨hisReg, rfl⟩
    · exact (isRm_memory (eaTab_ne_direct _)).mpr (.inr (.inl ⟨rfl, by rw [loByte_sext8]⟩))
    · exact (isRm_memory (eaTab_ne_direct _)).mpr (.inr (.inr rfl))
    · rfl
    · have hx : rmField pattern = 6 := by simpa [hm] using hzero
      rw [rmOperand_of_isDirect (isDirect_iff.mpr ⟨hm, hx⟩)] at h
      obtain ⟨v, -, hv⟩ := Option.map_eq_some_iff.mp h
      cases hv
      rfl

end

/-! ## The immediate operand, from and to its bytes (R103, R104) -/

/-- The operand that the immediate step puts in the target slot (R104). -/
def immediateOperand (pol : TruncPolicy) (src : ByteSource) (a : Nat) (F : FieldFlags) : Option Operand :=
  if F.imm && F.w && !F.s then (fetch2 pol src a).map .immediate
  else if F.imm then (fetch1 pol src a).map fun b => .immediate (sext8 b)
  else (fetch1 pol src a).map fun b => .immediate (zext8 b)

section
variable {pol : TruncPolicy} {src : ByteSource} {offset a len : Nat} {F : FieldFlags} {o : Operand}

theorem immediateStep_eq_immediateOperand (h : (F.imm || F.imm8u) = true) (t : Bool) (ops : Slots) :
    immediateStep pol src offset F t ops len =
      (immediateOperand pol src (offset + len) F).map fun o => (ops.put t o, len + immBytes F) := by
  cases himm : F.imm with
  | true =>
    cases hword : (F.w && !F.s) <;>
      simp [immediateStep, immediateOperand, immBytes, himm, hword, Function.comp_def]
  | false =>
    have hport : F.imm8u = true := by simpa [himm] using h
    simp [immediateStep, immediateOperand, immBytes, himm, hport, Function.comp_def]

theorem isImmediate_of_immediateOperand (himm : F.imm = true) (h : immediateOperand pol src a F = some o) :
    o.isImmediate F.immediateLength = true := by
  unfold immediateOperand at h
  unfold FieldFlags.immediateLength
  simp only [himm, Bool.true_and, if_true] at h
  split_ifs at h ⊢
  · obtain ⟨v, -, rfl⟩ := Option.map_eq_some_iff.mp h
    rfl
  · obtain ⟨b, -, rfl⟩ := Option.map_eq_some_iff.mp h
    exact isSignedByte_iff.mpr (by rw [loByte_sext8])

theorem immediateOperand_of_isImmediate (himm : F.imm = true) (h : o.isImmediate F.immediateLength = true)
    (hbytes : holdsAt src a (encodeImmediate F.immediateLength o)) : immediateOperand pol src a F = some o := by
  cases o with
  | immediate v =>
    unfold immediateOperand
    unfold FieldFlags.immediateLength at h hbytes
    simp only [himm, Bool.true_and, if_true]
    split_ifs at h hbytes ⊢
    · rw [fetch2_of_holdsAt hbytes]
      rfl
    · rw [fetch1_of_holdsAt hbytes, Option.map_some, isSignedByte_iff.mp h]
  | none | register id p | memory mode disp | relative off => cases h

theorem isPort_of_immediateOperand (himm : F.imm = false) (h : immediateOperand pol src a F = some o) :
    o.isPort = true := by
  simp only [immediateOperand, himm, Bool.false_and, Bool.false_eq_true, if_false] at h
  obtain ⟨b, -, rfl⟩ := Option.map_eq_some_iff.mp h
  exact isUnsignedByte_iff.mpr (by rw [loByte_zext8])

theorem immediateOperand_of_isPort (himm : F.imm = false) (h : o.isPort = true)
    (hbytes : holdsAt src a (encodeImmediate 1 o)) : immediateOperand pol src a F = some o := by
  cases o with
  | immediate v =>
    simp only [immediateOperand, himm, Bool.false_and, Bool.false_eq_true, if_false]
    rw [fetch1_of_holdsAt hbytes, Option.map_some, isUnsignedByte_iff.mp h]
  | none | register id p | memory mode disp | relative off => cases h

end

/-! ## The record of a descriptor by the steps its flags select (R97 to R106) -/

/-- The operand that the register and segment steps put in the reg slot, the segment step last (R99, R100). -/
def regPart (F : FieldFlags) (pattern : Byte) : Operand :=
  if F.sr then segOperand (srField pattern)
  else if F.reg then regOperand (regField pattern) F.w
  else .none

/-- Fields with their operands given by role: slot 0 has the reg part when `D` is set (R98). -/
def Fields.ofParts (flags : FieldFlags) (reg rm : Operand) (byteLength : Nat) : Fields :=
  { flags, op0 := if flags.d then reg else rm, op1 := if flags.d then rm else reg, byteLength }

@[simp] theorem Fields.regOperand_ofParts (F : FieldFlags) (reg rm : Operand) (n : Nat) :
    (Fields.ofParts F reg rm n).regOperand = reg := by
  unfold Fields.regOperand Fields.ofParts
  cases F.d <;> rfl

@[simp] theorem Fields.rmOperand_ofParts (F : FieldFlags) (reg rm : Operand) (n : Nat) :
    (Fields.ofParts F reg rm n).rmOperand = rm := by
  unfold Fields.rmOperand Fields.ofParts
  cases F.d <;> rfl

theorem Fields.ofParts_self (f : Fields) : Fields.ofParts f.flags f.regOperand f.rmOperand f.byteLength = f := by
  unfold Fields.ofParts Fields.regOperand Fields.rmOperand
  cases f.flags.d <;> rfl

theorem segStep_regStep (F : FieldFlags) (pattern : Byte) :
    segStep F pattern (regStep F pattern {}) = Slots.put {} (!F.d) (regPart F pattern) := by
  unfold segStep regStep regPart
  cases F.d <;> cases F.sr <;> cases F.reg <;> rfl

theorem regPart_ne_none {F : FieldFlags} (h : F.reg = true) (pattern : Byte) : regPart F pattern ≠ .none := by
  unfold regPart
  rw [h]
  split
  · nofun
  · exact regOperand_ne_none _ _

section
variable {pol : TruncPolicy} {src : ByteSource} {offset : Nat} {d : EncodingDescriptor}

/-- A reg part and an rm operand. -/
theorem decodeRecord_eq_rm (hrm : d.flags.rm = true) (himm : d.flags.imm = false) (hport : d.flags.imm8u = false)
    (hrel : d.flags.rel = false) :
    decodeRecord pol src offset d = (patternStep pol src offset d).bind fun (pattern, len) =>
      (rmOperand pol src (offset + len) (d.flags.w || d.flags.rmw) pattern).map fun (o, k) =>
        (d.kindOf pattern).record (.ofParts d.flags (regPart d.flags pattern) o (len + k)) := by
  refine Option.bind_congr fun ⟨pattern, len⟩ _ => ?_
  simp only [rmStep, hrm, segStep_regStep, immediateStep, himm, hport, relativeStep, hrel, if_true, Bool.false_and,
    Bool.false_eq_true, if_false]
  cases rmOperand pol src (offset + len) (d.flags.w || d.flags.rmw) pattern with
  | none => rfl
  | some ok =>
    unfold Fields.ofParts
    cases hd : d.flags.d <;> rfl

/-- A reg part and an immediate, in the slot that the reg part leaves. -/
theorem decodeRecord_eq_imm (hreg : d.flags.reg = true) (hrm : d.flags.rm = false)
    (himm : (d.flags.imm || d.flags.imm8u) = true) (hrel : d.flags.rel = false) :
    decodeRecord pol src offset d = (patternStep pol src offset d).bind fun (pattern, len) =>
      (immediateOperand pol src (offset + len) d.flags).map fun o =>
        (d.kindOf pattern).record
          (.ofParts d.flags (regPart d.flags pattern) o (len + immBytes d.flags)) := by
  refine Option.bind_congr fun ⟨pattern, len⟩ _ => ?_
  simp only [rmStep, hrm, segStep_regStep, immediateStep_eq_immediateOperand himm, relativeStep, hrel,
    Bool.false_eq_true, if_false]
  have htarget : (Slots.put {} (!d.flags.d) (regPart d.flags pattern)).immediateTarget = d.flags.d := by
    cases hd : d.flags.d with
    | false => rfl
    | true => exact Slots.immediateTarget_iff.mpr (regPart_ne_none hreg pattern)
  simp only [Option.bind_eq_bind, Option.bind_some, htarget]
  cases immediateOperand pol src (offset + len) d.flags with
  | none => rfl
  | some o =>
    unfold Fields.ofParts
    cases hd : d.flags.d <;> rfl

/-- An rm operand in slot 0 and an immediate, which is then in slot 1. -/
theorem decodeRecord_eq_rmImm (hd : d.flags.d = false) (hreg : d.flags.reg = false) (hsr : d.flags.sr = false)
    (hrm : d.flags.rm = true) (himm : (d.flags.imm || d.flags.imm8u) = true) (hrel : d.flags.rel = false) :
    decodeRecord pol src offset d = (patternStep pol src offset d).bind fun (pattern, len) =>
      (rmOperand pol src (offset + len) (d.flags.w || d.flags.rmw) pattern).bind fun (o, k) =>
        (immediateOperand pol src (offset + (len + k)) d.flags).map fun v =>
          (d.kindOf pattern).record (.ofParts d.flags v o (len + k + immBytes d.flags)) := by
  refine Option.bind_congr fun ⟨pattern, len⟩ _ => ?_
  simp only [rmStep, hrm, hd, regStep, hreg, segStep, hsr, immediateStep_eq_immediateOperand himm, relativeStep, hrel,
    if_true, Bool.false_eq_true, if_false]
  cases ho : rmOperand pol src (offset + len) (d.flags.w || d.flags.rmw) pattern with
  | none => rfl
  | some ok =>
    obtain ⟨o, k⟩ := ok
    have htarget : (Slots.put {} false o).immediateTarget = true :=
      Slots.immediateTarget_iff.mpr (rmOperand_ne_none ho)
    simp only [Option.bind_eq_bind, Option.map_some, Option.bind_some, htarget, Fields.ofParts, hd]
    cases immediateOperand pol src (offset + (len + k)) d.flags with
    | none => rfl
    | some v => rfl

end

/-! ## The formats of the well-formed records, clause by clause (R74 to R83) -/

section
variable {f : Fields} {d wide sAllowed : Bool} {fixed len : Nat} {o : Operand}

theorem Operand.isRmOf_iff : o.isRmOf wide fixed len = true ↔ ∃ k, len = fixed + k ∧ o.isRm wide k = true := by
  simp only [Operand.isRmOf, Bool.and_eq_true, decide_eq_true_eq]
  constructor
  · rintro ⟨hle, hrm⟩
    exact ⟨len - fixed, by omega, hrm⟩
  · rintro ⟨k, rfl, hrm⟩
    exact ⟨Nat.le_add_right _ _, by rwa [Nat.add_sub_cancel_left]⟩

theorem Operand.isAccumulator_iff : o.isAccumulator wide = true ↔ regOperand 0 wide = o := by
  rw [Operand.isAccumulator, beq_iff_eq, eq_comm]
  cases wide <;> exact Iff.rfl

theorem Fields.isRmReg_iff : f.isRmReg = true ↔
    f.flags = { d := f.flags.d, w := f.flags.w, mod := true, reg := true, rm := true } ∧
      f.regOperand.isReg f.flags.w = true ∧ f.rmOperand.isRmOf f.flags.w 2 f.byteLength = true := by
  simp only [Fields.isRmReg, Bool.and_eq_true, beq_iff_eq, and_assoc]

theorem Fields.isRmSreg_iff : f.isRmSreg = true ↔
    f.flags = { d := f.flags.d, w := true, mod := true, rm := true, sr := true } ∧
      f.regOperand.isSegment = true ∧ f.rmOperand.isRmOf true 2 f.byteLength = true := by
  simp only [Fields.isRmSreg, Bool.and_eq_true, beq_iff_eq, and_assoc]

theorem Fields.isAccMoffs_iff : f.isAccMoffs = true ↔
    f.flags = { d := f.flags.d, w := f.flags.w, mod := true, reg := true, rm := true } ∧
      Sys2Proof.regOperand 0 f.flags.w = f.regOperand ∧ (∃ v, f.rmOperand = .memory .direct v) ∧ f.byteLength = 3 := by
  simp only [Fields.isAccMoffs, Bool.and_eq_true, beq_iff_eq, Operand.isAccumulator_iff, and_assoc]
  refine and_congr_right fun _ => and_congr_right fun _ => and_congr_left fun _ => ?_
  split
  next v hv => simp [hv]
  next hne => simpa using hne

theorem Fields.isRegImm_iff : f.isRegImm = true ↔
    f.flags = { d := true, w := f.flags.w, reg := true, imm := true } ∧ f.op0.isReg f.flags.w = true ∧
      f.op1.isImmediate f.flags.immediateLength = true ∧ f.byteLength = 1 + f.flags.immediateLength := by
  simp only [Fields.isRegImm, Bool.and_eq_true, beq_iff_eq, and_assoc]

theorem Fields.isAccImm_iff : f.isAccImm = true ↔ f.isRegImm = true ∧ Sys2Proof.regOperand 0 f.flags.w = f.op0 := by
  rw [Fields.isAccImm, Bool.and_eq_true, Operand.isAccumulator_iff]

theorem Fields.isGrpRmImm_iff : f.isGrpRmImm sAllowed = true ↔
    f.flags = { w := f.flags.w, s := f.flags.s, mod := true, rm := true, imm := true } ∧
      (sAllowed = true ∨ f.flags.s = false) ∧
      f.op0.isRmOf f.flags.w (2 + f.flags.immediateLength) f.byteLength = true ∧
      f.op1.isImmediate f.flags.immediateLength = true := by
  simp only [Fields.isGrpRmImm, Bool.and_eq_true, Bool.or_eq_true, Bool.not_eq_true', beq_iff_eq, and_assoc]

theorem Fields.isGrpRm_iff : f.isGrpRm = true ↔
    f.flags = { w := true, mod := true, rm := true } ∧ f.op0.isRmOf true 2 f.byteLength = true ∧ f.op1 = .none := by
  simp only [Fields.isGrpRm, Bool.and_eq_true, beq_iff_eq, and_assoc]

theorem Fields.isRegInOpcode_iff : f.isRegInOpcode = true ↔
    f.flags = { d := true, w := true, reg := true } ∧ f.op0.isReg true = true ∧ f.op1 = .none ∧ f.byteLength = 1 := by
  simp only [Fields.isRegInOpcode, Bool.and_eq_true, beq_iff_eq, and_assoc]

theorem Fields.isSregInOpcode_iff : f.isSregInOpcode = true ↔
    f.flags = { d := true, sr := true } ∧ f.op0.isSegment = true ∧ f.op1 = .none ∧ f.byteLength = 1 := by
  simp only [Fields.isSregInOpcode, Bool.and_eq_true, beq_iff_eq, and_assoc]

theorem Fields.isAccReg_iff : f.isAccReg = true ↔
    f.flags = { w := true, mod := true, reg := true, rm := true } ∧ Sys2Proof.regOperand 0 true = f.op0 ∧
      f.op1.isReg true = true ∧ f.byteLength = 1 := by
  simp only [Fields.isAccReg, Bool.and_eq_true, beq_iff_eq, Operand.isAccumulator_iff, and_assoc]

theorem Fields.isAccImm8u_iff : f.isAccImm8u d = true ↔
    f.flags = { d, w := f.flags.w, reg := true, imm8u := true } ∧ Sys2Proof.regOperand 0 f.flags.w = f.regOperand ∧
      f.rmOperand.isPort = true ∧ f.byteLength = 2 := by
  simp only [Fields.isAccImm8u, Bool.and_eq_true, beq_iff_eq, Operand.isAccumulator_iff, and_assoc]

theorem Fields.isAccDx_iff : f.isAccDx d = true ↔
    f.flags = { d, w := f.flags.w, mod := true, reg := true, rm := true, rmw := true } ∧
      Sys2Proof.regOperand 0 f.flags.w = f.regOperand ∧ f.rmOperand = .register (.general .d) .full16 ∧
      f.byteLength = 1 := by
  simp only [Fields.isAccDx, Bool.and_eq_true, beq_iff_eq, Operand.isAccumulator_iff, and_assoc]

theorem Fields.isRel8_iff : f.isRel8 = true ↔
    ∃ off, sext8 (loByte off) = off ∧
      f = { flags := { rel := true }, op0 := .relative off, op1 := .none, byteLength := 2 } := by
  obtain ⟨flags, op0, op1, byteLength⟩ := f
  cases op0 with
  | relative off => simp [Fields.isRel8, isSignedByte_iff, and_assoc, and_left_comm]
  | none | register id p | memory mode disp | immediate v => simp [Fields.isRel8]

end

/-! ## From a record to its bytes and back, format by format (R74 to R83) -/

/-- Wherever these bytes lie, the default table decodes them to this record, and to no more than these bytes. -/
def Encodes (bs : List Byte) (i : Instr) : Prop :=
  ∀ (pol : TruncPolicy) (src : ByteSource) (offset : Nat),
    holdsAt src offset bs → decode encTabDefault pol src offset = .instr i bs.length

theorem encodes_cons {b : Byte} {bs : List Byte} {i : Instr} (hlen : i.fields.byteLength = 1 + bs.length)
    (hrecord : ∀ (pol : TruncPolicy) (src : ByteSource) (offset : Nat), holdsAt src (offset + 1) bs →
      decodeRecord pol src offset (encTabDefault b) = some i) : Encodes (b :: bs) i := by
  intro pol src offset hbytes
  obtain ⟨rest, hread⟩ := read_one_of_holdsAt hbytes
  rw [decode_cons hread (hrecord pol src offset (holdsAt_tail hbytes)), hlen, List.length_cons, Nat.add_comm]

theorem length_encodeImmediate {F : FieldFlags} {o : Operand} (h : o.isImmediate F.immediateLength = true) :
    (encodeImmediate F.immediateLength o).length = F.immediateLength := by
  cases o with
  | immediate v =>
    cases hword : (F.w && !F.s) <;> simp [encodeImmediate, FieldFlags.immediateLength, hword, wordBytes]
  | none | register id p | memory mode disp | relative off => cases h

section
variable {b pattern : Byte} {e : Extension} {k : Kind} {f : Fields} {D W S R X P : Bool} {bs : List Byte}
  {r : BitVec 3}

theorem patternStep_of_holdsAt {pol : TruncPolicy} {src : ByteSource} {offset : Nat} {d : EncodingDescriptor}
    (hsize : d.sizeClass = .withModByte) (h : holdsAt src (offset + 1) (pattern :: bs)) :
    patternStep pol src offset d = some (pattern, 2) := by
  rw [patternStep, hsize]
  simp only [fetch1_of_holdsAt h, Option.map_some]

/-- The formats with a mod/reg/rm byte and no immediate: `RM_REG`, `RM_SREG` and `GRP_RM`. -/
theorem encodes_modRm (hentry : encTabDefault b = ⟨e, .withModByte, f.flags, 0⟩)
    (hflags : f.flags = { d := D, w := W, mod := true, reg := R, rm := true, sr := S })
    (hkind : ∀ pattern, regField pattern = r → EncodingDescriptor.kindOf ⟨e, .withModByte, f.flags, 0⟩ pattern = k)
    (hpart : ∀ pattern, regField pattern = r → regPart f.flags pattern = f.regOperand)
    (hrm : f.rmOperand.isRmOf W 2 f.byteLength = true) :
    Encodes (b :: encodeRm r f.rmOperand (f.byteLength - 2)) (k.record f) := by
  obtain ⟨n, hlen, hrm⟩ := Operand.isRmOf_iff.mp hrm
  obtain ⟨pattern, disp, hbytes, hr, hdisp, hread⟩ := encodeRm_isRm hrm r
  rw [hlen, Nat.add_sub_cancel_left, hbytes]
  refine encodes_cons ?_ fun pol src offset hholds => ?_
  · rw [Kind.record_fields, hlen, List.length_cons, hdisp]
    omega
  · have hrm' := hread pol src (offset + 2) (holdsAt_tail hholds)
    rw [hentry, decodeRecord_eq_rm, patternStep_of_holdsAt rfl hholds, Option.bind_some]
    · dsimp only
      rw [show (f.flags.w || f.flags.rmw) = W by rw [hflags]; exact Bool.or_false _, hrm', Option.map_some, hkind _ hr,
        hpart _ hr, ← hlen, Fields.ofParts_self]
    all_goals simp [hflags]

/-- `GRP_RM_IMM` (R77, R78). -/
theorem encodes_grpRmImm {kinds : Vector Kind 8} {sAllowed : Bool} (h : f.isGrpRmImm sAllowed = true)
    (hentry : encTabDefault b = ⟨.groupExtended kinds, .withModByte, f.flags, 0⟩) (hkind : kinds[r.toNat] = k) :
    Encodes (b :: (encodeRm r f.op0 (f.byteLength - (2 + f.flags.immediateLength)) ++
      encodeImmediate f.flags.immediateLength f.op1)) (k.record f) := by
  obtain ⟨hflags, -, hrm, himm⟩ := Fields.isGrpRmImm_iff.mp h
  obtain ⟨n, hlen, hrm⟩ := Operand.isRmOf_iff.mp hrm
  obtain ⟨pattern, disp, hbytes, hr, hdisp, hread⟩ := encodeRm_isRm hrm r
  have hd : f.flags.d = false := by rw [hflags]
  have hop0 : f.rmOperand = f.op0 := by simp [Fields.rmOperand, hd]
  have hop1 : f.regOperand = f.op1 := by simp [Fields.regOperand, hd]
  have himmflag : f.flags.imm = true := by rw [hflags]
  rw [hlen, Nat.add_sub_cancel_left, hbytes, List.cons_append]
  refine encodes_cons ?_ fun pol src offset hholds => ?_
  · rw [Kind.record_fields, hlen, List.length_cons, List.length_append, hdisp, length_encodeImmediate himm]
    omega
  · have htail := holdsAt_tail hholds
    have hrm' := hread pol src (offset + 2) (holdsAt_append_left htail)
    have himm' := immediateOperand_of_isImmediate (pol := pol) himmflag himm (holdsAt_append_right htail)
    rw [hdisp, Nat.add_assoc offset 1 1, Nat.add_assoc] at himm'
    rw [hentry, decodeRecord_eq_rmImm, patternStep_of_holdsAt rfl hholds, Option.bind_some]
    · dsimp only
      rw [show (f.flags.w || f.flags.rmw) = f.flags.w by rw [hflags]; exact Bool.or_false _, hrm', Option.bind_some]
      dsimp only
      rw [himm', Option.map_some, immBytes_of_imm himmflag, ← hop0, ← hop1,
        show 2 + n + f.flags.immediateLength = f.byteLength by omega, Fields.ofParts_self, ← hkind, ← hr]
      rfl
    all_goals rw [hflags]
    all_goals rfl

/-- The formats without a mod/reg/rm byte whose fixed pattern gives an rm operand: `ACC_MOFFS`, `ACC_REG` and
`ACC_DX`. -/
theorem encodes_fixedRm (hentry : encTabDefault b = ⟨.simple k, .single, f.flags, pattern⟩)
    (hflags : f.flags = { d := D, w := W, mod := true, reg := true, rm := true, rmw := X })
    (hreg : regOperand (regField pattern) W = f.regOperand)
    (hrm : ∀ (pol : TruncPolicy) (src : ByteSource) (a : Nat), holdsAt src a bs →
      rmOperand pol src a (W || X) pattern = some (f.rmOperand, bs.length))
    (hlen : f.byteLength = 1 + bs.length) : Encodes (b :: bs) (k.record f) := by
  refine encodes_cons (by rw [Kind.record_fields, hlen]) fun pol src offset hholds => ?_
  rw [hentry, decodeRecord_eq_rm]
  · change ((rmOperand pol src (offset + 1) (f.flags.w || f.flags.rmw) pattern).map _) = _
    rw [show (f.flags.w || f.flags.rmw) = (W || X) by rw [hflags], hrm pol src _ hholds, Option.map_some]
    dsimp only
    rw [show regPart f.flags pattern = f.regOperand by rw [← hreg, hflags]; rfl, ← hlen, Fields.ofParts_self]
    rfl
  all_goals simp [hflags]

/-- The formats without a mod/reg/rm byte that have a register and an immediate: `REG_IMM`, `ACC_IMM` and
`ACC_IMM8U`. -/
theorem encodes_regImm (hentry : encTabDefault b = ⟨.simple k, .single, f.flags, pattern⟩)
    (hflags : f.flags = { d := D, w := W, reg := true, imm := !P, imm8u := P })
    (hreg : regOperand (regField pattern) W = f.regOperand)
    (himm : ∀ (pol : TruncPolicy) (src : ByteSource) (a : Nat), holdsAt src a bs →
      immediateOperand pol src a f.flags = some f.rmOperand)
    (hbs : bs.length = immBytes f.flags) (hlen : f.byteLength = 1 + bs.length) : Encodes (b :: bs) (k.record f) := by
  refine encodes_cons (by rw [Kind.record_fields, hlen]) fun pol src offset hholds => ?_
  rw [hentry, decodeRecord_eq_imm]
  · change ((immediateOperand pol src (offset + 1) f.flags).map _) = _
    rw [himm pol src _ hholds, Option.map_some]
    dsimp only
    rw [show regPart f.flags pattern = f.regOperand by rw [← hreg, hflags]; rfl, ← hbs, ← hlen, Fields.ofParts_self]
    rfl
  all_goals simp [hflags]

/-- The formats with a register or segment number in the opcode and no other operand: `REG_IN_OPCODE` and
`SREG_IN_OPCODE`. -/
theorem encodes_inOpcode (hentry : encTabDefault b = ⟨.simple k, .single, f.flags, pattern⟩)
    (hflags : f.flags = { d := true, w := W, reg := R, sr := S }) (hop0 : regPart f.flags pattern = f.op0)
    (hop1 : f.op1 = .none) (hlen : f.byteLength = 1) : Encodes [b] (k.record f) := by
  refine encodes_cons (by rw [Kind.record_fields, hlen]; rfl) fun pol src offset _ => ?_
  obtain ⟨flags, op0, op1, byteLength⟩ := f
  dsimp only at *
  subst hflags hop0 hop1 hlen
  rw [hentry]
  cases R <;> cases S <;> rfl

end


/-! ## The encoders of the formats (R75 to R83) -/

section
variable {k : Kind} {base : Nat} {f : Fields} {r : BitVec 3}

/-- `RM_REG`: at 0x84 the line of `XCHG` with `D` set (R75, R82). -/
theorem encodes_rmReg (h : f.isRmReg = true)
    (hentry : encTabDefault (opcode (base + f.flags.w.toNat + 2 * f.flags.d.toNat)) =
      ⟨.simple k, .withModByte, { d := f.flags.d, w := f.flags.w, mod := true, reg := true, rm := true }, 0⟩) :
    Encodes (encodeRmReg base f) (k.record f) := by
  obtain ⟨hflags, hreg, hrm⟩ := Fields.isRmReg_iff.mp h
  rw [← hflags] at hentry
  refine encodes_modRm hentry hflags (fun _ _ => rfl) (fun pattern hr => ?_) hrm
  rw [hflags]
  exact (congrArg (regOperand · f.flags.w) hr).trans (regOperand_regNumber hreg)

theorem encTabDefault_rmReg (hline : (k, base) ∈ [(.add, 0x00), (.sub, 0x28), (.cmp, 0x38), (.mov, 0x88)])
    (w d : Bool) : encTabDefault (opcode (base + w.toNat + 2 * d.toNat)) =
      ⟨.simple k, .withModByte, { d, w, mod := true, reg := true, rm := true }, 0⟩ := by
  simp only [List.mem_cons, Prod.mk.injEq, List.not_mem_nil, or_false] at hline
  obtain ⟨rfl, rfl⟩ | ⟨rfl, rfl⟩ | ⟨rfl, rfl⟩ | ⟨rfl, rfl⟩ := hline <;> cases w <;> cases d <;> rfl

theorem encTabDefault_rmSreg (d : Bool) : encTabDefault (opcode (0x8C + 2 * d.toNat)) =
    ⟨.simple .mov, .withModByte, { d, w := true, mod := true, rm := true, sr := true }, 0⟩ := by
  cases d <;> rfl

/-- `RM_SREG` (R78). -/
theorem encodes_rmSreg (h : f.isRmSreg = true) : Encodes (encodeRmSreg f) (.mov f) := by
  obtain ⟨hflags, hseg, hrm⟩ := Fields.isRmSreg_iff.mp h
  have hentry := encTabDefault_rmSreg f.flags.d
  rw [← hflags] at hentry
  refine encodes_modRm (k := .mov) hentry hflags (fun _ _ => rfl)
    (fun pattern hr => ?_) hrm
  have hsr : srField pattern = segNumber f.regOperand := by
    rw [← modRegRm_fields pattern, srField_modRegRm, hr]
    generalize segNumber f.regOperand = n
    revert n
    decide
  rw [hflags, regPart, hsr]
  exact segOperand_segNumber hseg

/-- `GRP_RM` (R81). -/
theorem encodes_grpRm {kinds : Vector Kind 8} (h : f.isGrpRm = true)
    (hentry : encTabDefault (opcode base) =
      ⟨.groupExtended kinds, .withModByte, { w := true, mod := true, rm := true }, 0⟩)
    (hkind : kinds[r.toNat] = k) : Encodes (encodeGrpRm base r f) (k.record f) := by
  obtain ⟨hflags, hrm, hop1⟩ := Fields.isGrpRm_iff.mp h
  have hop0 : f.rmOperand = f.op0 := by simp [Fields.rmOperand, hflags]
  have hreg : f.regOperand = .none := by simpa [Fields.regOperand, hflags] using hop1
  rw [← hflags] at hentry
  rw [← hop0] at hrm
  rw [encodeGrpRm, ← hop0]
  refine encodes_modRm hentry hflags (fun pattern hr => ?_) (fun pattern _ => ?_) hrm
  · rw [← hkind, ← hr]
    rfl
  · rw [hflags, hreg]
    rfl

theorem encTabDefault_accMoffs (w d : Bool) : encTabDefault (opcode (0xA0 + w.toNat + 2 * (!d).toNat)) =
    ⟨.simple .mov, .single, { d, w, mod := true, reg := true, rm := true }, 0x06⟩ := by
  cases w <;> cases d <;> rfl

/-- `ACC_MOFFS` (R78). -/
theorem encodes_accMoffs (h : f.isAccMoffs = true) : Encodes (encodeAccMoffs f) (.mov f) := by
  obtain ⟨hflags, hacc, ⟨v, hv⟩, hlen⟩ := Fields.isAccMoffs_iff.mp h
  have hentry := encTabDefault_accMoffs f.flags.w f.flags.d
  rw [← hflags] at hentry
  rw [encodeAccMoffs, hv]
  refine encodes_fixedRm (k := .mov) hentry hflags hacc (fun pol src a hbytes => ?_) hlen
  rw [rmOperand_of_isDirect (by decide), fetch2_of_holdsAt hbytes, hv]
  rfl

theorem encTabDefault_accReg (n : BitVec 3) : encTabDefault (opcode (0x90 + n.toNat)) =
    ⟨.simple .xchg, .single, { w := true, mod := true, reg := true, rm := true }, modRegRm 3 n 0⟩ := by
  revert n
  decide

/-- `ACC_REG` (R82). -/
theorem encodes_accReg (h : f.isAccReg = true) :
    Encodes [opcode (0x90 + (regNumber f.op1).toNat)] (.xchg f) := by
  obtain ⟨hflags, hacc, hreg, hlen⟩ := Fields.isAccReg_iff.mp h
  have hop0 : f.rmOperand = f.op0 := by simp [Fields.rmOperand, hflags]
  have hop1 : f.regOperand = f.op1 := by simp [Fields.regOperand, hflags]
  have hentry := encTabDefault_accReg (regNumber f.op1)
  rw [← hflags] at hentry
  refine encodes_fixedRm (k := .xchg) hentry hflags ?_ (fun pol src a _ => ?_) hlen
  · rw [regField_modRegRm, regOperand_regNumber hreg, hop1]
  · rw [rmOperand_of_mod_three (modField_modRegRm _ _ _), rmField_modRegRm, hop0, ← hacc]
    rfl

theorem encTabDefault_accDx (hline : (k, base) ∈ [(.inp, 0xEC), (.out, 0xEE)]) (w : Bool) :
    encTabDefault (opcode (base + w.toNat)) =
      ⟨.simple k, .single, { d := k == .inp, w, mod := true, reg := true, rm := true, rmw := true }, 0xC2⟩ := by
  simp only [List.mem_cons, Prod.mk.injEq, List.not_mem_nil, or_false] at hline
  obtain ⟨rfl, rfl⟩ | ⟨rfl, rfl⟩ := hline <;> cases w <;> rfl

/-- `ACC_DX` (R83). -/
theorem encodes_accDx (hline : (k, base) ∈ [(.inp, 0xEC), (.out, 0xEE)]) (h : f.isAccDx (k == .inp) = true) :
    Encodes [opcode (base + f.flags.w.toNat)] (k.record f) := by
  obtain ⟨hflags, hacc, hdx, hlen⟩ := Fields.isAccDx_iff.mp h
  have hentry := encTabDefault_accDx hline f.flags.w
  rw [← hflags] at hentry
  refine encodes_fixedRm hentry hflags hacc
    (fun pol src a _ => ?_) hlen
  rw [rmOperand_of_mod_three (by decide), hdx, Bool.or_true]
  rfl

/-- The records of `REG_IMM` and `ACC_IMM`, by the entry of their first byte. -/
theorem encodes_of_isRegImm {b pattern : Byte} (h : f.isRegImm = true)
    (hentry : encTabDefault b =
      ⟨.simple k, .single, { d := true, w := f.flags.w, reg := true, imm := true }, pattern⟩)
    (hreg : regOperand (regField pattern) f.flags.w = f.op0) :
    Encodes (b :: encodeImmediate f.flags.immediateLength f.op1) (k.record f) := by
  obtain ⟨hflags, -, himm, hlen⟩ := Fields.isRegImm_iff.mp h
  have hd : f.flags.d = true := by rw [hflags]
  have himmflag : f.flags.imm = true := by rw [hflags]
  have hop0 : f.regOperand = f.op0 := by simp [Fields.regOperand, hd]
  have hop1 : f.rmOperand = f.op1 := by simp [Fields.rmOperand, hd]
  rw [← hflags] at hentry
  rw [← length_encodeImmediate himm] at hlen
  refine encodes_regImm (P := false) hentry hflags (by rw [hop0, hreg]) (fun pol src a hbytes => ?_) ?_ hlen
  · rw [hop1]
    exact immediateOperand_of_isImmediate himmflag himm hbytes
  · rw [immBytes_of_imm himmflag, length_encodeImmediate himm]

theorem encTabDefault_regImm (w : Bool) (n : BitVec 3) : encTabDefault (opcode (0xB0 + 8 * w.toNat + n.toNat)) =
    ⟨.simple .mov, .single, { d := true, w, reg := true, imm := true }, modRegRm 0 n 0⟩ := by
  revert w n
  decide

/-- `REG_IMM` (R78). -/
theorem encodes_movRegImm (h : f.isRegImm = true) : Encodes (encodeRegImm f) (.mov f) := by
  refine encodes_of_isRegImm (k := .mov) h (encTabDefault_regImm _ _) ?_
  obtain ⟨-, hreg, -⟩ := Fields.isRegImm_iff.mp h
  rw [regField_modRegRm, regOperand_regNumber hreg]

theorem encTabDefault_accImm (hline : (k, base) ∈ [(.add, 0x04), (.sub, 0x2C), (.cmp, 0x3C)]) (w : Bool) :
    encTabDefault (opcode (base + w.toNat)) =
      ⟨.simple k, .single, { d := true, w, reg := true, imm := true }, 0⟩ := by
  simp only [List.mem_cons, Prod.mk.injEq, List.not_mem_nil, or_false] at hline
  obtain ⟨rfl, rfl⟩ | ⟨rfl, rfl⟩ | ⟨rfl, rfl⟩ := hline <;> cases w <;> rfl

/-- `ACC_IMM` (R76). -/
theorem encodes_accImm (hline : (k, base) ∈ [(.add, 0x04), (.sub, 0x2C), (.cmp, 0x3C)])
    (h : f.isAccImm = true) : Encodes (encodeAccImm base f) (k.record f) := by
  obtain ⟨himm, hacc⟩ := Fields.isAccImm_iff.mp h
  exact encodes_of_isRegImm himm (encTabDefault_accImm hline _) hacc

theorem encTabDefault_accImm8u (hline : (k, base) ∈ [(.inp, 0xE4), (.out, 0xE6)]) (w : Bool) :
    encTabDefault (opcode (base + w.toNat)) =
      ⟨.simple k, .single, { d := k == .inp, w, reg := true, imm8u := true }, 0⟩ := by
  simp only [List.mem_cons, Prod.mk.injEq, List.not_mem_nil, or_false] at hline
  obtain ⟨rfl, rfl⟩ | ⟨rfl, rfl⟩ := hline <;> cases w <;> rfl

/-- `ACC_IMM8U` (R83). -/
theorem encodes_accImm8u (hline : (k, base) ∈ [(.inp, 0xE4), (.out, 0xE6)]) (h : f.isAccImm8u (k == .inp) = true) :
    Encodes (opcode (base + f.flags.w.toNat) :: encodeImmediate 1 f.rmOperand) (k.record f) := by
  obtain ⟨hflags, hacc, hport, hlen⟩ := Fields.isAccImm8u_iff.mp h
  have himmflag : f.flags.imm = false := by rw [hflags]
  have hbytes : (encodeImmediate 1 f.rmOperand).length = 1 := by
    generalize f.rmOperand = o at hport
    cases o with
    | immediate v => rfl
    | none | register id p | memory mode disp | relative off => cases hport
  have hentry := encTabDefault_accImm8u hline f.flags.w
  rw [← hflags] at hentry
  refine encodes_regImm (P := true) hentry hflags hacc
    (fun pol src a hholds => immediateOperand_of_isPort himmflag hport hholds) ?_ (by rw [hlen, hbytes])
  rw [hbytes, hflags]
  rfl

theorem encTabDefault_arithGroup (w s : Bool) : encTabDefault (opcode (0x80 + w.toNat + 2 * s.toNat)) =
    ⟨.groupExtended arithGroup, .withModByte, { w, s, mod := true, rm := true, imm := true }, 0⟩ := by
  cases w <;> cases s <;> rfl

/-- The groups 0x80 to 0x83 (R77). -/
theorem encodes_arithGroup (h : f.isGrpRmImm true = true) (hkind : arithGroup[r.toNat] = k) :
    Encodes (encodeGrpRmImm 0x80 r f) (k.record f) := by
  have hentry := encTabDefault_arithGroup f.flags.w f.flags.s
  obtain ⟨hflags, -⟩ := Fields.isGrpRmImm_iff.mp h
  rw [← hflags] at hentry
  exact encodes_grpRmImm h hentry hkind

theorem encTabDefault_movGroup (w : Bool) : encTabDefault (opcode (0xC6 + w.toNat)) =
    ⟨.groupExtended movGroup, .withModByte, { w, mod := true, rm := true, imm := true }, 0⟩ := by
  cases w <;> rfl

/-- The groups 0xC6 and 0xC7 (R78). -/
theorem encodes_movGroup (h : f.isGrpRmImm false = true) : Encodes (encodeGrpRmImm 0xC6 0 f) (.mov f) := by
  have hentry := encTabDefault_movGroup f.flags.w
  obtain ⟨hflags, hs, -⟩ := Fields.isGrpRmImm_iff.mp h
  replace hs : f.flags.s = false := hs.resolve_left nofun
  rw [hs] at hflags
  rw [← hflags] at hentry
  rw [encodeGrpRmImm, hs]
  exact encodes_grpRmImm (k := .mov) h hentry rfl

theorem encTabDefault_regInOpcode (hline : (k, base) ∈ [(.push, 0x50), (.pop, 0x58)]) (n : BitVec 3) :
    encTabDefault (opcode (base + n.toNat)) =
      ⟨.simple k, .single, { d := true, w := true, reg := true }, modRegRm 0 n 0⟩ := by
  simp only [List.mem_cons, Prod.mk.injEq, List.not_mem_nil, or_false] at hline
  obtain ⟨rfl, rfl⟩ | ⟨rfl, rfl⟩ := hline <;> revert n <;> decide

/-- `REG_IN_OPCODE` (R81). -/
theorem encodes_regInOpcode (hline : (k, base) ∈ [(.push, 0x50), (.pop, 0x58)]) (h : f.isRegInOpcode = true) :
    Encodes [opcode (base + (regNumber f.op0).toNat)] (k.record f) := by
  obtain ⟨hflags, hreg, hop1, hlen⟩ := Fields.isRegInOpcode_iff.mp h
  have hentry := encTabDefault_regInOpcode hline (regNumber f.op0)
  rw [← hflags] at hentry
  refine encodes_inOpcode hentry hflags ?_ hop1 hlen
  rw [hflags, regPart, regField_modRegRm]
  exact regOperand_regNumber hreg

/-- The segment numbers but that of CS after `POP`, whose byte 0x0F is unused (R81). -/
theorem encTabDefault_sregInOpcode (hline : (k, base) ∈ [(.push, 0x06), (.pop, 0x07)]) {n : BitVec 2}
    (hcs : k = .pop → n ≠ 1) : encTabDefault (opcode (base + 8 * n.toNat)) =
      ⟨.simple k, .single, { d := true, sr := true }, modRegRm 0 (BitVec.setWidth 3 n) 0⟩ := by
  simp only [List.mem_cons, Prod.mk.injEq, List.not_mem_nil, or_false] at hline
  obtain ⟨rfl, rfl⟩ | ⟨rfl, rfl⟩ := hline <;> revert n <;> decide

/-- `SREG_IN_OPCODE` (R81). -/
theorem encodes_sregInOpcode (hline : (k, base) ∈ [(.push, 0x06), (.pop, 0x07)]) (h : f.isSregInOpcode = true)
    (hcs : k = .pop → f.op0 ≠ .register (.segment .cs) .full16) :
    Encodes [opcode (base + 8 * (segNumber f.op0).toNat)] (k.record f) := by
  obtain ⟨hflags, hseg, hop1, hlen⟩ := Fields.isSregInOpcode_iff.mp h
  have hop0 := segOperand_segNumber hseg
  have hentry := encTabDefault_sregInOpcode hline (n := segNumber f.op0) fun hpop hn => hcs hpop (by
    rw [← hop0, hn]
    rfl)
  rw [← hflags] at hentry
  refine encodes_inOpcode hentry hflags ?_ hop1 hlen
  have hsr : ∀ n : BitVec 2, srField (modRegRm 0 (BitVec.setWidth 3 n) 0) = n := by decide
  rw [hflags, regPart, hsr]
  exact hop0

theorem decodeRecord_rowRel8 (pol : TruncPolicy) (src : ByteSource) (offset : Nat) (k : Kind) :
    decodeRecord pol src offset (rowRel8 k) = (fetch1 pol src (offset + 1)).map fun b =>
      k.record { flags := { rel := true }, op0 := .relative (sext8 b), op1 := .none, byteLength := 2 } := by
  change Option.bind (Option.map _ (fetch1 pol src (offset + 1))) _ = _
  cases fetch1 pol src (offset + 1) <;> rfl

/-- `REL8` (R79, R80). -/
theorem encodes_rel8 (hentry : encTabDefault (opcode base) = rowRel8 k) (h : f.isRel8 = true) :
    Encodes (encodeRel8 base f) (k.record f) := by
  obtain ⟨off, hoff, rfl⟩ := Fields.isRel8_iff.mp h
  refine encodes_cons (by rw [Kind.record_fields]; rfl) fun pol src offset hbytes => ?_
  rw [hentry, decodeRecord_rowRel8, fetch1_of_holdsAt hbytes, Option.map_some, hoff]

/-- `UNUSED` (R86). -/
theorem encodes_unused (h : f.isUnused = true) : Encodes [opcode 0x0F] (.notUsed f) := by
  obtain rfl := eq_of_beq h
  exact encodes_cons rfl fun pol src offset _ => decodeRecord_rowUnused pol src offset

end

/-! ## Every well-formed record (R107) -/

section
variable {f : Fields}

theorem Fields.isAccMoffs_eq_false_of_isRmReg (h : f.isRmReg = true) : f.isAccMoffs = false := by
  refine Bool.eq_false_iff.mpr fun hacc => ?_
  obtain ⟨-, -, hrm⟩ := Fields.isRmReg_iff.mp h
  obtain ⟨-, -, ⟨v, hv⟩, hlen⟩ := Fields.isAccMoffs_iff.mp hacc
  rw [hv] at hrm
  obtain ⟨k, hk, hrm⟩ := Operand.isRmOf_iff.mp hrm
  have htwo := isRm_direct.mp hrm
  omega

/-- `Mov` (R78, R138). -/
theorem encodes_mov (h : (Instr.mov f).wf = true) : Encodes (encode (.mov f)) (.mov f) := by
  simp only [Instr.wf, Bool.or_eq_true] at h
  obtain (((h | h) | h) | h) | h := h
  · obtain ⟨hflags, -⟩ := Fields.isRmReg_iff.mp h
    have hline : (Kind.mov, 0x88) ∈ [(.add, 0x00), (.sub, 0x28), (.cmp, 0x38), (.mov, 0x88)] := by decide
    have hencode := encode_rmReg hline (by rw [hflags]) (by rw [hflags]) (Fields.isAccMoffs_eq_false_of_isRmReg h)
    exact hencode ▸ encodes_rmReg (k := .mov) h (encTabDefault_rmReg hline _ _)
  · obtain ⟨hflags, -⟩ := Fields.isRmSreg_iff.mp h
    have hencode : encode (.mov f) = encodeRmSreg f := by
      rw [encode, encodeMov, if_neg (by rw [hflags]; nofun), if_pos (by rw [hflags])]
    exact hencode ▸ encodes_rmSreg h
  · obtain ⟨hflags, -⟩ := Fields.isAccMoffs_iff.mp h
    have hencode : encode (.mov f) = encodeAccMoffs f := by
      rw [encode, encodeMov, if_neg (by rw [hflags]; nofun), if_neg (by rw [hflags]; nofun), if_pos h]
    exact hencode ▸ encodes_accMoffs h
  · obtain ⟨hflags, -⟩ := Fields.isRegImm_iff.mp h
    have hencode : encode (.mov f) = encodeRegImm f := by
      rw [encode, encodeMov, if_pos (by rw [hflags]), if_neg (by rw [hflags]; nofun)]
    exact hencode ▸ encodes_movRegImm h
  · obtain ⟨hflags, -⟩ := Fields.isGrpRmImm_iff.mp h
    have hencode := encode_movGroup (r := 0) (by decide) (by rw [hflags]) (by rw [hflags])
    exact hencode ▸ encodes_movGroup h

/-- `Add`, `Sub` and `Cmp`, by the first byte of the kind and its number in the groups 0x80 to 0x83 (R143). -/
theorem encodes_arith {k : Kind} {base : Nat} {r : BitVec 3}
    (hreg : (k, base) ∈ [(.add, 0x00), (.sub, 0x28), (.cmp, 0x38), (.mov, 0x88)])
    (hacc : (k, base + 4) ∈ [(.add, 0x04), (.sub, 0x2C), (.cmp, 0x3C)])
    (hgroup : arithGroup[r.toNat] = k) (hk : k ≠ .notUsed)
    (h : (f.isRmReg || f.isAccImm || f.isGrpRmImm true) = true) : Encodes (encode (k.record f)) (k.record f) := by
  simp only [Bool.or_eq_true] at h
  obtain (h | h) | h := h
  · obtain ⟨hflags, -⟩ := Fields.isRmReg_iff.mp h
    rw [encode_rmReg hreg (by rw [hflags]) (by rw [hflags]) (Fields.isAccMoffs_eq_false_of_isRmReg h)]
    exact encodes_rmReg h (encTabDefault_rmReg hreg _ _)
  · obtain ⟨himm, -⟩ := Fields.isAccImm_iff.mp h
    obtain ⟨hflags, -⟩ := Fields.isRegImm_iff.mp himm
    rw [encode_accImm hacc (by rw [hflags]) (by rw [hflags])]
    exact encodes_accImm hacc h
  · obtain ⟨hflags, -⟩ := Fields.isGrpRmImm_iff.mp h
    subst hgroup
    rw [encode_arithGroup hk (by rw [hflags]) (by rw [hflags])]
    exact encodes_arithGroup h rfl

/-- `Push` and `Pop`, by their first bytes for registers, segment registers and rm operands (R81). -/
theorem encodes_stack {k : Kind} {base segBase rmBase : Nat} {r : BitVec 3} {kinds : Vector Kind 8}
    (hreg : (k, base) ∈ [(.push, 0x50), (.pop, 0x58)]) (hseg : (k, segBase) ∈ [(.push, 0x06), (.pop, 0x07)])
    (hentry : encTabDefault (opcode rmBase) =
      ⟨.groupExtended kinds, .withModByte, { w := true, mod := true, rm := true }, 0⟩)
    (hkind : kinds[r.toNat] = k) (hencode : encode (k.record f) = encodeStack base segBase rmBase r f)
    (h : (f.isRegInOpcode = true ∨
      f.isSregInOpcode = true ∧ (k = .pop → f.op0 ≠ .register (.segment .cs) .full16)) ∨ f.isGrpRm = true) :
    Encodes (encode (k.record f)) (k.record f) := by
  rw [hencode, encodeStack]
  obtain (h | ⟨h, hcs⟩) | h := h
  · obtain ⟨hflags, -⟩ := Fields.isRegInOpcode_iff.mp h
    rw [if_pos (by rw [hflags])]
    exact encodes_regInOpcode hreg h
  · obtain ⟨hflags, -⟩ := Fields.isSregInOpcode_iff.mp h
    rw [if_neg (by rw [hflags]; nofun), if_pos (by rw [hflags])]
    exact encodes_sregInOpcode hseg h hcs
  · obtain ⟨hflags, -⟩ := Fields.isGrpRm_iff.mp h
    rw [if_neg (by rw [hflags]; nofun), if_neg (by rw [hflags]; nofun)]
    exact encodes_grpRm h hentry hkind

theorem encodes_push (h : (Instr.push f).wf = true) : Encodes (encode (.push f)) (.push f) := by
  simp only [Instr.wf, Bool.or_eq_true] at h
  exact encodes_stack (k := .push) (r := 6) (by decide) (by decide) rfl rfl rfl
    (h.imp_left (Or.imp_right fun hseg => ⟨hseg, nofun⟩))

theorem encodes_pop (h : (Instr.pop f).wf = true) : Encodes (encode (.pop f)) (.pop f) := by
  simp only [Instr.wf, Bool.or_eq_true, Bool.and_eq_true, bne_iff_ne] at h
  exact encodes_stack (k := .pop) (base := 0x58) (r := 0) (by decide) (by decide) rfl rfl rfl
    (h.imp_left (Or.imp_right fun ⟨hseg, hcs⟩ => ⟨hseg, fun _ => hcs⟩))

/-- `Xchg` (R82, R173). -/
theorem encodes_xchg (h : (Instr.xchg f).wf = true) : Encodes (encode (.xchg f)) (.xchg f) := by
  simp only [Instr.wf, Bool.or_eq_true, Bool.and_eq_true] at h
  obtain ⟨h, hd⟩ | h := h
  · have hentry : ∀ w : Bool, encTabDefault (opcode (0x84 + w.toNat + 2 * true.toNat)) =
        ⟨.simple .xchg, .withModByte, { d := true, w, mod := true, reg := true, rm := true }, 0⟩ := by
      rintro (_ | _) <;> rfl
    have hencode : encode (.xchg f) = encodeRmReg 0x84 f := if_pos hd
    exact hencode ▸ encodes_rmReg (k := .xchg) h (by rw [hd]; exact hentry _)
  · obtain ⟨hflags, -⟩ := Fields.isAccReg_iff.mp h
    have hencode : encode (.xchg f) = [opcode (0x90 + (regNumber f.op1).toNat)] :=
      if_neg (by rw [hflags]; nofun)
    exact hencode ▸ encodes_accReg h

/-- `In` and `Out`, by their first bytes with a port number and with DX (R83, R174, R175). -/
theorem encodes_port {k : Kind} {base base' : Nat} (hport : (k, base) ∈ [(.inp, 0xE4), (.out, 0xE6)])
    (hdx : (k, base') ∈ [(.inp, 0xEC), (.out, 0xEE)])
    (h : (f.isAccImm8u (k == .inp) || f.isAccDx (k == .inp)) = true) :
    Encodes (encode (k.record f)) (k.record f) := by
  obtain h | h := (Bool.or_eq_true _ _).mp h
  · obtain ⟨hflags, -⟩ := Fields.isAccImm8u_iff.mp h
    rw [encode_accImm8u hport (by rw [hflags])]
    exact encodes_accImm8u hport h
  · obtain ⟨hflags, -⟩ := Fields.isAccDx_iff.mp h
    rw [encode_accDx hdx (by rw [hflags])]
    exact encodes_accDx hdx h

/-- `NotUsed`, by the word that the encoder takes for each of its formats (R176, log 17). -/
theorem encodes_notUsed (h : (Instr.notUsed f).wf = true) : Encodes (encode (.notUsed f)) (.notUsed f) := by
  simp only [Instr.wf, Bool.or_eq_true] at h
  obtain (h | h) | h := h
  · have hencode : encode (.notUsed f) = [opcode 0x0F] := by
      rw [eq_of_beq h]
      rfl
    exact hencode ▸ encodes_unused h
  · obtain ⟨hflags, -⟩ := Fields.isGrpRmImm_iff.mp h
    have hencode : encode (.notUsed f) = encodeGrpRmImm 0x80 1 f :=
      if_pos (by rw [hflags])
    exact hencode ▸ encodes_arithGroup (k := .notUsed) h rfl
  · obtain ⟨hflags, -⟩ := Fields.isGrpRm_iff.mp h
    have hencode : encode (.notUsed f) = encodeGrpRm 0xFF 0 f := by
      rw [encode, encodeNotUsed, if_neg (by rw [hflags]; nofun), if_pos (by rw [hflags])]
    exact hencode ▸ encodes_grpRm (k := .notUsed) h rfl rfl

end

/-- Settles O34: kind by kind, the encoder picks the format that the record has, and the format is read back. -/
theorem decodeOfEncodeIsTheRecord : Obligations.DecodeOfEncodeIsTheRecord := by
  intro i h
  cases i with
  | mov f => exact encodes_mov h
  | add f => exact encodes_arith (k := .add) (base := 0x00) (r := 0) (by decide) (by decide) rfl nofun h
  | sub f => exact encodes_arith (k := .sub) (base := 0x28) (r := 5) (by decide) (by decide) rfl nofun h
  | cmp f => exact encodes_arith (k := .cmp) (base := 0x38) (r := 7) (by decide) (by decide) rfl nofun h
  | push f => exact encodes_push h
  | pop f => exact encodes_pop h
  | xchg f => exact encodes_xchg h
  | inp f => exact encodes_port (k := .inp) (base := 0xE4) (base' := 0xEC) (by decide) (by decide) h
  | out f => exact encodes_port (k := .out) (base := 0xE6) (base' := 0xEE) (by decide) (by decide) h
  | notUsed f => exact encodes_notUsed h
  | jo f => exact encodes_rel8 (k := .jo) (base := 0x70) (by decide) h
  | jno f => exact encodes_rel8 (k := .jno) (base := 0x71) (by decide) h
  | jb f => exact encodes_rel8 (k := .jb) (base := 0x72) (by decide) h
  | jnb f => exact encodes_rel8 (k := .jnb) (base := 0x73) (by decide) h
  | je f => exact encodes_rel8 (k := .je) (base := 0x74) (by decide) h
  | jne f => exact encodes_rel8 (k := .jne) (base := 0x75) (by decide) h
  | jbe f => exact encodes_rel8 (k := .jbe) (base := 0x76) (by decide) h
  | ja f => exact encodes_rel8 (k := .ja) (base := 0x77) (by decide) h
  | js f => exact encodes_rel8 (k := .js) (base := 0x78) (by decide) h
  | jns f => exact encodes_rel8 (k := .jns) (base := 0x79) (by decide) h
  | jp f => exact encodes_rel8 (k := .jp) (base := 0x7A) (by decide) h
  | jnp f => exact encodes_rel8 (k := .jnp) (base := 0x7B) (by decide) h
  | jl f => exact encodes_rel8 (k := .jl) (base := 0x7C) (by decide) h
  | jnl f => exact encodes_rel8 (k := .jnl) (base := 0x7D) (by decide) h
  | jle f => exact encodes_rel8 (k := .jle) (base := 0x7E) (by decide) h
  | jg f => exact encodes_rel8 (k := .jg) (base := 0x7F) (by decide) h
  | loopnz f => exact encodes_rel8 (k := .loopnz) (base := 0xE0) rfl h
  | loopz f => exact encodes_rel8 (k := .loopz) (base := 0xE1) rfl h
  | loop f => exact encodes_rel8 (k := .loop) (base := 0xE2) rfl h
  | jcxz f => exact encodes_rel8 (k := .jcxz) (base := 0xE3) rfl h

/-! ## A step on encoded bytes (R205) -/

theorem Machine.Memory.readBytes_succ_of_none {m : Memory} {a : Nat} (h : m.byte? a = none) (n : Nat) :
    m.readBytes a (n + 1) = [] := by
  rw [Memory.readBytes, h]

theorem Machine.Memory.readBytes_succ_of_some {m : Memory} {a : Nat} {b : Byte} (h : m.byte? a = some b) (n : Nat) :
    m.readBytes a (n + 1) = b :: m.readBytes (a + 1) n := by
  rw [Memory.readBytes, h]

/-- Two reads at one address, each cut to the length of the other. -/
theorem Machine.Memory.take_length_readBytes (m : Memory) (a count n : Nat) :
    (m.readBytes a count).take (m.readBytes a n).length = (m.readBytes a n).take count := by
  induction n generalizing a count with
  | zero => simp [Memory.readBytes]
  | succ n ih =>
    cases count with
    | zero => simp [Memory.readBytes]
    | succ count =>
      cases hb : m.byte? a with
      | none => simp [Memory.readBytes_succ_of_none hb]
      | some b =>
        rw [Memory.readBytes_succ_of_some hb, Memory.readBytes_succ_of_some hb, List.length_cons, List.take_succ_cons,
          List.take_succ_cons, ih]

/-- What a read of a Byte Source returns lies where it was read. -/
theorem Machine.Memory.holdsAt_readBytes (m : Memory) (a n : Nat) : holdsAt m.readBytes a (m.readBytes a n) := by
  intro k count hk
  induction k generalizing a n with
  | zero => exact m.take_length_readBytes a count n
  | succ k ih =>
    cases n with
    | zero => cases hk
    | succ n =>
      cases hb : m.byte? a with
      | none =>
        rw [Memory.readBytes_succ_of_none hb] at hk
        cases hk
      | some b =>
        rw [Memory.readBytes_succ_of_some hb] at hk ⊢
        have hread := ih (a + 1) n (Nat.lt_of_succ_lt_succ hk)
        rwa [Nat.add_assoc, Nat.add_comm 1 k, ← Nat.add_sub_add_right _ 1 k] at hread

/-- Settles O25: the bytes read at the pointer lie there, and so the fetch gives the record back. -/
theorem Machine.stepRunsEncodedInstruction : Obligations.StepRunsEncodedInstruction := by
  intro s i hwf hbytes
  have hholds := s.mem.holdsAt_readBytes s.ip.toNat i.fields.byteLength
  rw [hbytes] at hholds
  exact step_of_fetch (decodeOfEncodeIsTheRecord i hwf .error s.mem.readBytes s.ip.toNat hholds)

/-! ## The records of the default table (R74 to R86, R107) -/

section
variable {pol : TruncPolicy} {src : ByteSource} {offset n : Nat} {i : Instr} {k : Kind}

theorem isRmOf_of_rmOperand {a j : Nat} {wide : Bool} {pattern : Byte} {o : Operand}
    (h : rmOperand pol src a wide pattern = some (o, j)) (fixed : Nat) : o.isRmOf wide fixed (fixed + j) = true :=
  Operand.isRmOf_iff.mpr ⟨j, rfl, isRm_of_rmOperand h⟩

theorem decodeRecord_rm_some {d : EncodingDescriptor} (hrm : d.flags.rm = true) (himm : d.flags.imm = false)
    (hport : d.flags.imm8u = false) (hrel : d.flags.rel = false) (h : decodeRecord pol src offset d = some i) :
    ∃ pattern len o j, patternStep pol src offset d = some (pattern, len) ∧
      rmOperand pol src (offset + len) (d.flags.w || d.flags.rmw) pattern = some (o, j) ∧
      i = (d.kindOf pattern).record (.ofParts d.flags (regPart d.flags pattern) o (len + j)) := by
  rw [decodeRecord_eq_rm hrm himm hport hrel] at h
  obtain ⟨⟨pattern, len⟩, hp, h⟩ := Option.bind_eq_some_iff.mp h
  obtain ⟨⟨o, j⟩, ho, rfl⟩ := Option.map_eq_some_iff.mp h
  exact ⟨pattern, len, o, j, hp, ho, rfl⟩

theorem decodeRecord_imm_some {d : EncodingDescriptor} (hreg : d.flags.reg = true) (hrm : d.flags.rm = false)
    (himm : (d.flags.imm || d.flags.imm8u) = true) (hrel : d.flags.rel = false)
    (h : decodeRecord pol src offset d = some i) :
    ∃ pattern len o, patternStep pol src offset d = some (pattern, len) ∧
      immediateOperand pol src (offset + len) d.flags = some o ∧
      i = (d.kindOf pattern).record (.ofParts d.flags (regPart d.flags pattern) o (len + immBytes d.flags)) := by
  rw [decodeRecord_eq_imm hreg hrm himm hrel] at h
  obtain ⟨⟨pattern, len⟩, hp, h⟩ := Option.bind_eq_some_iff.mp h
  obtain ⟨o, ho, rfl⟩ := Option.map_eq_some_iff.mp h
  exact ⟨pattern, len, o, hp, ho, rfl⟩

/-- `RM_REG` (R75, R82). -/
theorem isRmReg_of_decodeRecord (h : decodeRecord pol src offset (rowRmReg k n) = some i) :
    ∃ f, i = k.record f ∧ f.isRmReg = true ∧ f.flags.d = n.testBit 1 := by
  obtain ⟨pattern, len, o, j, hp, ho, rfl⟩ := decodeRecord_rm_some rfl rfl rfl rfl h
  obtain ⟨-, rfl⟩ := patternStep_withModByte hp rfl
  refine ⟨_, rfl, Fields.isRmReg_iff.mpr ⟨rfl, ?_, ?_⟩, rfl⟩
  · rw [Fields.regOperand_ofParts]
    exact isReg_regOperand _ _
  · rw [Fields.rmOperand_ofParts]
    exact isRmOf_of_rmOperand (by rwa [rowRmReg, Bool.or_false] at ho) 2

/-- `RM_SREG` (R78). -/
theorem isRmSreg_of_decodeRecord (h : decodeRecord pol src offset (rowRmSreg n) = some i) :
    ∃ f, i = .mov f ∧ f.isRmSreg = true := by
  obtain ⟨pattern, len, o, j, hp, ho, rfl⟩ := decodeRecord_rm_some rfl rfl rfl rfl h
  obtain ⟨-, rfl⟩ := patternStep_withModByte hp rfl
  refine ⟨_, rfl, Fields.isRmSreg_iff.mpr ⟨rfl, ?_, ?_⟩⟩
  · rw [Fields.regOperand_ofParts]
    exact isSegment_segOperand _
  · rw [Fields.rmOperand_ofParts]
    exact isRmOf_of_rmOperand ho 2

/-- `GRP_RM` (R81). -/
theorem isGrpRm_of_decodeRecord {kinds : Vector Kind 8} (h : decodeRecord pol src offset (rowGrpRm kinds) = some i) :
    ∃ (r : BitVec 3) (f : Fields), i = kinds[r.toNat].record f ∧ f.isGrpRm = true := by
  obtain ⟨pattern, len, o, j, hp, ho, rfl⟩ := decodeRecord_rm_some rfl rfl rfl rfl h
  obtain ⟨-, rfl⟩ := patternStep_withModByte hp rfl
  exact ⟨regField pattern, _, rfl, Fields.isGrpRm_iff.mpr ⟨rfl, isRmOf_of_rmOperand ho 2, rfl⟩⟩

/-- `ACC_MOFFS` (R78). -/
theorem isAccMoffs_of_decodeRecord (h : decodeRecord pol src offset (rowAccMoffs n) = some i) :
    ∃ f, i = .mov f ∧ f.isAccMoffs = true := by
  obtain ⟨pattern, len, o, j, hp, ho, rfl⟩ := decodeRecord_rm_some rfl rfl rfl rfl h
  obtain ⟨rfl, rfl⟩ := patternStep_single hp rfl
  rw [rowAccMoffs, rmOperand_of_isDirect (pattern := 0x06) (by decide)] at ho
  obtain ⟨v, -, hv⟩ := Option.map_eq_some_iff.mp ho
  cases hv
  refine ⟨_, rfl, Fields.isAccMoffs_iff.mpr ⟨rfl, ?_, ⟨v, ?_⟩, rfl⟩⟩
  · rw [Fields.regOperand_ofParts]
    exact congrArg (regOperand · (n.testBit 0)) (show 0 = regField 0x06 by decide)
  · rw [Fields.rmOperand_ofParts]

theorem fields_rowAccReg_pattern (b : Byte) :
    modField (rowAccReg b.toNat).pattern = 3 ∧ rmField (rowAccReg b.toNat).pattern = 0 := by
  revert b
  decide

/-- `ACC_REG` (R82). -/
theorem isAccReg_of_decodeRecord {b : Byte} (h : decodeRecord pol src offset (rowAccReg b.toNat) = some i) :
    ∃ f, i = .xchg f ∧ f.isAccReg = true := by
  obtain ⟨pattern, len, o, j, hp, ho, rfl⟩ := decodeRecord_rm_some rfl rfl rfl rfl h
  obtain ⟨rfl, rfl⟩ := patternStep_single hp rfl
  obtain ⟨hmod, hrm⟩ := fields_rowAccReg_pattern b
  rw [rmOperand_of_mod_three hmod, hrm] at ho
  cases ho
  exact ⟨_, rfl, Fields.isAccReg_iff.mpr ⟨rfl, rfl, isReg_regOperand _ true, rfl⟩⟩

/-- `ACC_DX` (R83). -/
theorem isAccDx_of_decodeRecord (h : decodeRecord pol src offset (rowAccDx k n) = some i) :
    ∃ f, i = k.record f ∧ f.isAccDx (!n.testBit 1) = true := by
  obtain ⟨pattern, len, o, j, hp, ho, rfl⟩ := decodeRecord_rm_some rfl rfl rfl rfl h
  obtain ⟨rfl, rfl⟩ := patternStep_single hp rfl
  rw [rowAccDx, rmOperand_of_mod_three (pattern := 0xC2) (by decide), Bool.or_true] at ho
  cases ho
  refine ⟨_, rfl, Fields.isAccDx_iff.mpr ⟨rfl, ?_, ?_, rfl⟩⟩
  · rw [Fields.regOperand_ofParts]
    exact congrArg (regOperand · (n.testBit 0)) (show 0 = regField 0xC2 by decide)
  · rw [Fields.rmOperand_ofParts]
    exact (show regOperand (rmField 0xC2) true = .register (.general .d) .full16 by decide)

/-- `REG_IMM` and `ACC_IMM`, for a row with their flags. -/
theorem isRegImm_of_decodeRecord {d : EncodingDescriptor} {w : Bool} (hsize : d.sizeClass = .single)
    (hflags : d.flags = { d := true, w, reg := true, imm := true }) (h : decodeRecord pol src offset d = some i) :
    ∃ f, i = (d.kindOf d.pattern).record f ∧ f.isRegImm = true ∧ f.flags = d.flags ∧
      f.op0 = regOperand (regField d.pattern) w := by
  obtain ⟨extension, size, flags, fixed⟩ := d
  dsimp only at hsize hflags
  subst hsize hflags
  obtain ⟨pattern, len, o, hp, ho, rfl⟩ := decodeRecord_imm_some rfl rfl rfl rfl h
  obtain ⟨rfl, rfl⟩ := patternStep_single hp rfl
  refine ⟨_, rfl, Fields.isRegImm_iff.mpr ⟨rfl, isReg_regOperand _ _, isImmediate_of_immediateOperand rfl ho, ?_⟩, rfl,
    rfl⟩
  exact congrArg (1 + ·) (immBytes_of_imm rfl)

/-- `ACC_IMM8U` (R83). -/
theorem isAccImm8u_of_decodeRecord (h : decodeRecord pol src offset (rowAccImm8u k n) = some i) :
    ∃ f, i = k.record f ∧ f.isAccImm8u (!n.testBit 1) = true := by
  obtain ⟨pattern, len, o, hp, ho, rfl⟩ := decodeRecord_imm_some rfl rfl rfl rfl h
  obtain ⟨rfl, rfl⟩ := patternStep_single hp rfl
  refine ⟨_, rfl, Fields.isAccImm8u_iff.mpr ⟨rfl, ?_, ?_, rfl⟩⟩
  · rw [Fields.regOperand_ofParts]
    exact congrArg (regOperand · (n.testBit 0)) (show 0 = regField 0 by decide)
  · rw [Fields.rmOperand_ofParts]
    exact isPort_of_immediateOperand rfl ho

/-- `GRP_RM_IMM` (R77, R78). -/
theorem isGrpRmImm_of_decodeRecord {kinds : Vector Kind 8} {s sAllowed : Bool} (hs : sAllowed = true ∨ s = false)
    (h : decodeRecord pol src offset (rowGrpRmImm kinds s n) = some i) :
    ∃ (r : BitVec 3) (f : Fields), i = kinds[r.toNat].record f ∧ f.isGrpRmImm sAllowed = true := by
  rw [decodeRecord_eq_rmImm rfl rfl rfl rfl rfl rfl] at h
  obtain ⟨⟨pattern, len⟩, hp, h⟩ := Option.bind_eq_some_iff.mp h
  obtain ⟨⟨o, j⟩, ho, h⟩ := Option.bind_eq_some_iff.mp h
  obtain ⟨v, hv, rfl⟩ := Option.map_eq_some_iff.mp h
  obtain ⟨-, rfl⟩ := patternStep_withModByte hp rfl
  refine ⟨regField pattern, _, rfl, Fields.isGrpRmImm_iff.mpr ⟨rfl, hs, ?_, isImmediate_of_immediateOperand rfl hv⟩⟩
  rw [rowGrpRmImm, Bool.or_false] at ho
  refine Operand.isRmOf_iff.mpr ⟨j, ?_, isRm_of_rmOperand ho⟩
  change 2 + j + immBytes _ = _
  rw [immBytes_of_imm rfl]
  exact Nat.add_right_comm _ _ _

/-- `REG_IN_OPCODE` (R81). -/
theorem isRegInOpcode_of_decodeRecord (h : decodeRecord pol src offset (rowRegInOpcode k n) = some i) :
    ∃ f, i = k.record f ∧ f.isRegInOpcode = true := by
  cases h
  exact ⟨_, rfl, Fields.isRegInOpcode_iff.mpr ⟨rfl, isReg_regOperand _ true, rfl, rfl⟩⟩

/-- `SREG_IN_OPCODE` (R81). -/
theorem isSregInOpcode_of_decodeRecord (h : decodeRecord pol src offset (rowSregInOpcode k n) = some i) :
    ∃ f, i = k.record f ∧ f.isSregInOpcode = true ∧ f.op0 = segOperand (srField (rowSregInOpcode k n).pattern) := by
  cases h
  exact ⟨_, rfl, Fields.isSregInOpcode_iff.mpr ⟨rfl, isSegment_segOperand _, rfl, rfl⟩, rfl⟩

/-- `REL8` (R79, R80). -/
theorem isRel8_of_decodeRecord (h : decodeRecord pol src offset (rowRel8 k) = some i) :
    ∃ f, i = k.record f ∧ f.isRel8 = true := by
  rw [decodeRecord_rowRel8] at h
  obtain ⟨b, -, rfl⟩ := Option.map_eq_some_iff.mp h
  exact ⟨_, rfl, Fields.isRel8_iff.mpr ⟨sext8 b, by rw [loByte_sext8], rfl⟩⟩

end

/-! ## From the format of a record to the formats of its kind -/

section
variable {b : Byte} {k : Kind} {base : Nat} {r : BitVec 3} {f : Fields}

theorem wf_rmReg (hline : (k, base) ∈ [(.add, 0x00), (.sub, 0x28), (.cmp, 0x38), (.mov, 0x88)])
    (h : f.isRmReg = true) : (k.record f).wf = true := by
  simp only [List.mem_cons, Prod.mk.injEq, List.not_mem_nil, or_false] at hline
  obtain ⟨rfl, -⟩ | ⟨rfl, -⟩ | ⟨rfl, -⟩ | ⟨rfl, -⟩ := hline <;> simp [Kind.record, Instr.wf, h]

theorem wf_accImm (hline : (k, base) ∈ [(.add, 0x04), (.sub, 0x2C), (.cmp, 0x3C)]) (h : f.isAccImm = true) :
    (k.record f).wf = true := by
  simp only [List.mem_cons, Prod.mk.injEq, List.not_mem_nil, or_false] at hline
  obtain ⟨rfl, -⟩ | ⟨rfl, -⟩ | ⟨rfl, -⟩ := hline <;> simp [Kind.record, Instr.wf, h]

theorem wf_arithGroup (h : f.isGrpRmImm true = true) : (arithGroup[r.toNat].record f).wf = true := by
  have hkind : arithGroup[r.toNat] ∈ [.add, .sub, .cmp, .notUsed] := by
    revert r
    decide
  simp only [List.mem_cons, List.not_mem_nil, or_false] at hkind
  obtain hk | hk | hk | hk := hkind <;> simp [hk, Kind.record, Instr.wf, h]

/-- The unused reg values of the groups 0xC6 and 0xC7 have no `S` flag (R78). -/
theorem wf_movGroup (h : f.isGrpRmImm false = true) : (movGroup[r.toNat].record f).wf = true := by
  have hkind : movGroup[r.toNat] = .mov ∨ movGroup[r.toNat] = .notUsed := by
    revert r
    decide
  obtain hk | hk := hkind
  · simp [hk, Kind.record, Instr.wf, h]
  · obtain ⟨hflags, -, hrm, himm⟩ := Fields.isGrpRmImm_iff.mp h
    simp [hk, Kind.record, Instr.wf, Fields.isGrpRmImm_iff.mpr ⟨hflags, .inl rfl, hrm, himm⟩]

theorem wf_pushGroup (h : f.isGrpRm = true) : (pushGroup[r.toNat].record f).wf = true := by
  have hkind : pushGroup[r.toNat] = .push ∨ pushGroup[r.toNat] = .notUsed := by
    revert r
    decide
  obtain hk | hk := hkind <;> simp [hk, Kind.record, Instr.wf, h]

theorem wf_popGroup (h : f.isGrpRm = true) : (popGroup[r.toNat].record f).wf = true := by
  have hkind : popGroup[r.toNat] = .pop ∨ popGroup[r.toNat] = .notUsed := by
    revert r
    decide
  obtain hk | hk := hkind <;> simp [hk, Kind.record, Instr.wf, h]

theorem wf_regInOpcode (hline : (k, base) ∈ [(.push, 0x50), (.pop, 0x58)]) (h : f.isRegInOpcode = true) :
    (k.record f).wf = true := by
  simp only [List.mem_cons, Prod.mk.injEq, List.not_mem_nil, or_false] at hline
  obtain ⟨rfl, -⟩ | ⟨rfl, -⟩ := hline <;> simp [Kind.record, Instr.wf, h]

theorem wf_sregInOpcode (hline : (k, base) ∈ [(.push, 0x06), (.pop, 0x07)]) (h : f.isSregInOpcode = true)
    (hcs : k = .pop → f.op0 ≠ .register (.segment .cs) .full16) : (k.record f).wf = true := by
  simp only [List.mem_cons, Prod.mk.injEq, List.not_mem_nil, or_false] at hline
  obtain ⟨rfl, -⟩ | ⟨rfl, -⟩ := hline
  · simp [Kind.record, Instr.wf, h]
  · simp [Kind.record, Instr.wf, h, hcs rfl]

/-- Bit 1 of the first byte of a line of two bytes (R83). -/
theorem testBit_one_of_base (hbase : b.toNat = base + b.toNat % 2) (heven : base % 2 = 0) :
    b.toNat.testBit 1 = base.testBit 1 := by
  rw [Nat.testBit_succ, Nat.testBit_succ, show b.toNat / 2 = base / 2 by omega]

theorem wf_accImm8u (hline : (k, base) ∈ [(.inp, 0xE4), (.out, 0xE6)])
    (hbase : b.toNat = base + b.toNat % 2) (h : f.isAccImm8u (!b.toNat.testBit 1) = true) : (k.record f).wf = true := by
  simp only [List.mem_cons, Prod.mk.injEq, List.not_mem_nil, or_false] at hline
  obtain ⟨rfl, rfl⟩ | ⟨rfl, rfl⟩ := hline
  · rw [testBit_one_of_base hbase rfl] at h
    exact Bool.or_eq_true_iff.mpr (.inl h)
  · rw [testBit_one_of_base hbase rfl] at h
    exact Bool.or_eq_true_iff.mpr (.inl h)

theorem wf_accDx (hline : (k, base) ∈ [(.inp, 0xEC), (.out, 0xEE)])
    (hbase : b.toNat = base + b.toNat % 2) (h : f.isAccDx (!b.toNat.testBit 1) = true) : (k.record f).wf = true := by
  simp only [List.mem_cons, Prod.mk.injEq, List.not_mem_nil, or_false] at hline
  obtain ⟨rfl, rfl⟩ | ⟨rfl, rfl⟩ := hline
  · rw [testBit_one_of_base hbase rfl] at h
    exact Bool.or_eq_true_iff.mpr (.inr h)
  · rw [testBit_one_of_base hbase rfl] at h
    exact Bool.or_eq_true_iff.mpr (.inr h)

theorem wf_jumpKind {n : Nat} (hn : n < 16) (h : f.isRel8 = true) : ((jumpKind n).record f).wf = true := by
  interval_cases n <;> exact h

theorem wf_loop (hline : (k, base) ∈ [(.loopnz, 0xE0), (.loopz, 0xE1), (.loop, 0xE2), (.jcxz, 0xE3)])
    (h : f.isRel8 = true) : (k.record f).wf = true := by
  simp only [List.mem_cons, Prod.mk.injEq, List.not_mem_nil, or_false] at hline
  obtain ⟨rfl, -⟩ | ⟨rfl, -⟩ | ⟨rfl, -⟩ | ⟨rfl, -⟩ := hline <;> exact h

end

theorem encTabDefault_pop_ne_cs {b : Byte} (h : encTabDefault b = rowSregInOpcode .pop b.toNat) :
    segOperand (srField (rowSregInOpcode .pop b.toNat).pattern) ≠ .register (.segment .cs) .full16 := by
  revert b
  decide

/-- Line by line: the record has the format of its line, which is one of its kind. -/
theorem wf_of_decodeRecord {pol : TruncPolicy} {src : ByteSource} {offset : Nat} {b : Byte} {i : Instr}
    (h : decodeRecord pol src offset (encTabDefault b) = some i) : i.wf = true := by
  have hline := encTabDefault_line b
  generalize hd : encTabDefault b = d at h hline
  cases hline with
  | rmReg hline hbase =>
    obtain ⟨f, rfl, hf, -⟩ := isRmReg_of_decodeRecord h
    exact wf_rmReg hline hf
  | xchg hbase hbit =>
    obtain ⟨f, rfl, hf, hfd⟩ := isRmReg_of_decodeRecord h
    simp [Kind.record, Instr.wf, hf, hfd, hbit]
  | accImm hline hbase =>
    obtain ⟨f, rfl, hf, hflags, hop0⟩ := isRegImm_of_decodeRecord rfl rfl h
    refine wf_accImm hline (Fields.isAccImm_iff.mpr ⟨hf, ?_⟩)
    rw [hop0, hflags]
    exact congrArg (regOperand · (b.toNat.testBit 0)) (show 0 = regField 0 by decide)
  | arithGroup hbase =>
    obtain ⟨r, f, rfl, hf⟩ := isGrpRmImm_of_decodeRecord (.inl rfl) h
    exact wf_arithGroup hf
  | movGroup hbase =>
    obtain ⟨r, f, rfl, hf⟩ := isGrpRmImm_of_decodeRecord (.inr rfl) h
    exact wf_movGroup hf
  | pushGroup hbase =>
    obtain ⟨r, f, rfl, hf⟩ := isGrpRm_of_decodeRecord h
    exact wf_pushGroup hf
  | popGroup hbase =>
    obtain ⟨r, f, rfl, hf⟩ := isGrpRm_of_decodeRecord h
    exact wf_popGroup hf
  | regImm hbase =>
    obtain ⟨f, rfl, hf, -, -⟩ := isRegImm_of_decodeRecord rfl rfl h
    simp [rowRegImm, EncodingDescriptor.kindOf, Kind.record, Instr.wf, hf]
  | rmSreg hbase =>
    obtain ⟨f, rfl, hf⟩ := isRmSreg_of_decodeRecord h
    simp [Instr.wf, hf]
  | accMoffs hbase =>
    obtain ⟨f, rfl, hf⟩ := isAccMoffs_of_decodeRecord h
    simp [Instr.wf, hf]
  | regInOpcode hline hbase =>
    obtain ⟨f, rfl, hf⟩ := isRegInOpcode_of_decodeRecord h
    exact wf_regInOpcode hline hf
  | sregInOpcode hline hbase =>
    obtain ⟨f, rfl, hf, hop0⟩ := isSregInOpcode_of_decodeRecord h
    refine wf_sregInOpcode hline hf ?_
    rintro rfl
    rw [hop0]
    exact encTabDefault_pop_ne_cs hd
  | accReg hbase =>
    obtain ⟨f, rfl, hf⟩ := isAccReg_of_decodeRecord h
    simp [Instr.wf, hf]
  | accImm8u hline hbase =>
    obtain ⟨f, rfl, hf⟩ := isAccImm8u_of_decodeRecord h
    exact wf_accImm8u hline hbase hf
  | accDx hline hbase =>
    obtain ⟨f, rfl, hf⟩ := isAccDx_of_decodeRecord h
    exact wf_accDx hline hbase hf
  | jump hbase =>
    obtain ⟨f, rfl, hf⟩ := isRel8_of_decodeRecord h
    exact wf_jumpKind (by omega) hf
  | loop hline =>
    obtain ⟨f, rfl, hf⟩ := isRel8_of_decodeRecord h
    exact wf_loop hline hf
  | unused =>
    cases h
    rfl

/-- Settles O36: the record is one of the line of its first byte. -/
theorem decodedRecordsAreWellFormed : Obligations.DecodedRecordsAreWellFormed := by
  intro pol src offset i n hdecode
  obtain ⟨hlen, b, rest, -, hrecord⟩ := decode_instr hdecode
  exact ⟨wf_of_decodeRecord hrecord, hlen⟩

/-! ## The listing (R116, R205, R207) -/

section
variable {tab : EncodingTable} {trunc : TruncPolicy} {m : Memory} {fuel off n : Nat} {i : Instr}

theorem runDisassembleUnder_instr (h : decode tab trunc m.readBytes off = .instr i n) :
    runDisassembleUnder tab trunc m (fuel + 1) off =
      ((off, i) :: (runDisassembleUnder tab trunc m fuel (off + i.fields.byteLength)).1,
        (runDisassembleUnder tab trunc m fuel (off + i.fields.byteLength)).2) := by
  rw [runDisassembleUnder, h]

theorem runDisassembleUnder_endOfStream (h : decode tab trunc m.readBytes off = .endOfStream) :
    runDisassembleUnder tab trunc m (fuel + 1) off = ([], .endOfStream) := by
  rw [runDisassembleUnder, h]

theorem runDisassembleUnder_truncatedField (h : decode tab trunc m.readBytes off = .truncatedField) :
    runDisassembleUnder tab trunc m (fuel + 1) off = ([], .truncatedField) := by
  rw [runDisassembleUnder, h]

/-- A decoded record starts inside the Byte Source and has at least its first byte (R42, R111). -/
theorem decode_instr_progress (hwf : m.wf = true) (h : decode tab trunc m.readBytes off = .instr i n) :
    off < m.size ∧ 1 ≤ i.fields.byteLength := by
  obtain ⟨hn, -⟩ := decode_instr h
  obtain ⟨hone, -⟩ := recordLengthBounds tab trunc _ off i n h
  refine ⟨?_, hn ▸ hone⟩
  by_contra hpast
  cases h.symm.trans ((endOfStreamExactlyPastTheEnd tab trunc m off hwf).mpr (Nat.le_of_not_lt hpast))

theorem advancesFrom_runDisassembleUnder (tab : EncodingTable) (trunc : TruncPolicy) (m : Memory) (fuel off : Nat) :
    advancesFrom off (runDisassembleUnder tab trunc m fuel off).1 := by
  induction fuel generalizing off with
  | zero => trivial
  | succ fuel ih =>
    cases h : decode tab trunc m.readBytes off with
    | instr i n =>
      rw [runDisassembleUnder_instr h]
      exact ⟨rfl, ih _⟩
    | endOfStream =>
      rw [runDisassembleUnder_endOfStream h]
      trivial
    | truncatedField =>
      rw [runDisassembleUnder_truncatedField h]
      trivial

theorem decode_of_mem_runDisassembleUnder {start : Nat}
    (h : (off, i) ∈ (runDisassembleUnder tab trunc m fuel start).1) :
    decode tab trunc m.readBytes off = .instr i i.fields.byteLength := by
  induction fuel generalizing start with
  | zero => cases h
  | succ fuel ih =>
    cases hdecode : decode tab trunc m.readBytes start with
    | instr j n =>
      rw [runDisassembleUnder_instr hdecode] at h
      obtain h | h := List.mem_cons.mp h
      · cases h
        obtain ⟨rfl, -⟩ := decode_instr hdecode
        exact hdecode
      · exact ih h
    | endOfStream =>
      rw [runDisassembleUnder_endOfStream hdecode] at h
      cases h
    | truncatedField =>
      rw [runDisassembleUnder_truncatedField hdecode] at h
      cases h

/-- Each record of a listing takes at least one byte. -/
theorem length_runDisassembleUnder_le (hwf : m.wf = true) :
    (runDisassembleUnder tab trunc m fuel off).1.length ≤ m.size - off := by
  induction fuel generalizing off with
  | zero => exact Nat.zero_le _
  | succ fuel ih =>
    cases h : decode tab trunc m.readBytes off with
    | instr i n =>
      obtain ⟨hinside, hone⟩ := decode_instr_progress hwf h
      have hrest := ih (off := off + i.fields.byteLength)
      rw [runDisassembleUnder_instr h, List.length_cons]
      omega
    | endOfStream =>
      rw [runDisassembleUnder_endOfStream h]
      exact Nat.zero_le _
    | truncatedField =>
      rw [runDisassembleUnder_truncatedField h]
      exact Nat.zero_le _

/-- With more fuel than bytes left, a listing ends with the response of its last decode. -/
theorem responseOf_runDisassembleUnder (hwf : m.wf = true) (hfuel : m.size - off < fuel) :
    responseOf (runDisassembleUnder tab trunc m fuel off).2 =
      some (decode tab trunc m.readBytes (offsetAfter off (runDisassembleUnder tab trunc m fuel off).1)) := by
  induction fuel generalizing off with
  | zero => cases hfuel
  | succ fuel ih =>
    cases h : decode tab trunc m.readBytes off with
    | instr i n =>
      obtain ⟨hinside, hone⟩ := decode_instr_progress hwf h
      rw [runDisassembleUnder_instr h]
      exact ih (by omega)
    | endOfStream =>
      rw [runDisassembleUnder_endOfStream h]
      exact congrArg some h.symm
    | truncatedField =>
      rw [runDisassembleUnder_truncatedField h]
      exact congrArg some h.symm

end

/-- Settles O33: the fuel of the machine's listing is one more than the bytes there are. -/
theorem Machine.listingEndsAndAdvancesByLength : Obligations.ListingEndsAndAdvancesByLength :=
  fun _ hwf => ⟨length_runDisassembleUnder_le hwf, advancesFrom_runDisassembleUnder _ _ _ _ _,
    fun _ _ => decode_of_mem_runDisassembleUnder, responseOf_runDisassembleUnder hwf (Nat.lt_succ_self _)⟩

/-! ## The absent displacement (R112) -/

section
variable {pol : TruncPolicy} {src : ByteSource} {offset len' : Nat} {slot : Bool} {ops ops' : Slots} {o : Operand}
  {P : Operand → Prop}

/-- Both slots hold operands with a property. -/
def Slots.All (P : Operand → Prop) (ops : Slots) : Prop := P ops.op0 ∧ P ops.op1

theorem Slots.All.put (h : ops.All P) (ho : P o) : (ops.put slot o).All P := by
  cases slot with
  | false => exact ⟨ho, h.2⟩
  | true => exact ⟨h.1, ho⟩

theorem Slots.All.of_map_put {α : Type} {fetched : Option α} {operand : α → Operand} {n : Nat} (h : ops.All P)
    (hstep : (fetched.map fun v => (ops.put slot (operand v), n)) = some (ops', len')) (ho : ∀ v, P (operand v)) :
    ops'.All P := by
  obtain ⟨v, -, hput⟩ := Option.map_eq_some_iff.mp hstep
  cases hput
  exact h.put (ho v)

theorem isMemory_regPart (F : FieldFlags) (pattern : Byte) : isMemory (regPart F pattern) = false := by
  unfold regPart
  split_ifs
  · rfl
  · obtain ⟨id, p, hreg, -⟩ := Operand.isReg_eq_register (isReg_regOperand (regField pattern) F.w)
    rw [hreg]
    rfl
  · rfl

/-- A property that the rm operand has, and every operand that is not memory, both operands of a record have: no other step
writes a memory operand (R97 to R105). -/
theorem decodeRecord_operands {d : EncodingDescriptor} {i : Instr} (hother : ∀ o, isMemory o = false → P o)
    (hrmOperand : ∀ pattern len o k, patternStep pol src offset d = some (pattern, len) →
      rmOperand pol src (offset + len) (d.flags.w || d.flags.rmw) pattern = some (o, k) → P o)
    (h : decodeRecord pol src offset d = some i) : P i.fields.op0 ∧ P i.fields.op1 := by
  obtain ⟨pattern, len, ops₁, len₁, ops₂, len₂, ops₃, len₃, hp, hrm, himm, hrel, rfl⟩ := decodeRecord_some h
  rw [Kind.record_fields]
  have hempty : Slots.All P {} := ⟨hother _ rfl, hother _ rfl⟩
  have hfixed : (segStep d.flags pattern (regStep d.flags pattern {})).All P := by
    rw [segStep_regStep]
    exact hempty.put (hother _ (isMemory_regPart _ _))
  have h₁ : ops₁.All P := by
    unfold rmStep at hrm
    split at hrm
    · obtain ⟨⟨o, k⟩, ho, hput⟩ := Option.map_eq_some_iff.mp hrm
      cases hput
      exact hfixed.put (hrmOperand _ _ _ _ hp ho)
    · cases hrm
      exact hfixed
  have h₂ : ops₂.All P := by
    unfold immediateStep at himm
    split_ifs at himm
    · exact h₁.of_map_put himm fun _ => hother _ rfl
    · exact h₁.of_map_put himm fun _ => hother _ rfl
    · exact h₁.of_map_put himm fun _ => hother _ rfl
    · cases himm
      exact h₁
  unfold relativeStep at hrel
  split at hrel
  · exact h₂.of_map_put hrel fun _ => hother _ rfl
  · cases hrel
    exact h₂

end

theorem dispBytes_of_mod_zero {F : FieldFlags} {pattern : Byte} (hmod : modField pattern = 0)
    (hrm : rmField pattern ≠ 6) : dispBytes F pattern = 0 := by
  have hdirect : isDirect 0 (rmField pattern) = false := beq_eq_false_iff_ne.mpr hrm
  simp only [dispBytes, hmod, hdirect]
  split <;> rfl

theorem two_le_lengthOf {d : EncodingDescriptor} (h : d.sizeClass = .withModByte) (pattern : Byte) :
    2 ≤ lengthOf d pattern := by
  have hmod : modBytes d = 1 := by simp [modBytes, h]
  unfold lengthOf
  omega

/-- Settles O40: (a) by the law of lengths; (b) since the rm operand is the only one that can be memory. -/
theorem modByteLengthAndAbsentDisplacement : Obligations.ModByteLengthAndAbsentDisplacement := by
  intro tab pol src offset i n b rest hread hdecode
  obtain ⟨rfl, b', rest', hread', hrecord⟩ := decode_instr hdecode
  cases hread.symm.trans hread'
  obtain ⟨pattern', len', hp', hlen⟩ := decodeRecord_length hrecord
  refine ⟨fun hsize => hlen ▸ two_le_lengthOf hsize pattern', fun pattern len hp hmod hrm => ⟨?_, ?_⟩⟩
  · have hdisp := decodeRecord_operands (P := fun o => ∀ mode disp, o = .memory mode disp → disp = 0) ?_ ?_ hrecord
    · exact fun mode disp ho => ho.elim (hdisp.1 mode disp) (hdisp.2 mode disp)
    · rintro _ hother mode disp rfl
      cases hother
    · rintro pattern'' len'' o k hp'' ho mode disp rfl
      cases hp.symm.trans hp''
      rw [rmOperand_of_mod_zero hmod hrm] at ho
      cases ho
      rfl
  · cases hp.symm.trans hp'
    rw [hlen, lengthOf, dispBytes_of_mod_zero hmod hrm, patternStep_len hp, Nat.add_zero]

/-! ## Short reads (R41, R110) -/

/-- A response that is a record depends on no byte but the record's own. -/
theorem decode_congr_of_instr {tab : EncodingTable} {pol : TruncPolicy} {src src' : ByteSource} {offset n : Nat}
    {i : Instr} (h : decode tab pol src offset = .instr i n)
    (hagree : ∀ a count, a + count ≤ offset + n → src' a count = src a count) :
    decode tab pol src' offset = .instr i n := by
  obtain ⟨rfl, b, rest, hread, hrecord⟩ := decode_instr h
  obtain ⟨pattern, len, hp, hlen⟩ := decodeRecord_length hrecord
  have hone := one_le_lengthOf (tab b) pattern
  rw [← h]
  refine decodeDependsOnItsReadsOnly _ _ _ _ _ (hagree _ _ (by omega)) ?_ ?_
  · intro b' rest' pattern' len' hread' hp' a count hmem
    cases hread.symm.trans hread'
    cases hp.symm.trans hp'
    exact hagree a count (hlen ▸ readPlan_mem_le hmem)
  · intro b' rest' hread' hmod
    cases hread.symm.trans hread'
    refine hagree _ _ ?_
    rw [hlen, lengthOf, hmod]
    omega

/-- The bytes of a list, and zero bytes past its end without limit. -/
def paddedSource (bs : List Byte) : ByteSource := fun a count => (List.range count).map fun k => bs.getD (a + k) 0

section
variable {bs : List Byte} {a count offset len len' : Nat}

theorem listSource_eq_paddedSource (h : a + count ≤ bs.length) : listSource bs a count = paddedSource bs a count := by
  refine List.ext_getElem (by simp [listSource, paddedSource]; omega) fun k hk hk' => ?_
  have hlt : a + k < bs.length := by
    simp [paddedSource] at hk'
    omega
  simp [listSource, paddedSource, hlt]

theorem paddedSource_append_zeros (bs : List Byte) (n : Nat) :
    paddedSource (bs ++ List.replicate n 0) = paddedSource bs := by
  funext a count
  refine List.map_congr_left fun k _ => ?_
  simp only [List.getD_eq_getElem?_getD, List.getElem?_append, List.getElem?_replicate]
  split_ifs with h1 h2
  · rfl
  · rw [List.getElem?_eq_none (Nat.le_of_not_lt h1)]
    rfl
  · rw [List.getElem?_eq_none (Nat.le_of_not_lt h1)]

theorem fetch1_paddedSource (pol : TruncPolicy) (bs : List Byte) (a : Nat) :
    fetch1 pol (paddedSource bs) a = some (bs.getD a 0) := rfl

theorem fetch2_paddedSource (pol : TruncPolicy) (bs : List Byte) (a : Nat) :
    fetch2 pol (paddedSource bs) a = some (le16 (bs.getD a 0) (bs.getD (a + 1) 0)) := rfl

theorem fetch1_zeroPad (bs : List Byte) (a : Nat) :
    fetch1 .zeroPad (listSource bs) a = some (bs.getD a 0) := by
  rw [fetch1_listSource, List.getD_eq_getElem?_getD]
  cases bs[a]? <;> rfl

theorem fetch2_zeroPad (bs : List Byte) (a : Nat) :
    fetch2 .zeroPad (listSource bs) a = some (le16 (bs.getD a 0) (bs.getD (a + 1) 0)) := by
  rw [fetch2_listSource, List.getD_eq_getElem?_getD, List.getD_eq_getElem?_getD]
  cases h0 : bs[a]? with
  | none =>
    have hlen : bs.length ≤ a := List.getElem?_eq_none_iff.mp h0
    rw [List.getElem?_eq_none (by omega)]
    rfl
  | some b0 => cases bs[a + 1]? <;> rfl

/-- Under `ZeroPad` a list decodes as its bytes do with zero bytes behind them, which no policy cuts. -/
theorem decodeRecord_zeroPad (pol : TruncPolicy) (bs : List Byte) (offset : Nat) (d : EncodingDescriptor) :
    decodeRecord .zeroPad (listSource bs) offset d = decodeRecord pol (paddedSource bs) offset d := by
  simp only [decodeRecord, patternStep, rmStep, rmOperand, displacement, immediateStep, relativeStep, fetch1_zeroPad,
    fetch2_zeroPad, fetch1_paddedSource, fetch2_paddedSource]

theorem decode_zeroPad (tab : EncodingTable) (pol : TruncPolicy) (h : offset < bs.length) :
    decode tab .zeroPad (listSource bs) offset = decode tab pol (paddedSource bs) offset := by
  unfold decode
  rw [listSource_eq_paddedSource h]
  simp only [decodeRecord_zeroPad pol]

/-- Where no fetch is short there is a record. -/
theorem exists_decodeRecord_paddedSource (pol : TruncPolicy) (bs : List Byte) (offset : Nat) (d : EncodingDescriptor) :
    ∃ i, decodeRecord pol (paddedSource bs) offset d = some i := by
  have hpattern : (patternStep pol (paddedSource bs) offset d).isSome := by
    unfold patternStep
    split <;> rfl
  obtain ⟨⟨pattern, len⟩, hp⟩ := Option.isSome_iff_exists.mp hpattern
  have hrm : ∀ ops, (rmStep pol (paddedSource bs) offset d.flags pattern ops len).isSome := fun ops => by
    unfold rmStep rmOperand displacement
    dsimp only
    split_ifs <;> rfl
  obtain ⟨⟨ops₁, len₁⟩, hrm⟩ := Option.isSome_iff_exists.mp
    (hrm (segStep d.flags pattern (regStep d.flags pattern {})))
  have himm : (immediateStep pol (paddedSource bs) offset d.flags ops₁.immediateTarget ops₁ len₁).isSome := by
    unfold immediateStep
    split_ifs <;> rfl
  obtain ⟨⟨ops₂, len₂⟩, himm⟩ := Option.isSome_iff_exists.mp himm
  have hrel : (relativeStep pol (paddedSource bs) offset d.flags ops₁.immediateTarget ops₂ len₂).isSome := by
    unfold relativeStep
    split_ifs <;> rfl
  obtain ⟨⟨ops₃, len₃⟩, hrel⟩ := Option.isSome_iff_exists.mp hrel
  simp only [decodeRecord, hp, hrm, himm, hrel, Option.bind_eq_bind, Option.bind_some]
  exact ⟨_, rfl⟩

/-! Under `Error` every fetch, and with them every step of a decode, ends inside the list. -/

theorem fetch1_error_inside {b : Byte} (h : fetch1 .error (listSource bs) a = some b) : a + 1 ≤ bs.length := by
  rw [fetch1_listSource] at h
  split at h
  next b' hb => exact (List.getElem?_eq_some_iff.mp hb).1
  next => cases h

theorem fetch2_error_inside {v : Word} (h : fetch2 .error (listSource bs) a = some v) : a + 2 ≤ bs.length := by
  rw [fetch2_listSource] at h
  split at h
  next b0 b1 _ hb1 => exact (List.getElem?_eq_some_iff.mp hb1).1
  next => cases h
  next => cases h

variable {d : EncodingDescriptor} {F : FieldFlags} {pattern : Byte} {t : Bool} {ops ops' : Slots}

theorem patternStep_error_inside (h : offset < bs.length)
    (hstep : patternStep .error (listSource bs) offset d = some (pattern, len)) : offset + len ≤ bs.length := by
  cases hsize : d.sizeClass with
  | single =>
    obtain ⟨-, rfl⟩ := patternStep_single hstep hsize
    exact h
  | withModByte =>
    obtain ⟨hfetch, rfl⟩ := patternStep_withModByte hstep hsize
    exact fetch1_error_inside hfetch

theorem rmStep_error_inside (h : offset + len ≤ bs.length)
    (hstep : rmStep .error (listSource bs) offset F pattern ops len = some (ops', len')) :
    offset + len' ≤ bs.length := by
  unfold rmStep at hstep
  split at hstep
  · obtain ⟨⟨o, k⟩, ho, hput⟩ := Option.map_eq_some_iff.mp hstep
    cases hput
    rw [← Nat.add_assoc]
    obtain ⟨-, -, rfl⟩ | ⟨b, -, hfetch, -, rfl⟩ | ⟨v, -, hfetch, -, rfl⟩ | ⟨v, -, hfetch, -, rfl⟩ | ⟨-, -, rfl⟩ :=
      rmOperand_some ho
    · exact h
    · exact fetch1_error_inside hfetch
    · exact fetch2_error_inside hfetch
    · exact fetch2_error_inside hfetch
    · exact h
  · cases hstep
    exact h

theorem immediateStep_error_inside (h : offset + len ≤ bs.length)
    (hstep : immediateStep .error (listSource bs) offset F t ops len = some (ops', len')) :
    offset + len' ≤ bs.length := by
  unfold immediateStep at hstep
  split_ifs at hstep
  · obtain ⟨v, hfetch, hput⟩ := Option.map_eq_some_iff.mp hstep
    cases hput
    exact fetch2_error_inside hfetch
  · obtain ⟨b, hfetch, hput⟩ := Option.map_eq_some_iff.mp hstep
    cases hput
    exact fetch1_error_inside hfetch
  · obtain ⟨b, hfetch, hput⟩ := Option.map_eq_some_iff.mp hstep
    cases hput
    exact fetch1_error_inside hfetch
  · cases hstep
    exact h

theorem relativeStep_error_inside (h : offset + len ≤ bs.length)
    (hstep : relativeStep .error (listSource bs) offset F t ops len = some (ops', len')) :
    offset + len' ≤ bs.length := by
  unfold relativeStep at hstep
  split at hstep
  · obtain ⟨b, hfetch, hput⟩ := Option.map_eq_some_iff.mp hstep
    cases hput
    exact fetch1_error_inside hfetch
  · cases hstep
    exact h

theorem decode_error_inside {tab : EncodingTable} {i : Instr} {n : Nat} (hoffset : offset < bs.length)
    (h : decode tab .error (listSource bs) offset = .instr i n) : offset + n ≤ bs.length := by
  obtain ⟨rfl, b, rest, -, hrecord⟩ := decode_instr h
  obtain ⟨pattern, len, ops₁, len₁, ops₂, len₂, ops₃, len₃, hp, hrm, himm, hrel, rfl⟩ := decodeRecord_some hrecord
  rw [Kind.record_fields]
  exact relativeStep_error_inside (immediateStep_error_inside
    (rmStep_error_inside (patternStep_error_inside hoffset hp) hrm) himm) hrel

end

/-- Settles O41: under `Error` a list decodes to the record of its padded bytes if that lies inside. -/
theorem truncationPoliciesOnShortReads : Obligations.TruncationPoliciesOnShortReads := by
  intro tab bs offset hoffset
  have hread : paddedSource bs offset 1 = [bs.getD offset 0] := rfl
  obtain ⟨i, hrecord⟩ := exists_decodeRecord_paddedSource .error bs offset (tab (bs.getD offset 0))
  generalize hn : i.fields.byteLength = n
  have hpadded : decode tab .error (paddedSource bs) offset = .instr i n := by
    rw [← hn]
    exact decode_cons hread hrecord
  obtain ⟨-, hseven, -⟩ := recordLengthBounds tab .error _ offset i n hpadded
  refine ⟨i, n, (decode_zeroPad tab .error hoffset).trans hpadded, ?_, fun hinside => ?_, fun hpast => ?_⟩
  · rw [← paddedSource_append_zeros bs 6] at hpadded
    refine decode_congr_of_instr hpadded fun a count hle => listSource_eq_paddedSource ?_
    rw [List.length_append, List.length_replicate]
    omega
  · exact decode_congr_of_instr hpadded fun a count hle => listSource_eq_paddedSource (hle.trans hinside)
  · cases h : decode tab .error (listSource bs) offset with
    | instr j k =>
      have hinside := decode_error_inside hoffset h
      have hsame := decode_congr_of_instr h fun a count hle => (listSource_eq_paddedSource (hle.trans hinside)).symm
      cases hpadded.symm.trans hsame
      omega
    | endOfStream =>
      rw [decode_eq_endOfStream, listSource_eq_paddedSource hoffset] at h
      cases h
    | truncatedField => rfl

end Sys2Proof
end

section
/-! PROOFS. The execute engine: the next state of each executed kind by the formulas of R123 to R127, the kinds and
operands that raise (R128, R129), what an execution does not depend on (R122, R131, R132, R214), and where an error ends
a run (R135). -/

namespace Sys2Proof.Machine

open Sys2Proof Sys2Proof.Claims

/-! ## Operand shapes that raise (R129, R186) -/

/-- Settles O14: the table of R186, kind by kind. -/
theorem operandShapesThatRaise : Obligations.OperandShapesThatRaise :=
  fun _ i _ => executeUnder_unsupportedOperand_iff i

/-! ## Operands by the formulas of the views (R16, R17, R123, R124) -/

theorem viewWrite_low8_eq_mask (old v : Word) : viewWrite .low8 old v = (old &&& 0xFF00) ||| (v &&& 0x00FF) := by
  have hmask : old >>> 8 <<< 8 = old &&& 0xFF00 := BitVec.shiftLeft_ushiftRight
  rw [viewWrite, ← shiftLeft_zext8_or_zext8, zext8_hiByte, zext8_loByte, hmask]

theorem viewWrite_high8_eq_mask (old v : Word) :
    viewWrite .high8 old v = (old &&& 0x00FF) ||| ((v &&& 0x00FF) <<< 8) := by
  rw [viewWrite, ← shiftLeft_zext8_or_zext8, zext8_loByte, zext8_loByte]
  exact BitVec.or_comm _ _

theorem Registers.read_eq_valueOf (r : Registers) (cell : GenReg) (p : Portion) (drawn : Word) :
    r.read cell p = valueOf r drawn (.register (.general cell) p) := by
  cases p with
  | full16 => rfl
  | low8 => exact viewRead_low8_eq_mask _
  | high8 => exact viewRead_high8_eq_shift _

theorem Registers.write_eq_stored (r : Registers) (cell : GenReg) (p : Portion) (v : Word) :
    r.write cell p v = stored r v (.register (.general cell) p) := by
  cases p with
  | full16 => rfl
  | low8 => exact congrArg (r.set cell) (viewWrite_low8_eq_mask _ v)
  | high8 => exact congrArg (r.set cell) (viewWrite_high8_eq_mask _ v)

theorem isValue_of_isDestination {o : Operand} (h : isDestination o = true) : isValue o = true := by
  cases o with
  | register id p =>
    cases id with
    | general cell => rfl
    | segment seg => cases h
  | memory mode disp => rfl
  | none | immediate v | relative off => cases h

section
variable {o : Operand} {f : Fields} {s : State}

theorem readOp_draw_of_isValue (h : isValue o = true) : readOp .draw o s =
    some (valueOf s.regs (Config.freeWord s.draws) o, { s with draws := s.draws + drawsOf o }) := by
  cases o with
  | register id p =>
    cases id with
    | general cell => rw [← Registers.read_eq_valueOf]; rfl
    | segment seg => cases h
  | memory mode disp | immediate v => rfl
  | none | relative off => cases h

theorem writeOp_of_isDestination (h : isDestination o = true) (v : Word) :
    writeOp o v s = some { s with regs := stored s.regs v o } := by
  cases o with
  | register id p =>
    cases id with
    | general cell => rw [← Registers.write_eq_stored]; rfl
    | segment seg => cases h
  | memory mode disp => rfl
  | none | immediate v | relative off => cases h

theorem readBoth_draw_of_isValue (h0 : isValue f.op0 = true) (h1 : isValue f.op1 = true) : readBoth .draw f s =
    some (left f s, right f s, { s with draws := s.draws + drawsOf f.op0 + drawsOf f.op1 }) := by
  simp only [readBoth, readOp_draw_of_isValue h0, readOp_draw_of_isValue h1]
  rfl

end

/-! ## Results, flags and the pointer by exact arithmetic (R125 to R127, R148) -/

theorem add16_eq_wrapped (a b : Word) : add16 a b = wrapped ((a.toNat : Int) + b.toNat) := by
  simp [add16, wrapped, BitVec.ofInt_add]

theorem sub16_eq_wrapped (a b : Word) : sub16 a b = wrapped ((a.toNat : Int) - b.toNat) := by
  apply BitVec.eq_of_toNat_eq
  rw [sub16, wrapped, BitVec.toNat_sub, BitVec.toNat_ofInt]
  omega

theorem zeroOf_eq_decide (r : Word) : zeroOf r = decide (r.toNat = 0) :=
  decide_eq_decide.mpr BitVec.toNat_eq

theorem signOf_eq_decide (r : Word) : signOf r = decide (2 ^ 15 ≤ r.toNat) := BitVec.msb_eq_decide r

theorem ipAfter_eq_add (f : Fields) (s : State) : ipAfter f s = s.ip + BitVec.ofNat 16 f.byteLength := by
  apply BitVec.eq_of_toNat_eq
  rw [toNat_add_ofNat, ipAfter, BitVec.toNat_ofNat]
  exact Nat.mod_mod _ _

/-- The target of a taken branch. -/
theorem ofInt_add_length_add_offset (ip : Addr) (n : Nat) (off : Word) :
    BitVec.ofInt 16 ((ip.toNat : Int) + n + off.toInt) = ip + BitVec.ofNat 16 n + off := by
  simp [BitVec.ofInt_add]

theorem State.advance_eq_ipAfter (f : Fields) (s : State) : s.advance f.byteLength = { s with ip := ipAfter f s } := by
  rw [ipAfter_eq_add]
  rfl

/-- Flags and pointer after a result. -/
theorem State.advance_setFlags_eq (f : Fields) (s : State) (r : Word) : (s.setFlags r).advance f.byteLength =
    { s with zf := decide (r.toNat = 0), sf := decide (2 ^ 15 ≤ r.toNat), ip := ipAfter f s } := by
  rw [← zeroOf_eq_decide, ← signOf_eq_decide, State.advance_eq_ipAfter]
  rfl

/-! ## The next state of each executed kind (R137, R140 to R142, R154) -/

/-- Settles O8: one read, one write, the pointer. -/
theorem movCompletes : Obligations.MovCompletes := by
  intro f s hdest hvalue
  change movUnder .draw f s = _
  simp only [movUnder, readOp_draw_of_isValue hvalue, writeOp_of_isDestination hdest, State.advance_eq_ipAfter]
  rfl

/-- The next state of an addition or subtraction, whatever it computes (R140, R141). -/
theorem arithUnder_draw_completes (alu : Word → Word → Word) {f : Fields} {s : State} {r : Word}
    (hdest : isDestination f.op0 = true) (hvalue : isValue f.op1 = true) (hr : alu (left f s) (right f s) = r) :
    arithUnder alu .draw f s = .next
      { s with
        regs := stored s.regs r f.op0
        zf := decide (r.toNat = 0)
        sf := decide (2 ^ 15 ≤ r.toNat)
        ip := ipAfter f s
        draws := s.draws + drawsOf f.op0 + drawsOf f.op1 } := by
  simp only [arithUnder, readBoth_draw_of_isValue (isValue_of_isDestination hdest) hvalue,
    writeOp_of_isDestination hdest, State.advance_setFlags_eq, hr]
  rfl

/-- Settles O9: the sum of the two values read. -/
theorem addCompletes : Obligations.AddCompletes :=
  fun _ _ hdest hvalue => arithUnder_draw_completes add16 hdest hvalue (add16_eq_wrapped _ _)

/-- Settles O10: the difference of the two values read, slot 0 minus slot 1. -/
theorem subCompletes : Obligations.SubCompletes :=
  fun _ _ hdest hvalue => arithUnder_draw_completes sub16 hdest hvalue (sub16_eq_wrapped _ _)

/-- Settles O11: the difference is discarded once it has set the flags. -/
theorem cmpCompletes : Obligations.CmpCompletes := by
  intro f s hvalue0 hvalue1
  change cmpUnder .draw f s = _
  simp only [cmpUnder, readBoth_draw_of_isValue hvalue0 hvalue1, State.advance_setFlags_eq, sub16_eq_wrapped]
  rfl

/-- Settles O12: by the zero flag; the offset is added to the advanced pointer. -/
theorem jneCompletes : Obligations.JneCompletes := by
  intro f off s hoff
  change execJne f s = _
  by_cases hz : s.zf = true
  · simp only [execJne, hoff, if_pos hz, State.advance_eq_ipAfter]
  · simp only [execJne, hoff, if_neg hz, ofInt_add_length_add_offset]
    rfl

/-! ## The runs of the machine, step by step (R205) -/

section
variable {fuel : Nat} {s t : State} {e : Fault}

theorem runExecute_succ_of_next (h : step s = .next t) : runExecute (fuel + 1) s = runExecute fuel t := by
  rw [runExecute, runWith, h]
  rfl

theorem runExecute_succ_of_fault (h : step s = .fault e) : runExecute (fuel + 1) s = (s, .fault e) := by
  rw [runExecute, runWith, h]

theorem runExecute_succ_of_refused {r : Refusal} (h : step s = .refused r) :
    runExecute (fuel + 1) s = (s, .refused r) := by
  rw [runExecute, runWith, h]

/-- An ended run has come to its last state by completed steps only. -/
theorem exists_runExecute_outOfFuel (h : runExecute fuel s = (t, .fault e)) :
    ∃ k, k < fuel ∧ runExecute k s = (t, .outOfFuel) := by
  induction fuel generalizing s with
  | zero => cases h
  | succ fuel ih =>
    cases hstep : step s with
    | next u =>
      rw [runExecute_succ_of_next hstep] at h
      obtain ⟨k, hk, hrun⟩ := ih h
      exact ⟨k + 1, Nat.succ_lt_succ hk, (runExecute_succ_of_next hstep).trans hrun⟩
    | fault e' =>
      rw [runExecute_succ_of_fault hstep] at h
      cases h
      exact ⟨0, Nat.succ_pos fuel, rfl⟩
    | refused r =>
      rw [runExecute_succ_of_refused hstep] at h
      cases h

end

/-- Settles O31: the last state answers the error itself, and a run with less fuel stops in it. -/
theorem errorLeavesStateOfCompletedSteps : Obligations.ErrorLeavesStateOfCompletedSteps := by
  intro fuel s t e h
  have hstep := step_runExecute_fault (congrArg Prod.snd h)
  rw [h] at hstep
  exact ⟨hstep, exists_runExecute_outOfFuel h⟩

/-! ## The kinds that are decoded only (R128) -/

theorem exec_of_not_executed {i : Instr} (h : executed i.kind = false) (s : State) :
    exec i s = .fault (.unsupportedInstruction i.kind) := by
  cases i with
  | mov f | add f | sub f | cmp f | jne f => cases h
  | jo f | jno f | jb f | jnb f | je f | jbe f | ja f | js f | jns f | jp f | jnp f | jl f | jnl f | jle f | jg f
  | loopnz f | loopz f | loop f | jcxz f | push f | pop f | xchg f | inp f | out f | notUsed f => rfl

/-- An executed kind raises for its operands only. -/
theorem exec_fault_of_executed {i : Instr} {s : State} {e : Fault} (hk : executed i.kind = true)
    (h : exec i s = .fault e) : e = .unsupportedOperand := by
  cases i with
  | mov f => exact movUnder_fault h
  | add f | sub f => exact arithUnder_fault h
  | cmp f => exact cmpUnder_fault h
  | jne f => exact execJne_fault h
  | jo f | jno f | jb f | jnb f | je f | jbe f | ja f | js f | jns f | jp f | jnp f | jl f | jnl f | jle f | jg f
  | loopnz f | loopz f | loop f | jcxz f | push f | pop f | xchg f | inp f | out f | notUsed f => cases hk

/-- Settles O13: the response of an execution, the run it ends, and the listing it leaves alone. -/
theorem unsupportedKindsStopTheRun : Obligations.UnsupportedKindsStopTheRun := by
  refine ⟨fun i s hk => ⟨exec_of_not_executed hk s, fun fuel n hfetch => ?_⟩, fun i s k h => ?_, ?_⟩
  · exact runExecute_succ_of_fault ((step_of_fetch hfetch).trans (exec_of_not_executed hk s))
  · have hk : executed i.kind = false := by
      by_contra hexec
      cases exec_fault_of_executed (eq_true_of_ne_false hexec) h
    cases (exec_of_not_executed hk s).symm.trans h
    exact ⟨hk, rfl⟩
  · intro m fuel offset n i hdecode
    obtain ⟨rfl, -⟩ := decode_instr hdecode
    exact runDisassembleUnder_instr hdecode

/-! ## What an execution does not depend on (R131, R132, R214) -/

/-- A state with its Byte Source and its draw counter each passed through a function: the two fields that no meaning
reads, but to draw a value. -/
def State.mapMemDraws (g : Memory → Memory) (d : Nat → Nat) (s : State) : State :=
  { s with mem := g s.mem, draws := d s.draws }

@[simp] theorem State.mapMemDraws_mem (g : Memory → Memory) (d : Nat → Nat) (s : State) :
    (s.mapMemDraws g d).mem = g s.mem := rfl
@[simp] theorem State.mapMemDraws_ip (g : Memory → Memory) (d : Nat → Nat) (s : State) :
    (s.mapMemDraws g d).ip = s.ip := rfl

section
variable {pol : MemReadPolicy} {f : Fields} (g : Memory → Memory) {d : Nat → Nat}

/-- A read depends on the draw counter when it draws: of a memory operand under `Draw`. -/
theorem readOp_mapMemDraws {o : Operand} (h : isMemory o = true → pol = .fault ∨ d = id) (s : State) :
    readOp pol o (s.mapMemDraws g d) = (readOp pol o s).map (Prod.map id (State.mapMemDraws g d)) := by
  cases o with
  | register id p => cases id <;> rfl
  | memory mode disp =>
    obtain rfl | rfl := h rfl
    · rfl
    · cases pol <;> rfl
  | none | immediate v | relative off => rfl

theorem writeOp_mapMemDraws (d : Nat → Nat) (o : Operand) (v : Word) (s : State) :
    writeOp o v (s.mapMemDraws g d) = (writeOp o v s).map (State.mapMemDraws g d) := by
  cases o with
  | register id p => cases id <;> rfl
  | none | memory mode disp | immediate v | relative off => rfl

theorem movUnder_mapMemDraws (h : isMemory f.op1 = true → pol = .fault ∨ d = id) (s : State) :
    movUnder pol f (s.mapMemDraws g d) = mapNext (State.mapMemDraws g d) (movUnder pol f s) := by
  unfold movUnder
  rw [readOp_mapMemDraws g h]
  cases readOp pol f.op1 s with
  | none => rfl
  | some source =>
    simp only [Option.map_some, Prod.map, id_eq, writeOp_mapMemDraws]
    cases writeOp f.op0 source.1 source.2 <;> rfl

section
variable (h0 : isMemory f.op0 = true → pol = .fault ∨ d = id) (h1 : isMemory f.op1 = true → pol = .fault ∨ d = id)
include h0 h1

theorem readBoth_mapMemDraws (s : State) : readBoth pol f (s.mapMemDraws g d) =
    (readBoth pol f s).map (Prod.map id (Prod.map id (State.mapMemDraws g d))) := by
  unfold readBoth
  rw [readOp_mapMemDraws g h0]
  cases readOp pol f.op0 s with
  | none => rfl
  | some first =>
    simp only [Option.map_some, Prod.map, id_eq, readOp_mapMemDraws g h1]
    cases readOp pol f.op1 first.2 <;> rfl

theorem arithUnder_mapMemDraws (alu : Word → Word → Word) (s : State) :
    arithUnder alu pol f (s.mapMemDraws g d) = mapNext (State.mapMemDraws g d) (arithUnder alu pol f s) := by
  unfold arithUnder
  rw [readBoth_mapMemDraws g h0 h1]
  cases readBoth pol f s with
  | none => rfl
  | some sources =>
    simp only [Option.map_some, Prod.map, id_eq, writeOp_mapMemDraws]
    cases writeOp f.op0 (alu sources.1 sources.2.1) sources.2.2 <;> rfl

theorem cmpUnder_mapMemDraws (s : State) :
    cmpUnder pol f (s.mapMemDraws g d) = mapNext (State.mapMemDraws g d) (cmpUnder pol f s) := by
  unfold cmpUnder
  rw [readBoth_mapMemDraws g h0 h1]
  cases readBoth pol f s <;> rfl

end

theorem execJne_mapMemDraws (d : Nat → Nat) (f : Fields) (s : State) :
    execJne f (s.mapMemDraws g d) = mapNext (State.mapMemDraws g d) (execJne f s) := by
  unfold execJne
  cases f.op0 with
  | relative off =>
    obtain ⟨_, zf, _, _, _, _⟩ := s
    cases zf <;> rfl
  | none | register id p | memory mode disp | immediate v => rfl

/-- Over another Byte Source an execution does the same; at another draw count too, unless it draws. -/
theorem executeUnder_mapMemDraws {i : Instr} (h : readsNoMemory i = false → pol = .fault ∨ d = id) (s : State) :
    executeUnder pol i (s.mapMemDraws g d) = mapNext (State.mapMemDraws g d) (executeUnder pol i s) := by
  cases i with
  | mov f => exact movUnder_mapMemDraws g (fun hm => h (by simp [readsNoMemory, hm])) s
  | add f | sub f =>
    exact arithUnder_mapMemDraws g (fun hm => h (by simp [readsNoMemory, hm]))
      (fun hm => h (by simp [readsNoMemory, hm])) _ s
  | cmp f =>
    exact cmpUnder_mapMemDraws g (fun hm => h (by simp [readsNoMemory, hm]))
      (fun hm => h (by simp [readsNoMemory, hm])) s
  | jne f => exact execJne_mapMemDraws g d f s
  | jo f | jno f | jb f | jnb f | je f | jbe f | ja f | js f | jns f | jp f | jnp f | jl f | jnl f | jle f | jg f
  | loopnz f | loopz f | loop f | jcxz f | push f | pop f | xchg f | inp f | out f | notUsed f => rfl

theorem exec_mapMemDraws {i : Instr} (h : readsNoMemory i = false → d = id) (s : State) :
    exec i (s.mapMemDraws g d) = mapNext (State.mapMemDraws g d) (exec i s) := by
  simp only [exec_eq_executeUnder_draw]
  exact executeUnder_mapMemDraws g (fun hm => .inr (h hm)) s

end

/-- Settles O18: another Byte Source is one passed through a constant function; the one there is stays by the frame. -/
theorem executionMakesNoMemoryAccess : Obligations.ExecutionMakesNoMemoryAccess := by
  refine fun i s m => ⟨exec_mapMemDraws (fun _ => m) (fun _ => rfl) s, fun t h => ?_⟩
  rw [← (exec_frame h).mem]

/-- Settles O21: another position is the draw counter passed through a constant function. -/
theorem executionWithoutMemoryReadIsDeterministic : Obligations.ExecutionWithoutMemoryReadIsDeterministic :=
  fun _ s n hreads => exec_mapMemDraws id (d := fun _ => n) (fun hm => absurd (hm.symm.trans hreads) nofun) s

theorem stepUnder_fault_mapDraws (tab : EncodingTable) (trunc : TruncPolicy) (d : Nat → Nat) (s : State) :
    stepUnder tab trunc .fault (s.mapMemDraws id d) =
      mapNext (State.mapMemDraws id d) (stepUnder tab trunc .fault s) := by
  unfold stepUnder
  rw [State.mapMemDraws_mem, State.mapMemDraws_ip, id_eq]
  cases decode tab trunc s.mem.readBytes s.ip.toNat with
  | instr i n => exact executeUnder_mapMemDraws id (fun _ => .inl rfl) s
  | endOfStream => rfl
  | truncatedField => rfl

/-- Settles O22: under `Fault` a step does the same from every draw count, so also from its own. -/
theorem faultPolicyDrawsNothing : Obligations.FaultPolicyDrawsNothing := by
  intro tab trunc s t h
  have hany : ∀ n, stepUnder tab trunc .fault { s with draws := n } = .next { t with draws := n } := by
    intro n
    have hsame := stepUnder_fault_mapDraws tab trunc (fun _ => n) s
    rwa [h] at hsame
  have hown : Host.Outcome.next t = .next { t with draws := s.draws } := h.symm.trans (hany s.draws)
  cases t
  cases hown
  exact ⟨rfl, hany⟩

/-! ## Field flags (R122) -/

/-- Settles O19: each meaning sees its operands and the length of its record only. -/
theorem executionIgnoresFieldFlags : Obligations.ExecutionIgnoresFieldFlags := by
  intro i s F
  cases i with
  | mov f | add f | sub f | cmp f => rfl
  | jne f => rfl
  | jo f | jno f | jb f | jnb f | je f | jbe f | ja f | js f | jns f | jp f | jnp f | jl f | jnl f | jle f | jg f
  | loopnz f | loopz f | loop f | jcxz f | push f | pop f | xchg f | inp f | out f | notUsed f => rfl

end Sys2Proof.Machine
end

section
/-! PROOFS. How a run ends: the stopping step of an ended run answers again, and no fuel takes the run past it (R189);
the four responses of R180 are all that can stop a step. -/

namespace Sys2Proof.Machine

open Sys2Proof

/-! ## An ended run is final (R189) -/

/-- An ended run has no use for more fuel. -/
theorem runExecute_add_of_fault {fuel : Nat} {s t : State} {e : Fault} (h : runExecute fuel s = (t, .fault e))
    (more : Nat) : runExecute (fuel + more) s = (t, .fault e) := by
  induction fuel generalizing s with
  | zero => cases h
  | succ fuel ih =>
    rw [Nat.succ_add]
    cases hstep : step s with
    | next u =>
      rw [runExecute_succ_of_next hstep] at h ⊢
      exact ih h
    | fault e' => rwa [runExecute_succ_of_fault hstep] at h ⊢
    | refused r => rwa [runExecute_succ_of_refused hstep] at h ⊢

/-- Settles O32: the end state answers the response at its first step. -/
theorem endedRunIsFinal : Obligations.EndedRunIsFinal := by
  intro fuel more s t e h
  obtain ⟨hstep, -⟩ := errorLeavesStateOfCompletedSteps fuel s t e h
  exact ⟨runExecute_add_of_fault h more, runExecute_succ_of_fault hstep⟩

/-! ## No refusal (R180) -/

section
variable {pol : MemReadPolicy} {f : Fields} {s : State} {r : Refusal}

theorem movUnder_ne_refused : movUnder pol f s ≠ .refused r := by
  unfold movUnder
  split
  · exact raise_ne_refused _ r
  · split
    · exact raise_ne_refused _ r
    · nofun

theorem arithUnder_ne_refused {alu : Word → Word → Word} : arithUnder alu pol f s ≠ .refused r := by
  unfold arithUnder
  split
  · exact raise_ne_refused _ r
  · split
    · exact raise_ne_refused _ r
    · nofun

theorem cmpUnder_ne_refused : cmpUnder pol f s ≠ .refused r := by
  unfold cmpUnder
  split
  · exact raise_ne_refused _ r
  · nofun

theorem execJne_ne_refused : execJne f s ≠ .refused r := by
  unfold execJne
  split
  · nofun
  all_goals exact raise_ne_refused _ r

/-- An executed kind completes or raises for its operands; any other raises for its kind (R128, R129). -/
theorem exec_ne_refused (i : Instr) : exec i s ≠ .refused r := by
  cases i with
  | mov f => exact movUnder_ne_refused
  | add f | sub f => exact arithUnder_ne_refused
  | cmp f => exact cmpUnder_ne_refused
  | jne f => exact execJne_ne_refused
  | jo f | jno f | jb f | jnb f | je f | jbe f | ja f | js f | jns f | jp f | jnp f | jl f | jnl f | jle f | jg f
  | loopnz f | loopz f | loop f | jcxz f | push f | pop f | xchg f | inp f | out f | notUsed f =>
    exact unsupported_ne_refused _ s r

end

/-- Settles O27: a step is an execution or the response of its decode. -/
theorem stepNeverRefuses : Obligations.StepNeverRefuses := by
  intro s r
  unfold step
  split
  · exact exec_ne_refused _
  · exact raise_ne_refused _ r
  · exact raise_ne_refused _ r

end Sys2Proof.Machine
end

section
/-! PROOFS. The step as the execution of the record that lies at `ip` (R205, R206). -/

namespace Sys2Proof.Machine

open Sys2Proof

/-- Settles O24: the fetch of a step is the decode the statement names, and a step executes what it fetched. -/
theorem stepRunsDecodedInstruction : Obligations.StepRunsDecodedInstruction := by
  intro s i n hdecode
  have hfetch : fetch s = .instr i n := (fetch_eq_decode_error s).trans hdecode
  exact step_of_fetch hfetch

end Sys2Proof.Machine
end
